-- ==== Sys2Proof/Word.lean ====
section
/-! DEFINITION. The widths of the spec (00_scope.md rules R5 and R6), as names for bit vectors. -/

namespace Sys2Proof

/-- A command word, CMD_W = 42 bits (30_encoding.md rule R50). -/
abbrev Word := BitVec 42

/-- The host's address argument, HOST_AW = 32 bits (00_scope.md rule R5). -/
abbrev HostAddr := BitVec 32

/-- The effective address, the 17 bits that reach the pins (20_memory.md rule R31). -/
abbrev EffAddr := BitVec 17

/-- A ByteValue (20_memory.md rule R30). -/
abbrev Byte := BitVec 8

/-- A bulk mask, MASK_W = 32 bits; bit `p` stands for pin id `p` (30_encoding.md rule R61). -/
abbrev Mask := BitVec 32

/-- A pin id: a natural number below MASK_W (10_state.md rule R24). -/
abbrev Pin := Fin 32

end Sys2Proof
end

