-- ==== Sys2Proof/Config.lean ====
section
/-! DEFINITION. What is fixed for one machine: the PinAssignment (10_state.md rule R18: configuration, not state), and
the inputs the spec leaves free. -/

namespace Sys2Proof

/-- The PinAssignment (30_encoding.md rule R62): three control pins, eight data pins and seventeen address pins, the
sequences indexed by bit position. Its lengths and the bound MASK_W hold by type (00_scope.md rule R5). -/
structure Board where
  ce   : Pin
  oe   : Pin
  we   : Pin
  data : Vector Pin 8
  addr : Vector Pin 17
  deriving DecidableEq, Repr

/-- The 28 pin ids of a PinAssignment. -/
def Board.pins (b : Board) : List Pin := [b.ce, b.oe, b.we] ++ b.data.toList ++ b.addr.toList

/-- The 28 ids are pairwise distinct (30_encoding.md rule R62, 92_eei_decisions.md D24). -/
abbrev Board.Wf (b : Board) : Prop := b.pins.Nodup

/-- ADDR_PINS, the default of 30_encoding.md rule R62. UNVERIFIED (92_eei_decisions.md D1: the literals of the source are
unaudited). Unsafe: log entry 1. -/
def Config.addrPins : Vector Pin 17 := #v[5, 0, 11, 9, 10, 22, 27, 17, 23, 24, 7, 25, 4, 18, 15, 3, 2]

/-- DATA_PINS, the default of 30_encoding.md rule R62. UNVERIFIED (D1). Unsafe: log entry 1. -/
def Config.dataPins : Vector Pin 8 := #v[6, 13, 19, 26, 21, 20, 16, 12]

/-- The pins below MASK_W that the 25 pins above leave over. -/
def Config.sparePins : Vector Pin 7 := #v[1, 8, 14, 28, 29, 30, 31]

/-- Which of the seven spare pins is PIN_CE: OPEN (92_eei_decisions.md D2), so nothing fixes it. Safe: log entry 1. -/
opaque Config.ceChoice : Fin 7

/-- Which of the six remaining spare pins is PIN_OE: OPEN (D2). Safe: log entry 1. -/
opaque Config.oeChoice : Fin 6

/-- Which of the five remaining spare pins is PIN_WE: OPEN (D2). Safe: log entry 1. -/
opaque Config.weChoice : Fin 5

/-- The default map with its three control pins chosen one after another among the spare pins; every well-formed map
over the default address and data pins is of this form (Laws/Config.lean). -/
def Board.ofChoices (i : Fin 7) (j : Fin 6) (k : Fin 5) : Board where
  ce   := Config.sparePins.get i
  oe   := (Config.sparePins.eraseIdx i).get j
  we   := ((Config.sparePins.eraseIdx i).eraseIdx j).get k
  data := Config.dataPins
  addr := Config.addrPins

/-- The machine's PinAssignment. -/
def Config.board : Board := Board.ofChoices Config.ceChoice Config.oeChoice Config.weChoice

/-- `open_ok`: whether the peripheral can be acquired at moment `n` of the history (the number of events before it). A
free value under no law (92_eei_decisions.md D15). Safe: log entry 7. -/
opaque Config.openOk : Nat → Bool

/-- The level found at moment `n` on the line of pin `p` where neither the block nor the chip is known to drive it; true
is high. A free value under no law (92_eei_decisions.md D20, D26). Safe: log entry 8. -/
opaque Config.ext : Nat → Pin → Bool

/-- What the operations take as an argument: a PinAssignment and the two free inputs. The machine runs them on
`Config.world`; a test runs them on a world of its own. -/
structure World where
  board  : Board
  openOk : Nat → Bool
  ext    : Nat → Pin → Bool

/-- The world the machine runs in. -/
def Config.world : World := ⟨Config.board, Config.openOk, Config.ext⟩

end Sys2Proof
end

