-- ==== Sys2Proof/Syntax.lean ====
section
/-! DEFINITION. The commands of the sequencer: one constructor for each row of spec/opcode_table.json. -/

namespace Sys2Proof

/-- The four commands the host may issue (30_encoding.md rule R52), each with the operands it uses and no others.
The source's `Handle` carries no data and is no operand (rule R51). -/
inductive Instr where
  /-- `Init()`, 41_lifecycle.md rule R80. -/
  | init
  /-- `Shutdown()`, 41_lifecycle.md rule R81. -/
  | shutdown
  /-- `ReadByte(address)`, 44_byte_reader.md rule R110. -/
  | readb (addr : HostAddr)
  /-- `WriteByte(address, value)`, 43_byte_writer.md rule R100. -/
  | writeb (addr : HostAddr) (val : Byte)
  deriving DecidableEq, Repr

end Sys2Proof
end

