-- ==== Sys2Proof/WellFormed.lean ====
section
/-! DEFINITION. What may be written down: every command (30_encoding.md rule R54), and the PinAssignments of rule R62. -/

namespace Sys2Proof

/-- Every value of every operand is legal in every command: excess address bits are "ignored ..., not rejected" and every
byte is a value (30_encoding.md rules R53 and R54). -/
def Instr.WellFormed : Instr → Bool
  | .init       => true
  | .shutdown   => true
  | .readb _    => true
  | .writeb _ _ => true

/-- A PinAssignment as a host writes it down, with nothing checked. -/
structure PinAssignment where
  ce   : Nat
  oe   : Nat
  we   : Nat
  data : List Nat
  addr : List Nat
  deriving DecidableEq, Repr

/-- All ids of a written PinAssignment. -/
def PinAssignment.ids (p : PinAssignment) : List Nat := [p.ce, p.oe, p.we] ++ p.data ++ p.addr

/-- "sequence lengths are fixed at 8 and 17" (10_state.md rule R13). -/
def PinAssignment.lengthsOk (p : PinAssignment) : Bool := p.data.length == 8 && p.addr.length == 17

/-- Every id is below MASK_W (30_encoding.md rule R62, 92_eei_decisions.md D24). -/
def PinAssignment.belowMaskW (p : PinAssignment) : Bool := p.ids.all (· < 32)

/-- The ids are pairwise distinct (D24). -/
def PinAssignment.distinct (p : PinAssignment) : Bool := decide p.ids.Nodup

/-- The check of 70_reset_and_hazards.md rule R153; an ill-formed map is rejected (93_implementation_defined.md U16).
Log entry 13. -/
def PinAssignment.WellFormed (p : PinAssignment) : Bool := p.lengthsOk && p.belowMaskW && p.distinct

/-- The written form of a `Board`. -/
def Board.written (b : Board) : PinAssignment where
  ce   := b.ce.val
  oe   := b.oe.val
  we   := b.we.val
  data := b.data.toList.map Fin.val
  addr := b.addr.toList.map Fin.val

end Sys2Proof
end

