-- ==== Sys2Proof/Decode.lean ====
section
/-! DEFINITION. The command word (30_encoding.md rules R50 to R54 and R64): decoder, encoder, and the form in which the
rows of spec/opcode_table.json number their bits. -/

namespace Sys2Proof

/-- Field `op`, bits 41:40 (rule R50). -/
def Word.op (w : Word) : BitVec 2 := w.extractLsb' 40 2

/-- Field `val`, bits 39:32 (rule R50). -/
def Word.val (w : Word) : Byte := w.extractLsb' 32 8

/-- Field `addr`, bits 31:0 (rule R50). -/
def Word.addr (w : Word) : HostAddr := w.extractLsb' 0 32

/-- Decoding is total and direct (rule R64); the fields a command does not use are ignored, not checked (rule R54). -/
def decode (w : Word) : Instr :=
  match w.op.toNat with
  | 0 => .init
  | 1 => .shutdown
  | 2 => .readb w.addr
  | _ => .writeb w.addr w.val

/-- The canonical word of a command: its unused fields are zero (rules R54 and R64). -/
def encode : Instr → Word
  | .init       => 0x00000000000#42
  | .shutdown   => 0x10000000000#42
  | .readb a    => 0x20000000000#42 ||| a.zeroExtend 42
  | .writeb a v => 0x30000000000#42 ||| (v.zeroExtend 42 <<< 32) ||| a.zeroExtend 42

/-- A word is canonical when every field its command ignores is zero (rule R54). -/
def Word.Canonical (w : Word) : Prop :=
  match w.op.toNat with
  | 0 => w.val = 0 ∧ w.addr = 0
  | 1 => w.val = 0 ∧ w.addr = 0
  | 2 => w.val = 0
  | _ => True

/-- Why a number handed over as a command word is none. -/
inductive DecodeError where
  /-- It has a bit above bit 41 (rule R50: one length, CMD_W = 42 bits). -/
  | widerThanCommandWord
  deriving DecidableEq, Repr

/-- The command word a number stands for: any number below 2^42, and no other (rules R50 and R54). -/
def wordOfNat (n : Nat) : Except DecodeError Word :=
  if n < 2 ^ 42 then .ok (BitVec.ofNat 42 n) else .error .widerThanCommandWord

/-- The command word of an instruction of `nbits` bits `w`, every bit above `nbits` being zero. Log entry 15. -/
def tableWord (nbits w : Nat) : Except DecodeError Word := wordOfNat (w % 2 ^ nbits)

/-- The instruction the decoder reads from a row's bits, numbered as spec/opcode_table.json numbers them. -/
def decodeTableWord (nbits w : Nat) : Option Instr :=
  match tableWord nbits w with
  | .ok v    => some (decode v)
  | .error _ => none

end Sys2Proof
end

