-- ==== Sys2Proof/Machine/State.lean ====
section
/-! DEFINITION. The state of the machine as plain data (10_state.md rule R10), and the reasons a step can stop. -/

namespace Sys2Proof.Machine

/-- Ownership of the GPIO peripheral (10_state.md rule R15). -/
inductive Ownership where
  | released
  | acquired
  deriving DecidableEq, Repr

/-- PinDirection (10_state.md rule R11). -/
inductive PinDir where
  | output
  | input
  deriving DecidableEq, Repr

/-- The two notifications to the host (40_pin_primitives.md rules R73 and R74). -/
inductive Notice where
  | registerTeardown
  | registerBackend
  deriving DecidableEq, Repr

/-- One event of the trace (10_state.md rule R17). A level is a Bool: true is high is 1 (00_scope.md rule R7). -/
inductive Event where
  | opened (ok : Bool)
  | closed
  | dir (p : Pin) (d : PinDir)
  | setHigh (m : Mask)
  | setLow (m : Mask)
  | pinHigh (p : Pin)
  | pinLow (p : Pin)
  | sample (p : Pin) (b : Bool)
  | notified (n : Notice)
  deriving DecidableEq, Repr

/-- What a command answers to the host (30_encoding.md rule R55). -/
inductive Answer where
  | ok
  | initError
  | byte (v : Byte)
  | nothing
  deriving DecidableEq, Repr

/-- The sequencer position (10_state.md rule R16): `Idle`, or the command with the index of its next step. -/
inductive Seq where
  | idle
  | busy (c : Instr) (k : Nat)
  deriving DecidableEq, Repr

/-- Which chip is wired to the pins (92_eei_decisions.md D21): the reference echo chip of 20_memory.md rule R36, or a chip
of which nothing is known but the bus contract (rule R35), whose driven byte is therefore free. Log entry 3. -/
inductive ChipKind where
  | echo
  | unspecified
  deriving DecidableEq, Repr

/-- The state. `none` in an entry of `dir` or `lat`, and a location not listed in `mem`, is the spec's own value `⊥`
(10_state.md rule R19): no level, never turned into one. -/
structure State where
  /-- The session flag (rule R15). -/
  acq     : Ownership
  /-- `dir[p]` for each pin id (rule R11). -/
  dir     : Vector (Option PinDir) 32
  /-- `lat[p]`, the output latch of each pin id (rule R12); true is high. -/
  lat     : Vector (Option Bool) 32
  /-- The sequencer position (rule R16). -/
  seq     : Seq
  /-- The events so far, oldest first (rule R17). -/
  trace   : List Event
  /-- Levels sampled by the command in progress, `s_0` first (44_byte_reader.md rule R110). Log entry 4. -/
  samples : List Bool
  /-- Answers given to the host, oldest first (30_encoding.md rule R55). Log entry 5. -/
  answers : List Answer
  /-- Command words the host is going to issue, oldest first (60_exceptions.md rule R133). Log entry 6. -/
  pending : List Word
  /-- Which chip is wired to the pins. -/
  chip    : ChipKind
  /-- `chip.mem` (20_memory.md rule R36): the locations that hold a byte, addresses strictly rising. -/
  mem     : List Host.Cell
  deriving DecidableEq, Repr

/-- Why the machine stops with a fault. The block itself has no fault: InitError is an answer (60_exceptions.md rules R120
and R121). -/
inductive Fault where
  /-- Raised by the sequencer step in a state whose position is past the end of its command's step list, which
  10_state.md rule R16 excludes ("`k` is bounded by the list length"). Safe: it stops where no hardware state exists. Log entry 14. -/
  | positionPastEnd
  deriving DecidableEq, Repr

/-- Why a command or a pin operation is given no step. Each is a refusal the spec itself demands (00_scope.md rule R8,
`refuse`). -/
inductive Refusal where
  /-- An instruction whose meaning is not written yet, raised by an arm of `exec`. Safe. -/
  | notModelled (mnemonic : String)
  /-- Raised by every command while `seq` is not Idle (60_exceptions.md rule R126, 93_implementation_defined.md U4). Safe
  (92_eei_decisions.md D23). -/
  | commandInProgress
  /-- Raised by READB, WRITEB and SHUTDOWN while the peripheral is Released (rule R126, D13, U9). Safe. -/
  | sessionNotOpen
  /-- Raised by INIT while the peripheral is Acquired (rule R126, D14, U9). Safe. -/
  | sessionAlreadyOpen
  /-- Raised by a pin operation asked for while the peripheral is Released (40_pin_primitives.md rule R65 (c)). Safe. -/
  | peripheralNotHeld
  /-- Raised by `readPinLevel` of a pin that is not an Input (rule R72, U7). Safe. -/
  | pinNotInput
  /-- Raised by an event after which the chip drives a data pin that is an Output (10_state.md rule R14, U6). Safe. -/
  | busContention
  deriving DecidableEq, Repr

/-- The state before the first command (10_state.md rule R27, 70_reset_and_hazards.md rule R140). The fields that are the
model's own are empty, and the chip is the reference chip with nothing in it: log entries 3 to 6. -/
def State.reset : State where
  acq     := .released
  dir     := Vector.replicate 32 none
  lat     := Vector.replicate 32 none
  seq     := .idle
  trace   := []
  samples := []
  answers := []
  pending := []
  chip    := .echo
  mem     := []

end Sys2Proof.Machine
end

