-- ==== Sys2Proof/Machine/Operands.lean ====
section
/-! DEFINITION. The operand forms of the commands: the effective address, a byte, and the pin masks they become
(30_encoding.md rules R53, R58, R59 and R61). -/

namespace Sys2Proof.Machine

/-- `address[16:0]` (20_memory.md rule R31): the bits above 16 are ignored, not rejected. -/
def effective (a : HostAddr) : EffAddr := a.extractLsb' 0 17

/-- `bit(p) = 1 << p` (rule R61). -/
def pinBit (p : Pin) : Mask := 1#32 <<< p.val

/-- `m[p] = 1`: pin `p` is one of the pins of mask `m` (rule R61). -/
def maskHas (m : Mask) (p : Pin) : Bool := m.getLsbD p.val

/-- The mask of the pins of a sequence whose index satisfies `keep`, the first pin having index `i`: the or of their
bits (rules R58 and R59). -/
def maskFrom (keep : Nat → Bool) : Nat → List Pin → Mask
  | _, []      => 0#32
  | i, p :: ps => (if keep i then pinBit p else 0#32) ||| maskFrom keep (i + 1) ps

/-- The set group of value `v` over a pin sequence: the pins whose bit is 1. -/
def setGroup {n : Nat} (pins : Vector Pin n) (v : BitVec n) : Mask := maskFrom v.getLsbD 0 pins.toList

/-- The clear group of value `v` over a pin sequence: the pins whose bit is 0. -/
def clearGroup {n : Nat} (pins : Vector Pin n) (v : BitVec n) : Mask :=
  maskFrom (fun i => !v.getLsbD i) 0 pins.toList

/-- ADDR_ALL (rule R61). -/
def addrAll (b : Board) : Mask := maskFrom (fun _ => true) 0 b.addr.toList

/-- DATA_ALL (rule R61). -/
def dataAll (b : Board) : Mask := maskFrom (fun _ => true) 0 b.data.toList

/-- CTRL_ALL (rule R61). -/
def ctrlAll (b : Board) : Mask := pinBit b.ce ||| pinBit b.oe ||| pinBit b.we

/-- `addr_set(a)` (rule R58). -/
def addrSet (b : Board) (a : HostAddr) : Mask := setGroup b.addr (effective a)

/-- `addr_clr(a)` (rule R58). -/
def addrClr (b : Board) (a : HostAddr) : Mask := clearGroup b.addr (effective a)

/-- `data_set(v)` (rule R59). -/
def dataSet (b : Board) (v : Byte) : Mask := setGroup b.data v

/-- `data_clr(v)` (rule R59). -/
def dataClr (b : Board) (v : Byte) : Mask := clearGroup b.data v

/-- The number whose bit `i` is the `i`-th level: `sum over i of s_i << i` (rule R59, 44_byte_reader.md rule R111). -/
def valueOfLevels : List Bool → Nat
  | []      => 0
  | b :: bs => b.toNat + 2 * valueOfLevels bs

/-- The byte assembled from eight samples, `s_0` least significant (44_byte_reader.md rule R111). -/
def byteOfSamples (s : List Bool) : Byte := BitVec.ofNat 8 (valueOfLevels s)

end Sys2Proof.Machine
end

