-- ==== Sys2Proof/Machine/Ops.lean ====
section
/-! DEFINITION. Named operations over the state: the per-pin registers, the chip's memory, the trace, and how a command
is admitted, answered and ended. -/

namespace Sys2Proof.Machine

/-- An outcome of this machine. -/
abbrev Result := Host.Outcome State Fault Refusal

/-- Goes on with a next state; a stop stays the stop it is. -/
def andThen (o : Result) (f : State → Result) : Result :=
  match o with
  | .next s    => f s
  | .fault r   => .fault r
  | .refused r => .refused r

/-! ### Per-pin registers (10_state.md rules R11 and R12) -/

/-- `dir[p]`. -/
def State.dirOf (s : State) (p : Pin) : Option PinDir := s.dir.get p

/-- `lat[p]`. -/
def State.latOf (s : State) (p : Pin) : Option Bool := s.lat.get p

/-- `dir[p] <- d`. -/
def State.setDir (s : State) (p : Pin) (d : PinDir) : State := { s with dir := s.dir.set p.val (some d) }

/-- `lat[p] <- b`, written whatever the direction (rule R12). -/
def State.setLat (s : State) (p : Pin) (b : Bool) : State := { s with lat := s.lat.set p.val (some b) }

/-- The latch file with level `b` in every entry whose mask bit is set. -/
@[irreducible] def writeLatches (lat : Vector (Option Bool) 32) (m : Mask) (b : Bool) : Vector (Option Bool) 32 :=
  Vector.ofFn fun p : Pin => if maskHas m p then some b else lat.get p

/-- `lat[p] <- b` for every pin of a mask, in one step (40_pin_primitives.md rules R65 (e), R68 and R69). -/
def State.setLats (s : State) (m : Mask) (b : Bool) : State := { s with lat := writeLatches s.lat m b }

/-- Every `dir[p]` and `lat[p]` becomes `⊥` (40_pin_primitives.md rule R75, 92_eei_decisions.md D12). -/
def State.clearPins (s : State) : State :=
  { s with dir := Vector.replicate 32 none, lat := Vector.replicate 32 none }

/-- Appends one event to the trace (10_state.md rule R17). -/
def State.emit (s : State) (e : Event) : State := { s with trace := s.trace ++ [e] }

/-! ### The chip's memory (20_memory.md rules R30 and R36) -/

/-- What a location that is not listed holds: `⊥`, a location nothing has written (10_state.md rule R27 for the reference
chip). Reading it is no fault: the chip drives a draw (rule R36). -/
def Memory.unlisted : Option Byte := none

/-- The byte at a location, or `⊥`. -/
def Memory.read : List Host.Cell → Nat → Option Byte
  | [], _ => Memory.unlisted
  | (x, v) :: rest, a => if x = a then some v else Memory.read rest a

/-- Stores a byte, keeping the addresses strictly rising. A stored byte never equals `⊥`, so it is always listed. -/
def Memory.write : List Host.Cell → Nat → Byte → List Host.Cell
  | [], a, v => [(a, v)]
  | (x, u) :: rest, a, v =>
    if a < x then (a, v) :: (x, u) :: rest
    else if a = x then (a, v) :: rest
    else (x, u) :: Memory.write rest a v

/-- Addresses strictly rise and each exceeds `low`. -/
def Memory.risingFrom : Option Nat → List Host.Cell → Bool
  | _, [] => true
  | none, (x, _) :: rest => Memory.risingFrom (some x) rest
  | some low, (x, _) :: rest => decide (low < x) && Memory.risingFrom (some x) rest

/-- The canonical form: addresses strictly rising, all in the chip address space of 2^17 bytes (rule R30). -/
def Memory.wf (m : List Host.Cell) : Bool := Memory.risingFrom none m && m.all fun c => decide (c.1 < 2 ^ 17)

/-! ### Commands: admission, answer, the error -/

/-- The command is accepted: `seq <- (c, 0)` (10_state.md rule R16), with nothing sampled yet. -/
def accept (c : Instr) (s : State) : State := { s with seq := .busy c 0, samples := [] }

/-- `seq <- (c, k + 1)` (rule R16). -/
def advance (s : State) : State :=
  match s.seq with
  | .idle     => s
  | .busy c k => { s with seq := .busy c (k + 1) }

/-- The command ends: `seq <- Idle`, and the host gets its one answer (rule R16, 30_encoding.md rule R55). The samples go:
the block keeps no copy of the last byte read (10_state.md rule R18). -/
def complete (a : Answer) (s : State) : State :=
  { s with seq := .idle, samples := [], answers := s.answers ++ [a] }

/-- `raise InitError` (60_exceptions.md rule R124): the command ends and the host receives InitError. Nothing is saved, no
mode changes, control goes nowhere. There is no return from it (rule R125). -/
def raiseInitError (s : State) : State := complete .initError s

/-- Admission (60_exceptions.md rule R126): a command is accepted when `seq` is Idle and the peripheral is in the
ownership state the command needs, and refused otherwise. Log entry 12. -/
def admission (need : Ownership) (why : Refusal) (c : Instr) (s : State) : Result :=
  match s.seq with
  | .busy _ _ => .refused .commandInProgress
  | .idle     => if s.acq = need then .next (accept c s) else .refused why

/-- The sequencer takes the host's next command, which it does only when `seq` is Idle (rules R122 and R126): the decoded
command, and the state in which it is no longer pending. -/
def takeCommand (s : State) : Option (Instr × State) :=
  match s.pending with
  | []        => none
  | w :: rest => some (decode w, { s with pending := rest })

end Sys2Proof.Machine
end

