-- ==== Sys2Proof/Machine/Lines.lean ====
section
/-! DEFINITION. Line levels, bus values, and the chip (10_state.md rule R14, 20_memory.md rules R35, R36 and R45). -/

namespace Sys2Proof.Machine

/-- What stands on the wire of a pin (10_state.md rule R14). -/
inductive Line where
  /-- A level that the block, or the chip, drives. -/
  | level (b : Bool)
  /-- The pin is an Input and nothing known drives it: a draw if it is read. -/
  | draw
  /-- `⊥`: the direction, or the latch of an Output, was never written. -/
  | unset
  deriving DecidableEq, Repr

/-- The line as the block alone makes it: the latch of an Output, a draw on an Input, `⊥` otherwise. -/
def drive (s : State) (p : Pin) : Line :=
  match s.dirOf p with
  | none         => .unset
  | some .input  => .draw
  | some .output =>
    match s.latOf p with
    | none   => .unset
    | some b => .level b

/-- The level the chip takes on a line the block drives, or should drive: its level, else any level (10_state.md rule
R19, 92_eei_decisions.md D26). The moment is the number of events so far. -/
def seen (w : World) (s : State) (p : Pin) : Bool :=
  match drive s p with
  | .level b => b
  | _        => w.ext s.trace.length p

/-- `A_bus` as the chip takes it. -/
def chipAddress (w : World) (s : State) : EffAddr :=
  BitVec.ofNat 17 (valueOfLevels (w.board.addr.toList.map (seen w s)))

/-- The chip drives the data pins while `CE# = 0` and `OE# = 0` (20_memory.md rule R35.2); a line without a level does not
count as asserted. DESIGN CHOICE for lines without a level; log entry 9. -/
def chipDrives (b : Board) (s : State) : Bool :=
  drive s b.ce == .level false && drive s b.oe == .level false

/-- The bit the chip is known to drive on a pin: bit `i` of the byte at `A_bus` on `DATA_PINS[i]` for the echo chip (rule
R36), and nothing known for a location holding `⊥` or for an unspecified chip. -/
def chipBit (w : World) (s : State) (p : Pin) : Option Bool :=
  if chipDrives w.board s then
    match s.chip with
    | .unspecified => none
    | .echo =>
      match w.board.data.toList.idxOf? p, Memory.read s.mem (chipAddress w s).toNat with
      | some i, some v => some (v.getLsbD i)
      | _, _           => none
  else none

/-- `line(p)` (10_state.md rule R14): on an Input, `ext(p)` is the chip's bit while the chip drives it. -/
def line (w : World) (s : State) (p : Pin) : Line :=
  match drive s p with
  | .draw =>
    match chipBit w s p with
    | some b => .level b
    | none   => .draw
  | l => l

/-- The level read on a line: the line's level, else any level (rules R14 and R19, 92_eei_decisions.md D20). -/
def sense (w : World) (s : State) (p : Pin) : Bool :=
  match line w s p with
  | .level b => b
  | _        => w.ext s.trace.length p

/-- `D_bus` as the chip takes it. -/
def chipData (w : World) (s : State) : Byte :=
  BitVec.ofNat 8 (valueOfLevels (w.board.data.toList.map (sense w s)))

/-- One term of a bus value: the level read on a line, a draw where nothing known drives an Input, and nothing where the
line is `⊥` (10_state.md rule R14). -/
def busLevel (w : World) (s : State) (p : Pin) : Option Bool :=
  match line w s p with
  | .unset => none
  | _      => some (sense w s p)

/-- A bus value, "defined when no term is `⊥`" (10_state.md rule R14). -/
def busValue (w : World) (s : State) (pins : List Pin) : Option Nat := (pins.mapM (busLevel w s)).map valueOfLevels

/-- `A_bus` (10_state.md rule R14). -/
def aBus (w : World) (s : State) : Option Nat := busValue w s w.board.addr.toList

/-- `D_bus` (10_state.md rule R14). -/
def dBus (w : World) (s : State) : Option Nat := busValue w s w.board.data.toList

/-- The chip drives while a data pin is an Output, to which the spec gives no meaning (93_implementation_defined.md U6). -/
def contended (b : Board) (s : State) : Bool :=
  b.data.toList.any (fun p => s.dirOf p == some .output) && chipDrives b s

/-- The chip latches at an event that takes `WE#` from 0 to 1 while `CE# = 0` (20_memory.md rule R35.3). A line without a
level makes no edge. DESIGN CHOICE for lines without a level; log entry 9. -/
def chipLatches (w : World) (before after : State) : Bool :=
  drive before w.board.we == .level false && drive after w.board.we == .level true && !seen w after w.board.ce

/-- The chip's reaction to one event: at a latching event it stores `D_bus` at `A_bus`, both taken from the lines at that
event (rules R35.3 and R36; `MemWrite` of rule R45), and otherwise nothing. -/
def chipReact (w : World) (before after : State) : State :=
  if chipLatches w before after then
    { after with mem := Memory.write after.mem (chipAddress w after).toNat (chipData w after) }
  else after

end Sys2Proof.Machine
end

