-- ==== Sys2Proof/Machine/Primitives.lean ====
section
/-! DEFINITION. The ten kinds of step: the eight GPIO primitives and the two notifications (40_pin_primitives.md). -/

namespace Sys2Proof.Machine

/-- One step of a command's step list. -/
inductive Prim where
  /-- Rule R66. -/
  | acquire
  /-- Rule R75. -/
  | close
  /-- Rule R67. -/
  | setPinDirection (p : Pin) (d : PinDir)
  /-- Rule R68. -/
  | setPinsHigh (m : Mask)
  /-- Rule R69. -/
  | setPinsLow (m : Mask)
  /-- Rule R70. -/
  | setPinHigh (p : Pin)
  /-- Rule R71. -/
  | setPinLow (p : Pin)
  /-- Rule R72. -/
  | readPinLevel (p : Pin)
  /-- Rules R73 and R74. -/
  | inform (n : Notice)
  deriving DecidableEq, Repr

/-- The event a primitive appends (rule R65 (a)); the answer of `open()` and the sampled level are those of the moment. -/
def eventOf (w : World) (s : State) : Prim → Event
  | .acquire             => .opened (w.openOk s.trace.length)
  | .close               => .closed
  | .setPinDirection p d => .dir p d
  | .setPinsHigh m       => .setHigh m
  | .setPinsLow m        => .setLow m
  | .setPinHigh p        => .pinHigh p
  | .setPinLow p         => .pinLow p
  | .readPinLevel p      => .sample p (sense w s p)
  | .inform n            => .notified n

/-- The registers a primitive writes. -/
def writeOf (w : World) (s : State) : Prim → State
  | .acquire             => { s with acq := if w.openOk s.trace.length then .acquired else s.acq }
  | .close               => { s.clearPins with acq := .released }
  | .setPinDirection p d => s.setDir p d
  | .setPinsHigh m       => s.setLats m true
  | .setPinsLow m        => s.setLats m false
  | .setPinHigh p        => s.setLat p true
  | .setPinLow p         => s.setLat p false
  | .readPinLevel p      => { s with samples := s.samples ++ [sense w s p] }
  | .inform _            => s

/-- A primitive's whole effect: its register writes, its one event, and the chip's reaction to the lines. -/
def effect (w : World) (m : Prim) (s : State) : State :=
  chipReact w s ((writeOf w s m).emit (eventOf w s m))

/-- The seven pin operations other than `open()` need the peripheral (rule R65 (c)); the notifications do not. -/
def Prim.needsPeripheral : Prim → Bool
  | .acquire  => false
  | .inform _ => false
  | _         => true

/-- `readPinLevel` of a pin that is not an Input has no answer (rule R72, 93_implementation_defined.md U7). -/
def Prim.readsNonInput (s : State) : Prim → Bool
  | .readPinLevel p => s.dirOf p != some .input
  | _               => false

/-- One primitive: refused where the spec gives it no meaning, and otherwise its effect. Log entry 12. -/
def perform (w : World) (m : Prim) (s : State) : Result :=
  if m.needsPeripheral && s.acq == .released then .refused .peripheralNotHeld
  else if m.readsNonInput s then .refused .pinNotInput
  else if contended w.board (effect w m s) then .refused .busContention
  else .next (effect w m s)

/-- The primitives of a step list one after another, each advancing `seq` (10_state.md rule R16, 20_memory.md rule R39). -/
def performAll (w : World) : List Prim → State → Result
  | [], s      => .next s
  | m :: ms, s => andThen (perform w m s) fun t => performAll w ms (advance t)

end Sys2Proof.Machine
end

