-- ==== Sys2Proof/Machine/AddressEncoder.lean ====
section
/-! DEFINITION. The Address Encoder (42_address_encoder.md). -/

namespace Sys2Proof.Machine

/-- `ENCADDR(a)` (rule R90): one bulk set, then one bulk clear, both issued even when a mask is zero. -/
def encAddr (b : Board) (a : HostAddr) : List Prim := [.setPinsHigh (addrSet b a), .setPinsLow (addrClr b a)]

end Sys2Proof.Machine
end

