-- ==== Sys2Proof/Machine/ByteReader.lean ====
section
/-! DEFINITION. The Byte Reader (44_byte_reader.md). -/

namespace Sys2Proof.Machine

/-- The step list of READB (rule R110): address, data pins to Input, CE, OE, eight samples, OE, CE. -/
def readbSteps (b : Board) (a : HostAddr) : List Prim :=
  encAddr b a
  ++ b.data.toList.map (fun p => Prim.setPinDirection p .input)
  ++ [.setPinLow b.ce, .setPinLow b.oe]
  ++ b.data.toList.map Prim.readPinLevel
  ++ [.setPinHigh b.oe, .setPinHigh b.ce]

/-- READB in a world (rule R110): it answers the byte assembled from its eight samples. -/
def readbIn (w : World) (a : HostAddr) (s : State) : Result :=
  andThen (admission .acquired .sessionNotOpen (.readb a) s) fun s0 =>
  andThen (performAll w (readbSteps w.board a) s0) fun t => .next (complete (.byte (byteOfSamples t.samples)) t)

/-- `ReadByte(address)` (rule R110). -/
def execReadb (a : HostAddr) (s : State) : Result := readbIn Config.world a s

end Sys2Proof.Machine
end

