-- ==== Sys2Proof/Machine/ByteWriter.lean ====
section
/-! DEFINITION. The Byte Writer (43_byte_writer.md). -/

namespace Sys2Proof.Machine

/-- The step list of WRITEB (rule R100): address, data pins to Output, data, then the WE pulse inside the CE window. -/
def writebSteps (b : Board) (a : HostAddr) (v : Byte) : List Prim :=
  encAddr b a
  ++ b.data.toList.map (fun p => Prim.setPinDirection p .output)
  ++ [.setPinsHigh (dataSet b v), .setPinsLow (dataClr b v)]
  ++ [.setPinLow b.ce, .setPinLow b.we, .setPinHigh b.we, .setPinHigh b.ce]

/-- WRITEB in a world (rule R100): no value, no error. -/
def writebIn (w : World) (a : HostAddr) (v : Byte) (s : State) : Result :=
  andThen (admission .acquired .sessionNotOpen (.writeb a v) s) fun s0 =>
  andThen (performAll w (writebSteps w.board a v) s0) fun t => .next (complete .nothing t)

/-- `WriteByte(address, value)` (rule R100). -/
def execWriteb (a : HostAddr) (v : Byte) (s : State) : Result := writebIn Config.world a v s

end Sys2Proof.Machine
end

