-- ==== Sys2Proof/Machine/Lifecycle.lean ====
section
/-! DEFINITION. The Lifecycle commands INIT and SHUTDOWN (41_lifecycle.md). -/

namespace Sys2Proof.Machine

/-- Steps k = 1 .. 23 of INIT (rule R80): control levels before control directions, then the address directions, then
the two notifications. -/
def initConfigure (b : Board) : List Prim :=
  [.setPinsHigh (ctrlAll b), .setPinDirection b.ce .output, .setPinDirection b.oe .output,
    .setPinDirection b.we .output]
  ++ b.addr.toList.map (fun p => Prim.setPinDirection p .output)
  ++ [.inform .registerTeardown, .inform .registerBackend]

/-- The step list of INIT (rule R80). -/
def initSteps (b : Board) : List Prim := .acquire :: initConfigure b

/-- INIT in a world (rule R80): when `open()` fails the command raises InitError and nothing else happens. -/
def initIn (w : World) (s : State) : Result :=
  andThen (admission .released .sessionAlreadyOpen .init s) fun s0 =>
  andThen (perform w .acquire s0) fun s1 =>
  if s1.acq = .released then .next (raiseInitError (advance s1))
  else andThen (performAll w (initConfigure w.board) (advance s1)) fun t => .next (complete .ok t)

/-- `Init()` (rule R80). -/
def execInit (s : State) : Result := initIn Config.world s

/-- The step list of SHUTDOWN (rule R81). -/
def shutdownSteps : List Prim := [.close]

/-- SHUTDOWN in a world (rule R81). -/
def shutdownIn (w : World) (s : State) : Result :=
  andThen (admission .acquired .sessionNotOpen .shutdown s) fun s0 =>
  andThen (performAll w shutdownSteps s0) fun t => .next (complete .nothing t)

/-- `Shutdown()` (rule R81). -/
def execShutdown (s : State) : Result := shutdownIn Config.world s

end Sys2Proof.Machine
end

