-- ==== Sys2Proof/Machine/Sequencer.lean ====
section
/-! DEFINITION. The sequencer one step at a time (10_state.md rule R16): what happens in a state whose `seq` is not Idle. -/

namespace Sys2Proof.Machine

/-- The step list of a command. -/
def commandSteps (b : Board) : Instr → List Prim
  | .init       => initSteps b
  | .shutdown   => shutdownSteps
  | .readb a    => readbSteps b a
  | .writeb a v => writebSteps b a v

/-- What a command answers once its last step is done (30_encoding.md rule R55). -/
def answerOf (s : State) : Instr → Answer
  | .init       => .ok
  | .shutdown   => .nothing
  | .readb _    => .byte (byteOfSamples s.samples)
  | .writeb _ _ => .nothing

/-- What follows step `k` of a command of `n` steps: the error exit of INIT at its step 0, the end after the last step, and
otherwise the next position. -/
def afterStep (n : Nat) (c : Instr) (k : Nat) (s : State) : State :=
  if c = .init ∧ k = 0 ∧ s.acq = .released then raiseInitError (advance s)
  else if k + 1 = n then complete (answerOf s c) (advance s)
  else advance s

/-- One sequencer step: performs step `k` of command `c` and sets `seq`. -/
def sequencerStep (w : World) (c : Instr) (k : Nat) (s : State) : Result :=
  match (commandSteps w.board c)[k]? with
  | none   => .fault .positionPastEnd
  | some m => andThen (perform w m s) fun t => .next (afterStep (commandSteps w.board c).length c k t)

/-- The sequencer in the machine's world. -/
def continueCommand (c : Instr) (k : Nat) (s : State) : Result := sequencerStep Config.world c k s

end Sys2Proof.Machine
end

