-- ==== Sys2Proof/Machine/Dispatch.lean ====
section
/-! DEFINITION. One arm per command: the whole command from its admission to its answer (10_state.md rule R16 allows the
command as one big step). -/

namespace Sys2Proof.Machine

def exec (i : Instr) (s : State) : Host.Outcome State Fault Refusal :=
  match i with
  | .init => Sys2Proof.Machine.execInit s
  | .shutdown => Sys2Proof.Machine.execShutdown s
  | .readb addr => Sys2Proof.Machine.execReadb addr s
  | .writeb addr val => Sys2Proof.Machine.execWriteb addr val s

end Sys2Proof.Machine
end

