-- ==== Sys2Proof/Machine/Step.lean ====
section
/-! DEFINITION. One step of the machine, and the placing of a command word where the step takes its next command. -/

namespace Sys2Proof.Machine

/-- When `seq` is Idle the machine takes the host's next command and runs it whole; with no command pending it does
nothing and its pins hold (60_exceptions.md rule R132). When a command is in progress it performs that command's next
step (10_state.md rule R16). Log entries 10 and 11. -/
def step (s : State) : Host.Outcome State Fault Refusal :=
  match s.seq with
  | .busy c k => continueCommand c k s
  | .idle =>
    match takeCommand s with
    | none        => .next s
    | some (i, t) => exec i t

/-- `s` with a command word as the host's next command, at a point where the sequencer takes one (`seq` Idle). Bits that
form no command word leave the host with nothing to issue. Log entry 6. -/
def State.withFetchWord (s : State) (nbits w : Nat) : State :=
  match tableWord nbits w with
  | .ok v    => { s with seq := .idle, pending := v :: s.pending.drop 1 }
  | .error _ => { s with seq := .idle, pending := [] }

end Sys2Proof.Machine
end

