-- ==== Sys2Proof/Machine/Flags.lean ====
section
/-! DEFINITION. The block has no flags and no condition codes (10_state.md rule R21). Its only status-like value is the
answer of a command, here as the 9 bits of 30_encoding.md rule R55. -/

namespace Sys2Proof.Machine

/-- `{status, data[7:0]}`: `status` is 1 only for InitError, `data` is the byte of READB and zero otherwise. -/
def Answer.word : Answer → BitVec 9
  | .ok        => 0#9
  | .initError => 0x100#9
  | .byte v    => v.zeroExtend 9
  | .nothing   => 0#9

end Sys2Proof.Machine
end

