-- ==== Sys2Proof/Safety.lean ====
section
/-! DEFINITION. What holds of the pins in every run the spec admits: before and between sessions (10_state.md rule R27),
between the commands of a session (rule R28), and at every point inside a command (70_reset_and_hazards.md rules R147 and
R148, from the step lists of rules R80, R100 and R110). -/

namespace Sys2Proof.Machine

/-- Every `dir[p]` and `lat[p]` is `⊥` (10_state.md rule R27). -/
def PinsUnset (s : State) : Prop := ∀ p, s.dirOf p = none ∧ s.latOf p = none

/-- "every state with `acq = Released` has all `dir` and `lat` at `⊥`" (rule R27). -/
def ReleasedPinsUnset (s : State) : Prop := s.acq = .released → PinsUnset s

/-- The three control pins are Outputs (rule R28). -/
def ControlsOutput (b : Board) (s : State) : Prop :=
  s.dirOf b.ce = some .output ∧ s.dirOf b.oe = some .output ∧ s.dirOf b.we = some .output

/-- The control latches, as `(CE#, OE#, WE#)`. -/
def ControlLatches (b : Board) (s : State) (ce oe we : Bool) : Prop :=
  s.latOf b.ce = some ce ∧ s.latOf b.oe = some oe ∧ s.latOf b.we = some we

/-- Every address pin is an Output (rule R28). -/
def AddressOutput (b : Board) (s : State) : Prop := ∀ i : Fin 17, s.dirOf (b.addr.get i) = some .output

/-- The address latches hold `ea` (42_address_encoder.md rule R90, post-state). -/
def AddressHolds (b : Board) (s : State) (ea : EffAddr) : Prop :=
  ∀ i : Fin 17, s.latOf (b.addr.get i) = some (ea.getLsbD i.val)

/-- The data latches hold `v` (43_byte_writer.md rule R100, post-state). -/
def DataHolds (b : Board) (s : State) (v : Byte) : Prop :=
  ∀ i : Fin 8, s.latOf (b.data.get i) = some (v.getLsbD i.val)

/-- The address latches whose bit of `ea` is 1 are high (after the first step of ENCADDR, rule R92). -/
def AddressRaised (b : Board) (s : State) (ea : EffAddr) : Prop :=
  ∀ i : Fin 17, ea.getLsbD i.val = true → s.latOf (b.addr.get i) = some true

/-- The data latches whose bit of `v` is 1 are high (between the two data steps of WRITEB, 43_byte_writer.md rule R103). -/
def DataRaised (b : Board) (s : State) (v : Byte) : Prop :=
  ∀ i : Fin 8, v.getLsbD i.val = true → s.latOf (b.data.get i) = some true

/-- Every data pin has the direction `d`. -/
def DataDirection (b : Board) (s : State) (d : Option PinDir) : Prop := ∀ i : Fin 8, s.dirOf (b.data.get i) = d

/-- The control and address pins between the commands of a session: Outputs, all three controls high (rule R28). -/
def SessionPins (b : Board) (s : State) : Prop :=
  ControlsOutput b s ∧ ControlLatches b s true true true ∧ AddressOutput b s

/-- The data pins between the commands of a session: all `⊥`, all Input or all Output, never mixed; once they have a
direction, every address latch has a level (rule R28). -/
def DataSettled (b : Board) (s : State) : Prop :=
  DataDirection b s none ∨
  ((DataDirection b s (some .input) ∨ DataDirection b s (some .output)) ∧ ∃ ea, AddressHolds b s ea)

/-- A state in which READB, WRITEB and SHUTDOWN are admitted and the session's pins are as rule R28 says. -/
def SessionReady (b : Board) (s : State) : Prop := s.seq = .idle ∧ s.acq = .acquired ∧ SessionPins b s

/-- The direction of data pin `i` when the direction steps for the pins below `n` have run and the others have `d`. -/
def DataTurned (b : Board) (s : State) (n : Nat) (d : PinDir) : Prop :=
  ∃ before : Option PinDir, ∀ i : Fin 8, s.dirOf (b.data.get i) = if i.val < n then some d else before

/-- Inside INIT, `k` steps done (41_lifecycle.md rule R80): control levels before control directions, one direction after
another, and no address level and no data pin touched (rule R83). -/
def InitPoint (b : Board) (k : Nat) (s : State) : Prop :=
  1 ≤ k ∧ k < 24 ∧
  (∀ p ∈ [b.ce, b.oe, b.we], s.latOf p = if 2 ≤ k then some true else none) ∧
  s.dirOf b.ce = (if 3 ≤ k then some .output else none) ∧
  s.dirOf b.oe = (if 4 ≤ k then some .output else none) ∧
  s.dirOf b.we = (if 5 ≤ k then some .output else none) ∧
  (∀ i : Fin 17, s.dirOf (b.addr.get i) = if 6 + i.val ≤ k then some .output else none) ∧
  DataDirection b s none

/-- Inside READB, `k` steps done (44_byte_reader.md rule R110): `CE# = 0` from step 10 to step 21 and `OE# = 0` from step
11 to step 20 (rule R112), the address held from step 1 on, the data pins turned to Input one by one. -/
def ReadPoint (b : Board) (a : HostAddr) (k : Nat) (s : State) : Prop :=
  k < 22 ∧ ControlsOutput b s ∧ AddressOutput b s ∧
  ControlLatches b s (!(decide (11 ≤ k) && decide (k ≤ 21))) (!(decide (12 ≤ k) && decide (k ≤ 20))) true ∧
  (1 ≤ k → AddressRaised b s (effective a)) ∧ (2 ≤ k → AddressHolds b s (effective a)) ∧
  DataTurned b s (k - 2) .input ∧
  s.samples.length = min (k - 12) 8

/-- Inside WRITEB, `k` steps done (43_byte_writer.md rule R100): `CE# = 0` from step 12 to step 15 and `WE# = 0` from step
13 to step 14 (rule R104), the address held from step 1 on, the data from step 11 on (rule R101). -/
def WritePoint (b : Board) (a : HostAddr) (v : Byte) (k : Nat) (s : State) : Prop :=
  k < 16 ∧ ControlsOutput b s ∧ AddressOutput b s ∧
  ControlLatches b s (!(decide (13 ≤ k) && decide (k ≤ 15))) true (!decide (k = 14)) ∧
  (1 ≤ k → AddressRaised b s (effective a)) ∧ (2 ≤ k → AddressHolds b s (effective a)) ∧
  DataTurned b s (k - 2) .output ∧
  (11 ≤ k → DataRaised b s v) ∧ (12 ≤ k → DataHolds b s v)

/-- What holds at every point of every admitted run. Released: no pin has a value, and at most the first step of INIT is
due. Acquired: rule R28 between commands, and the points above inside one. -/
def RunPoint (b : Board) (s : State) : Prop :=
  match s.acq, s.seq with
  | .released, .idle                 => PinsUnset s
  | .released, .busy .init k         => k = 0 ∧ PinsUnset s
  | .released, .busy _ _             => False
  | .acquired, .idle                 => SessionPins b s ∧ DataSettled b s
  | .acquired, .busy .init k         => InitPoint b k s
  | .acquired, .busy .shutdown k     => k = 0 ∧ SessionPins b s ∧ DataSettled b s
  | .acquired, .busy (.readb a) k    => ReadPoint b a k s
  | .acquired, .busy (.writeb a v) k => WritePoint b a v k s

/-- No control line is driven low unless CE is, and WE and OE are never both low (70_reset_and_hazards.md rule R148 (a) to
(c)). -/
def StrobesNested (b : Board) (s : State) : Prop :=
  (drive s b.we = .level false → drive s b.ce = .level false) ∧
  (drive s b.oe = .level false → drive s b.ce = .level false) ∧
  ¬ (drive s b.we = .level false ∧ drive s b.oe = .level false)

/-- While `OE# = 0` every data pin is an Input (rule R147). -/
def NoContention (b : Board) (s : State) : Prop :=
  drive s b.oe = .level false → DataDirection b s (some .input)

/-- The 24 events of a successful INIT, in order (41_lifecycle.md rule R80). -/
def initEvents (b : Board) : List Event :=
  List.append [Event.opened true, Event.setHigh (ctrlAll b), Event.dir b.ce .output, Event.dir b.oe .output,
    Event.dir b.we .output]
  (List.append (b.addr.toList.map fun p => Event.dir p .output)
    [Event.notified .registerTeardown, Event.notified .registerBackend])

/-- The 16 events of a WRITEB, in order (43_byte_writer.md rule R100): first those up to the data levels, then the
strobe. -/
def writebPrepare (b : Board) (a : HostAddr) (v : Byte) : List Event :=
  List.append [Event.setHigh (addrSet b a), Event.setLow (addrClr b a)]
  (List.append (b.data.toList.map fun p => Event.dir p .output)
    [Event.setHigh (dataSet b v), Event.setLow (dataClr b v)])

/-- The write strobe (rule R104). -/
def writebStrobe (b : Board) : List Event :=
  [Event.pinLow b.ce, Event.pinLow b.we, Event.pinHigh b.we, Event.pinHigh b.ce]

/-- The 22 events of a READB that samples the given levels, in order (44_byte_reader.md rule R110): first those before the
window, then the window. -/
def readbPrepare (b : Board) (a : HostAddr) : List Event :=
  List.append [Event.setHigh (addrSet b a), Event.setLow (addrClr b a)]
    (b.data.toList.map fun p => Event.dir p .input)

/-- The read window with its eight samples, `DATA_PINS[0]` first (rule R112). -/
def readbWindowEvents (b : Board) (levels : List Bool) : List Event :=
  List.append [Event.pinLow b.ce, Event.pinLow b.oe]
  (List.append (List.zipWith Event.sample b.data.toList levels) [Event.pinHigh b.oe, Event.pinHigh b.ce])

/-- The ownership state a command needs (60_exceptions.md rule R126). -/
def needs : Instr → Ownership
  | .init       => .released
  | .shutdown   => .acquired
  | .readb _    => .acquired
  | .writeb _ _ => .acquired

/-- How many steps a command accepted in `s` takes (70_reset_and_hazards.md rules R160 and R161): 24 or 1, 1, 22, 16. -/
def stepCount (w : World) (s : State) : Instr → Nat
  | .init       => if w.openOk s.trace.length then 24 else 1
  | .shutdown   => 1
  | .readb _    => 22
  | .writeb _ _ => 16

/-- `n` machine steps, stopping at the first fault or refusal. -/
def runSteps : Nat → State → Result
  | 0, s     => .next s
  | n + 1, s => andThen (step s) (runSteps n)

end Sys2Proof.Machine
end

