-- ==== Sys2Proof/Certificates/Slice0/Obligations.lean ====
section
/-! DEFINITION. The statements for the provers, from the numbered rules of spec/. -/

open Sys2Proof Sys2Proof.Machine

/-! ### The command word -/

/-- Words written out bit by bit in 95_test_vectors.md 2.1 decode to the commands they stand for, canonical or not. -/
def Obligations.CommandWordsOfTheSpec : Prop :=
  decode 0x00000000000#42 = .init ∧ decode 0x10000000000#42 = .shutdown ∧
  decode 0x20000000001#42 = .readb 1#32 ∧ decode 0x200FFFF5555#42 = .readb 0xFFFF5555#32 ∧
  decode 0x3A500020001#42 = .writeb 0x20001#32 0xA5#8 ∧ decode 0x3FFFFFFFFFF#42 = .writeb 0xFFFFFFFF#32 0xFF#8 ∧
  decode 0x0FF12345678#42 = .init ∧ decode 0x1A5FFFFFFFF#42 = .shutdown ∧ decode 0x2FF00000001#42 = .readb 1#32

/-- 30_encoding.md rule R64: decoding is total and direct, the canonical words are the ones given, decoding a command's
word gives the command back, and encoding a decoded word gives the word back exactly when the word is canonical. -/
def Obligations.CommandWordRoundTrip : Prop :=
  (∀ w : Word,
    (w.extractLsb' 40 2 = 0#2 → decode w = .init) ∧
    (w.extractLsb' 40 2 = 1#2 → decode w = .shutdown) ∧
    (w.extractLsb' 40 2 = 2#2 → decode w = .readb (w.extractLsb' 0 32)) ∧
    (w.extractLsb' 40 2 = 3#2 → decode w = .writeb (w.extractLsb' 0 32) (w.extractLsb' 32 8))) ∧
  (encode .init = 0x00000000000#42 ∧ encode .shutdown = 0x10000000000#42 ∧
    (∀ a, encode (.readb a) = 0x20000000000#42 ||| a.zeroExtend 42) ∧
    ∀ a v, encode (.writeb a v) = 0x30000000000#42 ||| (v.zeroExtend 42 <<< 32) ||| a.zeroExtend 42) ∧
  (∀ c : Instr, c.WellFormed = true → decode (encode c) = c) ∧
  ∀ w : Word, encode (decode w) = w ↔ w.Canonical

/-- 30_encoding.md rule R54: every word decodes to a command that is well formed, and the decoded command depends on the
fields that the command uses and on no other. -/
def Obligations.UnusedFieldsIgnored : Prop :=
  (∀ w : Word, (decode w).WellFormed = true) ∧
  ∀ w w' : Word, w.extractLsb' 40 2 = w'.extractLsb' 40 2 →
    (w.extractLsb' 40 2 = 0#2 ∨ w.extractLsb' 40 2 = 1#2 → decode w = decode w') ∧
    (w.extractLsb' 40 2 = 2#2 → w.extractLsb' 0 32 = w'.extractLsb' 0 32 → decode w = decode w')

/-! ### Pin masks -/

/-- 30_encoding.md rule R58: which pins the set and the clear mask of an address name, that they part ADDR_ALL, that they
depend on the effective address alone, that set masks and effective addresses correspond one to one, and the source's
worked example on the default map. -/
def Obligations.AddressGroups : Prop :=
  (∀ b : Board, b.Wf → ∀ a : HostAddr,
    (∀ p, maskHas (addrSet b a) p = true ↔ ∃ i : Fin 17, b.addr.get i = p ∧ (effective a).getLsbD i.val = true) ∧
    (∀ p, maskHas (addrClr b a) p = true ↔ ∃ i : Fin 17, b.addr.get i = p ∧ (effective a).getLsbD i.val = false) ∧
    addrSet b a &&& addrClr b a = 0#32 ∧ addrSet b a ||| addrClr b a = addrAll b ∧
    addrClr b a = addrAll b &&& ~~~(addrSet b a) ∧
    (∀ a', effective a = effective a' → addrSet b a = addrSet b a' ∧ addrClr b a = addrClr b a') ∧
    (∀ a', addrSet b a = addrSet b a' → effective a = effective a') ∧
    ∀ m, m &&& addrAll b = m → ∃ a', addrSet b a' = m) ∧
  addrSet Config.board 1#32 = 0x00000020#32 ∧ addrClr Config.board 1#32 = 0x0BC68E9D#32

/-- 30_encoding.md rule R59: which pins the set and the clear mask of a byte name, that they part DATA_ALL, that the byte
assembled from eight levels has level `i` as its bit `i`, and the source's worked example on the default map. -/
def Obligations.DataGroups : Prop :=
  (∀ b : Board, b.Wf → ∀ v : Byte,
    (∀ p, maskHas (dataSet b v) p = true ↔ ∃ i : Fin 8, b.data.get i = p ∧ v.getLsbD i.val = true) ∧
    (∀ p, maskHas (dataClr b v) p = true ↔ ∃ i : Fin 8, b.data.get i = p ∧ v.getLsbD i.val = false) ∧
    dataSet b v &&& dataClr b v = 0#32 ∧ dataSet b v ||| dataClr b v = dataAll b) ∧
  (∀ l : List Bool, l.length = 8 → ∀ i : Fin 8, l[i.val]? = some ((byteOfSamples l).getLsbD i.val)) ∧
  dataSet Config.board 0x01#8 = 0x00000040#32 ∧ dataClr Config.board 0x01#8 = 0x04393000#32

/-- 30_encoding.md rule R62 and 92_eei_decisions.md D24: the machine's 28 pin ids are pairwise distinct, its address and
data pins are the default, and its control pins may be any that keep the map well formed. -/
def Obligations.BoardIsAnyWellFormedDefault : Prop :=
  Config.board.Wf ∧ Config.board.addr = Config.addrPins ∧ Config.board.data = Config.dataPins ∧
  ∀ b : Board, b.Wf → b.addr = Config.addrPins → b.data = Config.dataPins → ∃ i j k, b = Board.ofChoices i j k

/-- 70_reset_and_hazards.md rule R153: the decidable check on a written PinAssignment accepts exactly the written forms of
the maps whose 28 ids are pairwise distinct and below MASK_W. -/
def Obligations.PinAssignmentCheck : Prop :=
  ∀ p : PinAssignment, p.WellFormed = true ↔ ∃ b : Board, b.Wf ∧ b.written = p

/-! ### Primitives -/

/-- 10_state.md rules R11 and R12, and 40_pin_primitives.md rule R75: only `setPinDirection(p, d)` and `close()` change
`dir[p]`, only a level primitive that names `p`, or `close()`, changes `lat[p]`, and `close()` leaves both `⊥`. -/
def Obligations.OnlyTheirPrimitivesWritePins : Prop :=
  ∀ (w : World) (m : Prim) (s t : State), perform w m s = .next t → ∀ p,
    (t.dirOf p ≠ s.dirOf p → m = .close ∨ ∃ d, m = .setPinDirection p d ∧ t.dirOf p = some d) ∧
    (t.latOf p ≠ s.latOf p → m = .close ∨
      (t.latOf p = some true ∧ (m = .setPinHigh p ∨ ∃ k, m = .setPinsHigh k ∧ maskHas k p = true)) ∨
      (t.latOf p = some false ∧ (m = .setPinLow p ∨ ∃ k, m = .setPinsLow k ∧ maskHas k p = true))) ∧
    (m = .close → t.dirOf p = none ∧ t.latOf p = none)

/-- 40_pin_primitives.md rules R68 and R69: a bulk operation writes every latch of its mask in one step with one event and
leaves every other latch and every direction alone, whatever the directions are. -/
def Obligations.BulkOperationsWriteTheirMask : Prop :=
  ∀ (w : World) (m : Mask) (s t : State),
    (perform w (.setPinsHigh m) s = .next t → t.trace = s.trace ++ [.setHigh m] ∧ t.dir = s.dir ∧
      ∀ p, t.latOf p = if maskHas m p then some true else s.latOf p) ∧
    (perform w (.setPinsLow m) s = .next t → t.trace = s.trace ++ [.setLow m] ∧ t.dir = s.dir ∧
      ∀ p, t.latOf p = if maskHas m p then some false else s.latOf p)

/-- 10_state.md rule R14: the line of a pin by its direction, the chip's bit on a data pin while the chip drives and a draw
on any other Input; a bus has a value exactly when no term is `⊥`, and bit `i` of it is the level of line `i` where that
line has one; and no primitive completes into a state in which the chip drives while a data pin is an Output. -/
def Obligations.LinesAndBuses : Prop :=
  ∀ (w : World) (s : State), w.board.Wf →
    (∀ p, (s.dirOf p = some .output → line w s p = match s.latOf p with | some b => .level b | none => .unset) ∧
      (s.dirOf p = none → line w s p = .unset) ∧
      (s.dirOf p = some .input → chipDrives w.board s = false → line w s p = .draw) ∧
      (s.dirOf p = some .input → (∀ i : Fin 8, w.board.data.get i ≠ p) → line w s p = .draw)) ∧
    (∀ i : Fin 8, s.dirOf (w.board.data.get i) = some .input → chipDrives w.board s = true → s.chip = .echo →
      line w s (w.board.data.get i) = match Memory.read s.mem (chipAddress w s).toNat with
        | some v => .level (v.getLsbD i.val)
        | none   => .draw) ∧
    ((aBus w s = none ↔ ∃ i : Fin 17, line w s (w.board.addr.get i) = .unset) ∧
      ∀ v, aBus w s = some v → v < 2 ^ 17 ∧ (AddressOutput w.board s → v = (chipAddress w s).toNat) ∧
        ∀ (i : Fin 17) (b : Bool), line w s (w.board.addr.get i) = .level b → v.testBit i.val = b) ∧
    ((dBus w s = none ↔ ∃ i : Fin 8, line w s (w.board.data.get i) = .unset) ∧
      ∀ v, dBus w s = some v → v < 2 ^ 8 ∧
        ∀ (i : Fin 8) (b : Bool), line w s (w.board.data.get i) = .level b → v.testBit i.val = b) ∧
    ∀ (m : Prim) (t : State), perform w m s = .next t →
      ¬ (drive t w.board.ce = .level false ∧ drive t w.board.oe = .level false ∧
        ∃ i : Fin 8, t.dirOf (w.board.data.get i) = some .output)

/-- 10_state.md rule R14 after a READB: from the pins of a session the data bus then has a value, a draw that the block does
not fix, and so has it at every point inside the read window. -/
def Obligations.ReadBusesDefined : Prop :=
  (∀ (a : HostAddr) (s : State), SessionReady Config.board s →
    ∃ t, exec (.readb a) s = .next t ∧ aBus Config.world t = some (effective a).toNat ∧
      (∃ v, dBus Config.world t = some v ∧ v < 2 ^ 8) ∧
      ∀ i : Fin 8, line Config.world t (Config.board.data.get i) = .draw) ∧
  ∀ (a : HostAddr) (k : Nat) (s : State), RunPoint Config.board s → s.acq = .acquired → s.seq = .busy (.readb a) k →
    10 ≤ k → aBus Config.world s = some (effective a).toNat ∧
      ∃ v, dBus Config.world s = some v ∧ v < 2 ^ 8 ∧
        (12 ≤ k → k ≤ 20 → s.chip = .echo → ∀ x : Byte, Memory.read s.mem (effective a).toNat = some x → v = x.toNat)

/-- 40_pin_primitives.md rule R72 and 93_implementation_defined.md U7, with the peripheral held and no bus contention:
`readPinLevel` of a pin that is not an Input is refused; of an Input it answers the level of the line, or a draw where the
line has none, records it, and changes nothing else. -/
def Obligations.ReadPinLevelAnswersTheLine : Prop :=
  ∀ (w : World) (p : Pin) (s : State), s.acq = .acquired → contended w.board s = false →
    (s.dirOf p ≠ some .input → perform w (.readPinLevel p) s = .refused .pinNotInput) ∧
    (s.dirOf p = some .input → ∃ b,
      perform w (.readPinLevel p) s =
        .next { s with trace := s.trace ++ [.sample p b], samples := s.samples ++ [b] } ∧
      (∀ l, line w s p = .level l → b = l) ∧ (line w s p = .draw → b = w.ext s.trace.length p))

/-- 40_pin_primitives.md rule R65 (c): the seven pin operations other than `open()` are refused while the peripheral is
Released. -/
def Obligations.PinOperationsNeedThePeripheral : Prop :=
  ∀ (w : World) (s : State), s.acq = .released → ∀ m ∈ ([.close] : List Prim) ++
      (List.finRange 32).flatMap (fun p => [.setPinDirection p .output, .setPinDirection p .input, .setPinHigh p,
        .setPinLow p, .readPinLevel p]), perform w m s = .refused .peripheralNotHeld ∧
    ∀ k, perform w (.setPinsHigh k) s = .refused .peripheralNotHeld ∧
      perform w (.setPinsLow k) s = .refused .peripheralNotHeld

/-! ### The Address Encoder -/

/-- 42_address_encoder.md rule R91: after ENCADDR every address latch holds its bit of the effective address, whatever the
latches held before, and decoding the latches bit by bit gives the effective address; every address pin is in exactly one
of the two masks. -/
def Obligations.EncoderRoundTrip : Prop :=
  ∀ a : HostAddr,
    (∀ i : Fin 17, maskHas (addrSet Config.board a) (Config.board.addr.get i) =
      !maskHas (addrClr Config.board a) (Config.board.addr.get i)) ∧
    ∀ s t : State, performAll Config.world (encAddr Config.board a) s = .next t →
      (∀ i : Fin 17, t.latOf (Config.board.addr.get i) = some ((effective a).getLsbD i.val)) ∧
      (Config.board.addr.toList.mapM t.latOf).map valueOfLevels = some (effective a).toNat

/-- 42_address_encoder.md rule R92: between the two steps of ENCADDR the address latches hold `old | ea`, with a bit that
was `⊥` at 1 where `ea` has a 1 and at `⊥` elsewhere; inside a session the chip sees that value on `A_bus`; after the second
step they hold `ea`; and the transient differs from both exactly when one bit must rise and another fall. -/
def Obligations.AddressTransient : Prop :=
  ∀ (a : HostAddr) (s t : State), perform Config.world (.setPinsHigh (addrSet Config.board a)) s = .next t →
    (∀ i : Fin 17, t.latOf (Config.board.addr.get i) =
      if (effective a).getLsbD i.val then some true else s.latOf (Config.board.addr.get i)) ∧
    (∀ old : EffAddr, AddressHolds Config.board s old →
      AddressHolds Config.board t (old ||| effective a) ∧
      (AddressOutput Config.board s → aBus Config.world t = some (old ||| effective a).toNat) ∧
      ((old ||| effective a ≠ old ∧ old ||| effective a ≠ effective a) ↔
        (∃ i : Fin 17, old.getLsbD i.val = true ∧ (effective a).getLsbD i.val = false) ∧
        ∃ i : Fin 17, old.getLsbD i.val = false ∧ (effective a).getLsbD i.val = true)) ∧
    ∀ u, perform Config.world (.setPinsLow (addrClr Config.board a)) t = .next u →
      AddressHolds Config.board u (effective a)

/-- 42_address_encoder.md rule R94: ENCADDR changes address latches only, and no step of READB or WRITEB after ENCADDR's
two changes one. -/
def Obligations.DataPhaseLeavesAddressPins : Prop :=
  (∀ (a : HostAddr) (s t : State), performAll Config.world (encAddr Config.board a) s = .next t →
    t.dir = s.dir ∧ ∀ p, (∀ i : Fin 17, Config.board.addr.get i ≠ p) → t.latOf p = s.latOf p) ∧
  ∀ (s t : State) (c : Instr) (k : Nat), s.seq = .busy c k → c ≠ .init → c ≠ .shutdown → 2 ≤ k → step s = .next t →
    ∀ i : Fin 17, t.latOf (Config.board.addr.get i) = s.latOf (Config.board.addr.get i)

/-! ### INIT and SHUTDOWN -/

/-- 41_lifecycle.md rule R80: INIT's encoding, its refusal where it is not admitted, and its completion from every state in
which it is. When `open()` succeeds its 24 events in order, the ownership, the answer and every pin; when it fails only the
one event and the answer. The chip and its memory are unchanged. -/
def Obligations.InitCompletes : Prop :=
  (∀ w : Word, w.extractLsb' 40 2 = 0#2 → decode w = .init) ∧ encode .init = 0x00000000000#42 ∧
  (∀ s : State, ¬ (s.seq = .idle ∧ s.acq = .released) → ∃ r, exec .init s = .refused r) ∧
  ∀ s : State, s.seq = .idle → s.acq = .released → PinsUnset s →
    ∃ t, exec .init s = .next t ∧ t.seq = .idle ∧ t.chip = s.chip ∧
      (∀ x, Memory.read t.mem x = Memory.read s.mem x) ∧
      (Config.openOk s.trace.length = true →
        t.acq = .acquired ∧ t.answers = s.answers ++ [.ok] ∧
        t.trace = s.trace ++ initEvents Config.board ∧ (initEvents Config.board).length = 24 ∧
        (∀ p, t.dirOf p = if p ∈ [Config.board.ce, Config.board.oe, Config.board.we] ++ Config.board.addr.toList
          then some .output else s.dirOf p) ∧
        ∀ p, t.latOf p = if p ∈ [Config.board.ce, Config.board.oe, Config.board.we] then some true else s.latOf p) ∧
      (Config.openOk s.trace.length = false →
        t.acq = .released ∧ t.answers = s.answers ++ [.initError] ∧ t.trace = s.trace ++ [.opened false] ∧
        ∀ p, t.dirOf p = s.dirOf p ∧ t.latOf p = s.latOf p)

/-- 60_exceptions.md rule R124: INIT of the machine is INIT in the machine's world, and in every world in which `open()`
fails INIT gains the one event `Open(false)`, the host receives InitError, and nothing else of the spec's state changes. -/
def Obligations.InitErrorChangesNothing : Prop :=
  (∀ s : State, exec .init s = initIn Config.world s) ∧
  ∀ (w : World) (s : State), s.seq = .idle → s.acq = .released → PinsUnset s → w.openOk s.trace.length = false →
    ∃ t, initIn w s = .next t ∧ t.trace = s.trace ++ [.opened false] ∧ t.answers = s.answers ++ [.initError] ∧
      t.seq = .idle ∧ t.acq = .released ∧ t.dir = s.dir ∧ t.lat = s.lat ∧ t.chip = s.chip ∧ t.mem = s.mem

/-- 41_lifecycle.md rules R80 and R83: in every world in which `open()` succeeds, INIT opens a session: its 24 events, the
pins of a session, no direction on a data pin, no level on an address pin, and no value on either bus. -/
def Obligations.InitOpensASession : Prop :=
  ∀ (w : World) (s : State), w.board.Wf → s.seq = .idle → s.acq = .released → PinsUnset s →
    w.openOk s.trace.length = true →
    ∃ t, initIn w s = .next t ∧ t.trace = s.trace ++ initEvents w.board ∧ (initEvents w.board).length = 24 ∧
      t.answers = s.answers ++ [.ok] ∧ SessionReady w.board t ∧ DataDirection w.board t none ∧
      (∀ i : Fin 17, t.latOf (w.board.addr.get i) = none) ∧ aBus w t = none ∧ dBus w t = none

/-- 41_lifecycle.md rule R84: at no point of INIT is a control line driven low, and a control pin is an Output only once
its latch is high. -/
def Obligations.InitDrivesNoControlLow : Prop :=
  ∀ (w : World) (s t : State) (k : Nat), w.board.Wf → s.seq = .idle → s.acq = .released → PinsUnset s →
    performAll w ((initSteps w.board).take k) (accept .init s) = .next t →
    ∀ c ∈ [w.board.ce, w.board.oe, w.board.we],
      drive t c ≠ .level false ∧ (t.dirOf c = some .output → t.latOf c = some true)

/-- 41_lifecycle.md rule R81: SHUTDOWN's encoding, its refusal where it is not admitted, and its completion from every
state in which it is. Its one event is `Close`, the peripheral is Released, every `dir` and `lat` is `⊥`, it answers
nothing, and the chip and its memory are unchanged. -/
def Obligations.ShutdownCompletes : Prop :=
  (∀ w : Word, w.extractLsb' 40 2 = 1#2 → decode w = .shutdown) ∧ encode .shutdown = 0x10000000000#42 ∧
  (∀ s : State, ¬ (s.seq = .idle ∧ s.acq = .acquired) → ∃ r, exec .shutdown s = .refused r) ∧
  ∀ s : State, s.seq = .idle → s.acq = .acquired →
    ∃ t, exec .shutdown s = .next t ∧
      t.acq = .released ∧ (∀ p, t.dirOf p = none ∧ t.latOf p = none) ∧ t.seq = .idle ∧
      t.trace = s.trace ++ [.closed] ∧ t.answers = s.answers ++ [.nothing] ∧ t.chip = s.chip ∧
      ∀ x, Memory.read t.mem x = Memory.read s.mem x

/-! ### WRITEB and READB -/

/-- 43_byte_writer.md rule R100: WRITEB's encoding, its refusal where it is not admitted, and its completion from the pins
of a session. Its 16 events in order, the post-state of every pin, the byte stored at the effective address and at no
other, no value answered, and everything else unchanged. -/
def Obligations.WritebCompletes : Prop :=
  (∀ w : Word, w.extractLsb' 40 2 = 3#2 → decode w = .writeb (w.extractLsb' 0 32) (w.extractLsb' 32 8)) ∧
  (∀ a v, encode (.writeb a v) = 0x30000000000#42 ||| (v.zeroExtend 42 <<< 32) ||| a.zeroExtend 42) ∧
  (∀ a v (s : State), ¬ (s.seq = .idle ∧ s.acq = .acquired) → ∃ r, exec (.writeb a v) s = .refused r) ∧
  ∀ (a : HostAddr) (v : Byte) (s : State), SessionReady Config.board s →
    ∃ t, exec (.writeb a v) s = .next t ∧
      t.trace = s.trace ++ (writebPrepare Config.board a v ++ writebStrobe Config.board) ∧
      AddressHolds Config.board t (effective a) ∧ DataHolds Config.board t v ∧
      ControlLatches Config.board t true true true ∧
      (∀ p, p ∉ Config.board.pins → t.latOf p = s.latOf p) ∧
      (∀ p, t.dirOf p = if p ∈ Config.board.data.toList then some .output else s.dirOf p) ∧
      (∀ x, Memory.read t.mem x = if x = (effective a).toNat then some v else Memory.read s.mem x) ∧
      t.answers = s.answers ++ [.nothing] ∧ t.seq = .idle ∧ t.acq = s.acq ∧ t.chip = s.chip

/-- 44_byte_reader.md rule R110: READB's encoding, its refusal where it is not admitted, and its completion from the pins
of a session. Its 22 events in order, the byte answered from the eight sampled levels, the post-state of every pin, and
everything else, the chip's memory included, unchanged. Where the echo chip holds a byte at the effective address, level
`i` is its bit `i`; elsewhere the levels are draws and nothing is said of them. -/
def Obligations.ReadbCompletes : Prop :=
  (∀ w : Word, w.extractLsb' 40 2 = 2#2 → decode w = .readb (w.extractLsb' 0 32)) ∧
  (∀ a, encode (.readb a) = 0x20000000000#42 ||| a.zeroExtend 42) ∧
  (∀ a (s : State), ¬ (s.seq = .idle ∧ s.acq = .acquired) → ∃ r, exec (.readb a) s = .refused r) ∧
  ∀ (a : HostAddr) (s : State), SessionReady Config.board s →
    ∃ t levels, exec (.readb a) s = .next t ∧ levels.length = 8 ∧
      (s.chip = .echo → ∀ v, Memory.read s.mem (effective a).toNat = some v →
        ∀ i : Fin 8, levels[i.val]? = some (v.getLsbD i.val)) ∧
      t.trace = s.trace ++ (readbPrepare Config.board a ++ readbWindowEvents Config.board levels) ∧
      t.answers = s.answers ++ [.byte (byteOfSamples levels)] ∧
      (∀ i : Fin 8, levels[i.val]? = some ((byteOfSamples levels).getLsbD i.val)) ∧
      AddressHolds Config.board t (effective a) ∧ ControlLatches Config.board t true true true ∧
      (∀ p, p ∉ [Config.board.ce, Config.board.oe] ++ Config.board.addr.toList → t.latOf p = s.latOf p) ∧
      (∀ p, t.dirOf p = if p ∈ Config.board.data.toList then some .input else s.dirOf p) ∧
      (∀ x, Memory.read t.mem x = Memory.read s.mem x) ∧
      t.seq = .idle ∧ t.acq = s.acq ∧ t.chip = s.chip

/-- The frame on the fields that are the model's own (log entries 3, 4 and 6): a command leaves no sample behind, no pending
command changes, and the chip stays the chip it is. -/
def Obligations.CommandsLeaveOwnFields : Prop :=
  ∀ (i : Instr) (s t : State), exec i s = .next t → t.samples = [] ∧ t.pending = s.pending ∧ t.chip = s.chip

/-- 20_memory.md rule R46: with the echo chip, WRITEB of `v` followed by READB of the same effective address answers
`v`. -/
def Obligations.ReadAfterWrite : Prop :=
  ∀ (a a' : HostAddr) (v : Byte) (s : State), SessionReady Config.board s → s.chip = .echo → effective a = effective a' →
    ∃ t u, exec (.writeb a v) s = .next t ∧ exec (.readb a') t = .next u ∧
      u.answers = s.answers ++ [.nothing, .byte v]

/-- 20_memory.md rule R31: the effective address is the address modulo 2^17, two addresses with the same one are the same
address to both commands in every state, no command faults, and the space wraps. -/
def Obligations.UpperAddressBitsIgnored : Prop :=
  (∀ a : HostAddr, (effective a).toNat = a.toNat % 2 ^ 17) ∧
  (effective 0x1FFFF#32).toNat + 1 = 0x20000 ∧ effective 0x20000#32 = 0#17 ∧
  (∀ (i : Instr) (s : State) (r : Fault), exec i s ≠ .fault r) ∧
  ∀ (a a' : HostAddr) (v : Byte) (s : State), effective a = effective a' →
    exec (.writeb a v) s = exec (.writeb a' v) s ∧ exec (.readb a) s = exec (.readb a') s

/-- The source's direction property (10_state.md rule R25, 95_test_vectors.md S3), from every state: after READB all eight
data pins are Inputs, after WRITEB all eight are Outputs. -/
def Obligations.DirectionAfterCommand : Prop :=
  (∀ (a : HostAddr) (s t : State), exec (.readb a) s = .next t → DataDirection Config.board t (some .input)) ∧
  ∀ (a : HostAddr) (v : Byte) (s t : State), exec (.writeb a v) s = .next t →
    DataDirection Config.board t (some .output)

/-- 43_byte_writer.md rules R102 and R103, and 70_reset_and_hazards.md rule R150: when the data pins of a WRITEB have all
become Outputs they drive the previous latch contents, then `oldD | v`, then `v`; where the latches were never written the
bus has no value before both data steps. -/
def Obligations.StaleDriveAndDataTransient : Prop :=
  ∀ (a : HostAddr) (v : Byte) (s t u : State), RunPoint Config.board s → s.acq = .acquired →
    s.seq = .busy (.writeb a v) 10 → step s = .next t → step t = .next u →
    (∀ old : Byte, DataHolds Config.board s old →
      dBus Config.world s = some old.toNat ∧ dBus Config.world t = some (old ||| v).toNat) ∧
    ((∀ i : Fin 8, s.latOf (Config.board.data.get i) = none) →
      dBus Config.world s = none ∧
      ∀ i : Fin 8, t.latOf (Config.board.data.get i) = if v.getLsbD i.val then some true else none) ∧
    dBus Config.world u = some v.toNat

/-- 43_byte_writer.md rule R101: at every point of WRITEB from after its data levels are applied, and when it has ended, the
chip sees the effective address on `A_bus` and the byte on `D_bus`. -/
def Obligations.WriteBusesStable : Prop :=
  (∀ (a : HostAddr) (v : Byte) (k : Nat) (s : State), RunPoint Config.board s → s.acq = .acquired →
    s.seq = .busy (.writeb a v) k → 12 ≤ k →
    aBus Config.world s = some (effective a).toNat ∧ dBus Config.world s = some v.toNat) ∧
  ∀ (a : HostAddr) (v : Byte) (s : State), SessionReady Config.board s →
    ∃ t, exec (.writeb a v) s = .next t ∧
      aBus Config.world t = some (effective a).toNat ∧ dBus Config.world t = some v.toNat

/-- 43_byte_writer.md rule R104: the four strobe events of a WRITEB are its last four, in their order, and no event before
them is a single-pin level event; `WE#` is low exactly between steps 13 and 14, `CE#` exactly between steps 12 and 15, and
`OE#` is high throughout. -/
def Obligations.WritePulseNested : Prop :=
  (∀ (a : HostAddr) (v : Byte) (s t : State), exec (.writeb a v) s = .next t →
    ∃ pre : List Event, t.trace = s.trace ++ (pre ++ [Event.pinLow Config.board.ce, Event.pinLow Config.board.we,
        Event.pinHigh Config.board.we, Event.pinHigh Config.board.ce]) ∧
      ∀ p, Event.pinLow p ∉ pre ∧ Event.pinHigh p ∉ pre) ∧
  ∀ (a : HostAddr) (v : Byte) (k : Nat) (s : State), RunPoint Config.board s → s.acq = .acquired →
    s.seq = .busy (.writeb a v) k →
    (drive s Config.board.we = .level false ↔ k = 14) ∧
    (drive s Config.board.ce = .level false ↔ 13 ≤ k ∧ k ≤ 15) ∧
    drive s Config.board.oe = .level true

/-- 44_byte_reader.md rule R112: the last twelve events of a READB are the window, the eight samples inside it in order, and
no event before them is a single-pin level event or a sample; `OE#` is low exactly between steps 11 and 20, `CE#` exactly
between steps 10 and 21, and `WE#` is high throughout. -/
def Obligations.ReadWindowNested : Prop :=
  (∀ (a : HostAddr) (s t : State), exec (.readb a) s = .next t →
    ∃ (pre : List Event) (levels : List Bool), levels.length = 8 ∧
      t.trace = s.trace ++ (pre ++ List.append [Event.pinLow Config.board.ce, Event.pinLow Config.board.oe]
        (List.append (List.zipWith Event.sample Config.board.data.toList levels)
          [Event.pinHigh Config.board.oe, Event.pinHigh Config.board.ce])) ∧
      ∀ p, Event.pinLow p ∉ pre ∧ Event.pinHigh p ∉ pre ∧ ∀ b, Event.sample p b ∉ pre) ∧
  ∀ (a : HostAddr) (k : Nat) (s : State), RunPoint Config.board s → s.acq = .acquired → s.seq = .busy (.readb a) k →
    (drive s Config.board.oe = .level false ↔ 12 ≤ k ∧ k ≤ 20) ∧
    (drive s Config.board.ce = .level false ↔ 11 ≤ k ∧ k ≤ 21) ∧
    drive s Config.board.we = .level true

/-- 10_state.md rule R19: no command reads `dir` or `lat` to decide what to do. From any two session states that agree on
the chip, its memory and the moment, whatever their data pins, address latches and other pins hold, READB and WRITEB gain
the same events and answers. -/
def Obligations.CommandsIgnorePinHistory : Prop :=
  ∀ (i : Instr) (s s' : State), (∃ a, i = .readb a) ∨ (∃ a v, i = .writeb a v) →
    SessionReady Config.board s → SessionReady Config.board s' → s.chip = s'.chip → s.mem = s'.mem →
    s.trace.length = s'.trace.length →
    ∃ t t' ev ans, exec i s = .next t ∧ exec i s' = .next t' ∧
      t.trace = s.trace ++ ev ∧ t'.trace = s'.trace ++ ev ∧ t.answers = s.answers ++ [ans] ∧ t'.answers = s'.answers ++ [ans]

/-! ### Admission, answers, steps -/

/-- 60_exceptions.md rule R126, the table and the two transitions: what is refused and by which name, what is admitted and
completes at the points of a run, that ownership changes only with the event of a successful `open()` or of a `close()`,
and that no pin has a value while Released. -/
def Obligations.AdmissionTable : Prop :=
  (∀ (i : Instr) (s : State), s.seq ≠ .idle → exec i s = .refused .commandInProgress) ∧
  (∀ (i : Instr) (s : State), s.seq = .idle → s.acq = .released → i ≠ .init → exec i s = .refused .sessionNotOpen) ∧
  (∀ s : State, s.seq = .idle → s.acq = .acquired → exec .init s = .refused .sessionAlreadyOpen) ∧
  (∀ (i : Instr) (s : State), RunPoint Config.board s → s.seq = .idle → s.acq = needs i → ∃ t, exec i s = .next t) ∧
  ∀ s t : State, step s = .next t →
    (s.acq = .released → t.acq = .acquired → .opened true ∈ t.trace.drop s.trace.length) ∧
    (s.acq = .acquired → t.acq = .released → .closed ∈ t.trace.drop s.trace.length) ∧
    (RunPoint Config.board s → t.acq = .released → PinsUnset t)

/-- 30_encoding.md rule R55: each command that completes answers exactly once, with an answer of its own kind, and the
answer's word has status 1 only for InitError and the byte of READB, or zero, as its data. -/
def Obligations.OneAnswerEach : Prop :=
  (∀ (i : Instr) (s t : State), exec i s = .next t →
    t.seq = .idle ∧ ∃ ans, t.answers = s.answers ++ [ans] ∧
      match i with
      | .init       => ans = .ok ∨ ans = .initError
      | .shutdown   => ans = .nothing
      | .readb _    => ∃ v, ans = .byte v
      | .writeb _ _ => ans = .nothing) ∧
  ∀ ans : Answer, (ans.word.getLsbD 8 = true ↔ ans = .initError) ∧
    ans.word.truncate 8 = (match ans with | .byte v => v | _ => 0#8)

/-- 70_reset_and_hazards.md rules R160 and R161: a command that completes has appended exactly its fixed number of events:
24 or 1 for INIT, 1 for SHUTDOWN, 22 for READB, 16 for WRITEB. -/
def Obligations.FixedStepCounts : Prop :=
  ∀ (i : Instr) (s t : State), exec i s = .next t →
    ∃ ev, t.trace = s.trace ++ ev ∧ ev.length = stepCount Config.world s i

/-- 10_state.md rule R16: a whole command as one big step and the same command run one sequencer step at a time end alike,
in a next state or in the same stop. -/
def Obligations.BigStepEqualsSmallSteps : Prop :=
  ∀ (i : Instr) (s : State), s.seq = .idle → s.acq = needs i →
    runSteps (stepCount Config.world s i) (accept i s) = exec i s

/-- 70_reset_and_hazards.md rule R152: at every point of a run inside a command its next step is performed and its event
appended, the command ends exactly after its last step or, for INIT, after a failed `open()`, and otherwise its next step
is due; a command accepted at a point of a run runs all its steps; and an Idle point of a session has all controls high. -/
def Obligations.NoCommandAbandoned : Prop :=
  (∀ (s : State) (c : Instr) (k : Nat), RunPoint Config.board s → s.seq = .busy c k →
    ∃ t m, step s = .next t ∧ (commandSteps Config.board c)[k]? = some m ∧
      t.trace = s.trace ++ [eventOf Config.world s m] ∧
      t.seq = if k + 1 = (commandSteps Config.board c).length ∨
        (c = .init ∧ k = 0 ∧ Config.openOk s.trace.length = false) then .idle else .busy c (k + 1)) ∧
  (∀ (i : Instr) (s : State), RunPoint Config.board s → s.seq = .idle → s.acq = needs i →
    ∃ t ev, runSteps (stepCount Config.world s i) (accept i s) = .next t ∧ t.seq = .idle ∧
      t.trace = s.trace ++ ev ∧ ev.length = stepCount Config.world s i) ∧
  ∀ s : State, RunPoint Config.board s → s.seq = .idle → s.acq = .acquired →
    drive s Config.board.ce = .level true ∧ drive s Config.board.oe = .level true ∧ drive s Config.board.we = .level true

/-- A machine step runs the decoded command: with `seq` Idle and a command pending, the step is `exec` of the decoded word
in the state where it is no longer pending; with none pending nothing happens (60_exceptions.md rule R132); inside a command
it is that command's next sequencer step. A word placed by `withFetchWord` is the one that is run. -/
def Obligations.StepRunsTheDecodedCommand : Prop :=
  (∀ (s : State) (w : Word) (rest : List Word), s.seq = .idle → s.pending = w :: rest →
    step s = exec (decode w) { s with pending := rest }) ∧
  (∀ s : State, s.seq = .idle → s.pending = [] → step s = .next s) ∧
  (∀ (s : State) (c : Instr) (k : Nat), s.seq = .busy c k → step s = continueCommand c k s) ∧
  ∀ (s : State) (n w : Nat) (i : Instr), s.seq = .idle → decodeTableWord n w = some i →
    step (s.withFetchWord n w) = exec i { s with pending := s.pending.drop 1 }

/-! ### Reset and invariants -/

/-- 70_reset_and_hazards.md rule R140: the reset state; the same pins and ownership after SHUTDOWN; the pins and ownership
it found after a failed INIT. -/
def Obligations.ResetState : Prop :=
  (State.reset.acq = .released ∧ State.reset.seq = .idle ∧ State.reset.trace = [] ∧
    ∀ p, State.reset.dirOf p = none ∧ State.reset.latOf p = none) ∧
  (∀ s t : State, exec .shutdown s = .next t → t.acq = .released ∧ ∀ p, t.dirOf p = none ∧ t.latOf p = none) ∧
  ∀ (w : World) (s t : State), w.openOk s.trace.length = false → initIn w s = .next t →
    t.acq = s.acq ∧ t.dir = s.dir ∧ t.lat = s.lat

/-- Reset meets the invariants: the memory's canonical form, no pin set while Released, and the points of a run. -/
def Obligations.ResetMeetsInvariants : Prop :=
  Memory.wf State.reset.mem = true ∧ ReleasedPinsUnset State.reset ∧ RunPoint Config.board State.reset ∧
  ∀ p, p ∉ Config.board.pins → State.reset.dirOf p = none ∧ State.reset.latOf p = none

/-- Every step keeps the canonical form of the chip's memory: addresses strictly rising, all below 2^17. -/
def Obligations.StepKeepsMemoryForm : Prop :=
  ∀ s t : State, Memory.wf s.mem = true → step s = .next t → Memory.wf t.mem = true

/-- 10_state.md rule R27: every step keeps "every state with `acq = Released` has all `dir` and `lat` at `⊥`". -/
def Obligations.StepKeepsReleasedPinsUnset : Prop :=
  ∀ s t : State, ReleasedPinsUnset s → step s = .next t → ReleasedPinsUnset t

/-- 10_state.md rule R28, by induction over the commands of a session and over the steps of a command: every step keeps the
points of a run, and so does the acceptance of an admitted command, by which the points inside a command are entered. -/
def Obligations.StepKeepsRunPoint : Prop :=
  (∀ s t : State, RunPoint Config.board s → step s = .next t → RunPoint Config.board t) ∧
  ∀ (i : Instr) (s : State), RunPoint Config.board s → s.seq = .idle → s.acq = needs i →
    RunPoint Config.board (accept i s)

/-- 10_state.md rule R13: every step keeps every pin outside the PinAssignment without direction and level. -/
def Obligations.OtherPinsNeverTouched : Prop :=
  ∀ s t : State, (∀ p, p ∉ Config.board.pins → s.dirOf p = none ∧ s.latOf p = none) → step s = .next t →
    ∀ p, p ∉ Config.board.pins → t.dirOf p = none ∧ t.latOf p = none

/-- 10_state.md rule R17: the trace only grows. That the list of answers only grows is said of a field of the model's own
(log entry 5, DESIGN CHOICE), not by that rule. -/
def Obligations.TraceOnlyGrows : Prop :=
  ∀ s t : State, step s = .next t →
    (∃ ev, t.trace = s.trace ++ ev) ∧ ∃ ans, t.answers = s.answers ++ ans

/-- 70_reset_and_hazards.md rule R147: at every point of a run inside a session, while `OE#` is 0 every data pin is an
Input, and whenever a data pin is an Output `OE#` is 1; so no step of such a run is refused for bus contention. -/
def Obligations.NoContentionInARun : Prop :=
  ∀ s : State, RunPoint Config.board s → s.acq = .acquired →
    (drive s Config.board.oe = .level false → DataDirection Config.board s (some .input)) ∧
    ((∃ i : Fin 8, s.dirOf (Config.board.data.get i) = some .output) → drive s Config.board.oe = .level true) ∧
    step s ≠ .refused .busContention

/-- 70_reset_and_hazards.md rule R148: (a) to (c) the strobes are nested and exclusive; (d) while `CE#` is 0 no step changes
an address latch, a data latch or a data direction; (e) a session command starts and ends with all three controls high. -/
def Obligations.StrobesExclusive : Prop :=
  ∀ s : State, RunPoint Config.board s → s.acq = .acquired →
    (drive s Config.board.we = .level false → drive s Config.board.ce = .level false) ∧
    (drive s Config.board.oe = .level false → drive s Config.board.ce = .level false) ∧
    ¬ (drive s Config.board.we = .level false ∧ drive s Config.board.oe = .level false) ∧
    (drive s Config.board.ce = .level false → ∀ t, step s = .next t →
      (∀ i : Fin 17, t.latOf (Config.board.addr.get i) = s.latOf (Config.board.addr.get i)) ∧
      ∀ i : Fin 8, t.latOf (Config.board.data.get i) = s.latOf (Config.board.data.get i) ∧
        t.dirOf (Config.board.data.get i) = s.dirOf (Config.board.data.get i)) ∧
    ((s.seq = .idle ∨ ∃ c, s.seq = .busy c 0) → drive s Config.board.ce = .level true ∧
      drive s Config.board.oe = .level true ∧ drive s Config.board.we = .level true)

/-- At the points of a run the chip's memory changes only by a WRITEB, only at the effective address, and only to the byte
written (20_memory.md rules R35, R36 and R45); one sequencer step at a time, only at step k = 14. That INIT and SHUTDOWN
store nothing is 10_state.md rule R27 (chip unchanged) and the model's choice for lines without a level (log entry 9,
DESIGN CHOICE). -/
def Obligations.OnlyWritebStores : Prop :=
  ∀ s t : State, RunPoint Config.board s → step s = .next t →
    (∀ x, Memory.read t.mem x = Memory.read s.mem x) ∨
    ∃ a v, (s.seq = .busy (.writeb a v) 14 ∨
        ∃ w rest, s.seq = .idle ∧ s.pending = w :: rest ∧ decode w = .writeb a v) ∧
      ∀ x, Memory.read t.mem x = if x = (effective a).toNat then some v else Memory.read s.mem x
end

