-- ==== Sys2Proof/Laws/Config.lean ====
section
/-! SUPPORT. The machine's PinAssignment is well formed, and nothing else is known of its control pins. -/

namespace Sys2Proof

theorem Board.ofChoices_wf : ∀ i j k, (Board.ofChoices i j k).Wf := by decide +kernel

/-- The machine's 28 pin ids are pairwise distinct. -/
theorem Config.board_wf : Config.board.Wf := Board.ofChoices_wf _ _ _

theorem Config.world_board : Config.world.board = Config.board := rfl

end Sys2Proof
end

