-- ==== Sys2Proof/Laws/Masks.lean ====
section
/-! SUPPORT. Which pins a mask names, the pins of a well-formed PinAssignment, and the bits of a value read back from its
levels. -/

namespace Sys2Proof

/-! ### The pins of a well-formed PinAssignment -/

theorem Vector.get_mem_toList {n : Nat} {α : Type} (v : Vector α n) (i : Fin n) : v.get i ∈ v.toList := by
  simp [Vector.get_eq_getElem]

theorem Vector.exists_get_of_mem {n : Nat} {α : Type} {v : Vector α n} {x : α} (h : x ∈ v.toList) :
    ∃ i, v.get i = x := by
  obtain ⟨j, hj, rfl⟩ := List.getElem_of_mem h
  exact ⟨⟨j, by simpa using hj⟩, by simp [Vector.get_eq_getElem]⟩

theorem Vector.get_inj_of_nodup {n : Nat} {α : Type} {v : Vector α n} (h : v.toList.Nodup) {i j : Fin n}
    (e : v.get i = v.get j) : i = j := by
  have := (List.Nodup.getElem_inj_iff h (i := i.val) (j := j.val) (hi := by simp) (hj := by simp)).1
    (by simpa [Vector.get_eq_getElem] using e)
  exact Fin.ext this

theorem Board.Wf.parts {b : Board} (h : b.Wf) :
    [b.ce, b.oe, b.we].Nodup ∧ b.data.toList.Nodup ∧ b.addr.toList.Nodup ∧
    (∀ c ∈ [b.ce, b.oe, b.we], ∀ i, b.data.get i ≠ c) ∧ (∀ c ∈ [b.ce, b.oe, b.we], ∀ i, b.addr.get i ≠ c) ∧
    ∀ i j, b.addr.get i ≠ b.data.get j := by
  simp only [Board.Wf, Board.pins, List.nodup_append] at h
  obtain ⟨⟨hc, hd, hcd⟩, ha, hca⟩ := h
  refine ⟨hc, hd, ha, fun c m i e => ?_, fun c m i e => ?_, fun i j e => ?_⟩
  · exact hcd c m _ (Vector.get_mem_toList b.data i) e.symm
  · exact hca c (List.mem_append_left _ m) _ (Vector.get_mem_toList b.addr i) e.symm
  · exact hca _ (List.mem_append_right _ (Vector.get_mem_toList b.data j)) _ (Vector.get_mem_toList b.addr i) e.symm

theorem Board.Wf.data_nodup {b : Board} (h : b.Wf) : b.data.toList.Nodup := h.parts.2.1
theorem Board.Wf.addr_nodup {b : Board} (h : b.Wf) : b.addr.toList.Nodup := h.parts.2.2.1
theorem Board.Wf.ce_ne_oe {b : Board} (h : b.Wf) : b.ce ≠ b.oe := by have := h.parts.1; simp at this; tauto
theorem Board.Wf.ce_ne_we {b : Board} (h : b.Wf) : b.ce ≠ b.we := by have := h.parts.1; simp at this; tauto
theorem Board.Wf.oe_ne_we {b : Board} (h : b.Wf) : b.oe ≠ b.we := by have := h.parts.1; simp at this; tauto
theorem Board.Wf.data_ne_ce {b : Board} (h : b.Wf) (i : Fin 8) : b.data.get i ≠ b.ce := h.parts.2.2.2.1 _ (by simp) i
theorem Board.Wf.data_ne_oe {b : Board} (h : b.Wf) (i : Fin 8) : b.data.get i ≠ b.oe := h.parts.2.2.2.1 _ (by simp) i
theorem Board.Wf.data_ne_we {b : Board} (h : b.Wf) (i : Fin 8) : b.data.get i ≠ b.we := h.parts.2.2.2.1 _ (by simp) i
theorem Board.Wf.addr_ne_ce {b : Board} (h : b.Wf) (i : Fin 17) : b.addr.get i ≠ b.ce := h.parts.2.2.2.2.1 _ (by simp) i
theorem Board.Wf.addr_ne_oe {b : Board} (h : b.Wf) (i : Fin 17) : b.addr.get i ≠ b.oe := h.parts.2.2.2.2.1 _ (by simp) i
theorem Board.Wf.addr_ne_we {b : Board} (h : b.Wf) (i : Fin 17) : b.addr.get i ≠ b.we := h.parts.2.2.2.2.1 _ (by simp) i
theorem Board.Wf.addr_ne_data {b : Board} (h : b.Wf) (i : Fin 17) (j : Fin 8) : b.addr.get i ≠ b.data.get j :=
  h.parts.2.2.2.2.2 i j

namespace Machine

/-! ### Masks -/

@[simp] theorem maskHas_pinBit (p q : Pin) : maskHas (pinBit p) q = decide (p = q) := by
  have : ∀ p q : Pin, maskHas (pinBit p) q = decide (p = q) := by decide +kernel
  exact this p q

@[simp] theorem maskHas_or (m n : Mask) (q : Pin) : maskHas (m ||| n) q = (maskHas m q || maskHas n q) := by
  simp only [maskHas, BitVec.getLsbD_or]

@[simp] theorem maskHas_zero (q : Pin) : maskHas 0#32 q = false := by simp only [maskHas, BitVec.getLsbD_zero]

/-- Pin `q` is in a mask exactly when it stands in the sequence at an index that is kept. -/
theorem maskHas_maskFrom (keep : Nat → Bool) (i : Nat) (ps : List Pin) (q : Pin) :
    maskHas (maskFrom keep i ps) q = true ↔ ∃ j, ps[j]? = some q ∧ keep (i + j) = true := by
  induction ps generalizing i with
  | nil => simp [maskFrom]
  | cons p ps ih =>
    simp only [maskFrom, maskHas_or, Bool.or_eq_true, ih]
    constructor
    · rintro (h | ⟨j, hj, hk⟩)
      · by_cases k : keep i = true <;> simp [k] at h
        exact ⟨0, by simp [h], by simpa using k⟩
      · exact ⟨j + 1, by simpa using hj, by rw [← hk]; congr 1; omega⟩
    · rintro ⟨j, hj, hk⟩
      cases j with
      | zero => left; simp at hj hk; simp [hk, hj]
      | succ j => right; exact ⟨j, by simpa using hj, by rw [← hk]; congr 1; omega⟩

/-- The mask of a kept index set over a duplicate-free pin sequence, at a pin of the sequence. -/
theorem maskHas_maskFrom_get {n : Nat} (pins : Vector Pin n) (h : pins.toList.Nodup) (keep : Nat → Bool) (i : Fin n) :
    maskHas (maskFrom keep 0 pins.toList) (pins.get i) = keep i.val := by
  rw [Bool.eq_iff_iff, maskHas_maskFrom]
  constructor
  · rintro ⟨j, hj, hk⟩
    obtain ⟨hlt, e⟩ := List.getElem?_eq_some_iff.1 hj
    have hlt' : j < n := by simpa using hlt
    have : (⟨j, hlt'⟩ : Fin n) = i := Vector.get_inj_of_nodup h (by simpa [Vector.get_eq_getElem] using e)
    subst this
    simpa using hk
  · intro hk
    exact ⟨i.val, by simp [Vector.get_eq_getElem], by simpa using hk⟩

/-- A pin outside the sequence is in no mask over it. -/
theorem maskHas_maskFrom_of_not_mem {n : Nat} (pins : Vector Pin n) (keep : Nat → Bool) (q : Pin)
    (h : ∀ i, pins.get i ≠ q) : maskHas (maskFrom keep 0 pins.toList) q = false := by
  rw [Bool.eq_false_iff]
  intro e
  obtain ⟨j, hj, -⟩ := (maskHas_maskFrom _ _ _ _).1 e
  obtain ⟨i, hi⟩ := Vector.exists_get_of_mem (List.mem_of_getElem? hj)
  exact h i hi

theorem maskHas_ctrlAll (b : Board) (q : Pin) :
    maskHas (ctrlAll b) q = (decide (b.ce = q) || decide (b.oe = q) || decide (b.we = q)) := by
  simp [ctrlAll]

/-! ### Values and levels -/

theorem testBit_valueOfLevels (l : List Bool) (i : Nat) : (valueOfLevels l).testBit i = l.getD i false := by
  induction l generalizing i with
  | nil => simp [valueOfLevels]
  | cons b l ih =>
    cases i with
    | zero => cases b <;> simp [valueOfLevels]
    | succ i =>
      rw [Nat.testBit_succ, show valueOfLevels (b :: l) / 2 = valueOfLevels l by
        cases b <;> simp only [valueOfLevels, Bool.toNat_true, Bool.toNat_false] <;> omega, ih]
      simp

theorem valueOfLevels_lt (l : List Bool) : valueOfLevels l < 2 ^ l.length := by
  induction l with
  | nil => simp [valueOfLevels]
  | cons b l ih =>
    have hb : b.toNat ≤ 1 := by cases b <;> simp
    simp only [valueOfLevels, List.length_cons, Nat.pow_succ]
    omega

/-- The value of the levels of a value's own bits is that value. -/
theorem ofNat_valueOfLevels {n : Nat} (l : List Bool) (v : BitVec n)
    (h : ∀ i, i < n → l.getD i false = v.getLsbD i) : BitVec.ofNat n (valueOfLevels l) = v := by
  apply BitVec.eq_of_getLsbD_eq
  intro i hi
  rw [BitVec.getLsbD_ofNat, testBit_valueOfLevels, h i hi]
  simp [hi]

theorem getLsbD_byteOfSamples (l : List Bool) (i : Nat) (h : i < 8) :
    (byteOfSamples l).getLsbD i = l.getD i false := by
  rw [byteOfSamples, BitVec.getLsbD_ofNat, testBit_valueOfLevels]
  simp [h]

end Machine

end Sys2Proof
end

