-- ==== Sys2Proof/Laws/Memory.lean ====
section
/-! SUPPORT. The chip's memory: a read after a write, and the canonical form every write keeps. -/

namespace Sys2Proof.Machine

theorem Memory.read_nil (a : Nat) : Memory.read [] a = none := rfl

/-- A read after a write gives the byte written, or what stood there before. -/
theorem Memory.read_write (m : List Host.Cell) (a x : Nat) (v : Byte) :
    Memory.read (Memory.write m a v) x = if x = a then some v else Memory.read m x := by
  induction m with
  | nil => by_cases e : a = x <;> simp [Memory.write, Memory.read, e, eq_comm]
  | cons c rest ih =>
    obtain ⟨y, u⟩ := c
    by_cases h1 : a < y
    · simp only [Memory.write, if_pos h1, Memory.read]
      by_cases e : a = x <;> simp [e, eq_comm]
    · by_cases h2 : a = y
      · subst h2
        by_cases e : a = x <;> simp [Memory.write, Memory.read, e, eq_comm]
      · simp only [Memory.write, if_neg h1, if_neg h2, Memory.read, ih]
        by_cases e : y = x
        · have : x ≠ a := fun q => h2 (by rw [← q, e])
          simp [e, this]
        · simp [e]

/-- Storing keeps the addresses rising above a bound the new address also exceeds. -/
theorem Memory.rising_write (m : List Host.Cell) (a : Nat) (v : Byte) (low : Option Nat)
    (h : Memory.risingFrom low m = true) (ha : ∀ l ∈ low, l < a) :
    Memory.risingFrom low (Memory.write m a v) = true := by
  induction m generalizing low with
  | nil => cases low <;> simp_all [Memory.write, Memory.risingFrom]
  | cons c rest ih =>
    obtain ⟨y, u⟩ := c
    have hrest : Memory.risingFrom (some y) rest = true := by
      cases low <;> simp_all [Memory.risingFrom]
    simp only [Memory.write]
    split_ifs with h1 h2
    · cases low <;> simp_all [Memory.risingFrom]
    · subst h2; cases low <;> simp_all [Memory.risingFrom]
    · have := ih (some y) hrest (by simp; omega)
      cases low <;> simp_all [Memory.risingFrom]

/-- The cells of a memory after a store are its cells and the stored one. -/
theorem Memory.mem_write (m : List Host.Cell) (a : Nat) (v : Byte) (c : Host.Cell) (h : c ∈ Memory.write m a v) :
    c = (a, v) ∨ c ∈ m := by
  induction m with
  | nil => simpa [Memory.write] using h
  | cons d rest ih =>
    obtain ⟨y, u⟩ := d
    simp only [Memory.write] at h
    split_ifs at h <;> simp at h ⊢ <;> tauto

/-- A store inside the chip address space keeps the canonical form. -/
theorem Memory.wf_write (m : List Host.Cell) (a : Nat) (v : Byte) (h : Memory.wf m = true) (ha : a < 2 ^ 17) :
    Memory.wf (Memory.write m a v) = true := by
  simp only [Memory.wf, Bool.and_eq_true, List.all_eq_true, decide_eq_true_eq] at h ⊢
  refine ⟨Memory.rising_write m a v none h.1 (by simp), fun c hc => ?_⟩
  rcases Memory.mem_write m a v c hc with rfl | hc
  · exact ha
  · exact h.2 c hc

end Sys2Proof.Machine
end

