-- ==== Sys2Proof/Laws/State.lean ====
section
/-! SUPPORT. The fields of the state after each named update, and the pin registers after each write of them. -/

namespace Sys2Proof.Machine

/-! ### `setDir` -/

@[simp] theorem State.setDir_acq (s : State) (p : Pin) (d : PinDir) : (s.setDir p d).acq = s.acq := rfl
@[simp] theorem State.setDir_dir (s : State) (p : Pin) (d : PinDir) : (s.setDir p d).dir = s.dir.set p.val (some d) := rfl
@[simp] theorem State.setDir_lat (s : State) (p : Pin) (d : PinDir) : (s.setDir p d).lat = s.lat := rfl
@[simp] theorem State.setDir_seq (s : State) (p : Pin) (d : PinDir) : (s.setDir p d).seq = s.seq := rfl
@[simp] theorem State.setDir_trace (s : State) (p : Pin) (d : PinDir) : (s.setDir p d).trace = s.trace := rfl
@[simp] theorem State.setDir_samples (s : State) (p : Pin) (d : PinDir) : (s.setDir p d).samples = s.samples := rfl
@[simp] theorem State.setDir_answers (s : State) (p : Pin) (d : PinDir) : (s.setDir p d).answers = s.answers := rfl
@[simp] theorem State.setDir_pending (s : State) (p : Pin) (d : PinDir) : (s.setDir p d).pending = s.pending := rfl
@[simp] theorem State.setDir_chip (s : State) (p : Pin) (d : PinDir) : (s.setDir p d).chip = s.chip := rfl
@[simp] theorem State.setDir_mem (s : State) (p : Pin) (d : PinDir) : (s.setDir p d).mem = s.mem := rfl

/-! ### `setLat` -/

@[simp] theorem State.setLat_acq (s : State) (p : Pin) (b : Bool) : (s.setLat p b).acq = s.acq := rfl
@[simp] theorem State.setLat_dir (s : State) (p : Pin) (b : Bool) : (s.setLat p b).dir = s.dir := rfl
@[simp] theorem State.setLat_lat (s : State) (p : Pin) (b : Bool) : (s.setLat p b).lat = s.lat.set p.val (some b) := rfl
@[simp] theorem State.setLat_seq (s : State) (p : Pin) (b : Bool) : (s.setLat p b).seq = s.seq := rfl
@[simp] theorem State.setLat_trace (s : State) (p : Pin) (b : Bool) : (s.setLat p b).trace = s.trace := rfl
@[simp] theorem State.setLat_samples (s : State) (p : Pin) (b : Bool) : (s.setLat p b).samples = s.samples := rfl
@[simp] theorem State.setLat_answers (s : State) (p : Pin) (b : Bool) : (s.setLat p b).answers = s.answers := rfl
@[simp] theorem State.setLat_pending (s : State) (p : Pin) (b : Bool) : (s.setLat p b).pending = s.pending := rfl
@[simp] theorem State.setLat_chip (s : State) (p : Pin) (b : Bool) : (s.setLat p b).chip = s.chip := rfl
@[simp] theorem State.setLat_mem (s : State) (p : Pin) (b : Bool) : (s.setLat p b).mem = s.mem := rfl

/-! ### `setLats` -/

@[simp] theorem State.setLats_acq (s : State) (m : Mask) (b : Bool) : (s.setLats m b).acq = s.acq := rfl
@[simp] theorem State.setLats_dir (s : State) (m : Mask) (b : Bool) : (s.setLats m b).dir = s.dir := rfl
@[simp] theorem State.setLats_lat (s : State) (m : Mask) (b : Bool) : (s.setLats m b).lat = writeLatches s.lat m b := rfl
@[simp] theorem State.setLats_seq (s : State) (m : Mask) (b : Bool) : (s.setLats m b).seq = s.seq := rfl
@[simp] theorem State.setLats_trace (s : State) (m : Mask) (b : Bool) : (s.setLats m b).trace = s.trace := rfl
@[simp] theorem State.setLats_samples (s : State) (m : Mask) (b : Bool) : (s.setLats m b).samples = s.samples := rfl
@[simp] theorem State.setLats_answers (s : State) (m : Mask) (b : Bool) : (s.setLats m b).answers = s.answers := rfl
@[simp] theorem State.setLats_pending (s : State) (m : Mask) (b : Bool) : (s.setLats m b).pending = s.pending := rfl
@[simp] theorem State.setLats_chip (s : State) (m : Mask) (b : Bool) : (s.setLats m b).chip = s.chip := rfl
@[simp] theorem State.setLats_mem (s : State) (m : Mask) (b : Bool) : (s.setLats m b).mem = s.mem := rfl

/-! ### `clearPins` -/

@[simp] theorem State.clearPins_acq (s : State) : (s.clearPins).acq = s.acq := rfl
@[simp] theorem State.clearPins_dir (s : State) : (s.clearPins).dir = Vector.replicate 32 none := rfl
@[simp] theorem State.clearPins_lat (s : State) : (s.clearPins).lat = Vector.replicate 32 none := rfl
@[simp] theorem State.clearPins_seq (s : State) : (s.clearPins).seq = s.seq := rfl
@[simp] theorem State.clearPins_trace (s : State) : (s.clearPins).trace = s.trace := rfl
@[simp] theorem State.clearPins_samples (s : State) : (s.clearPins).samples = s.samples := rfl
@[simp] theorem State.clearPins_answers (s : State) : (s.clearPins).answers = s.answers := rfl
@[simp] theorem State.clearPins_pending (s : State) : (s.clearPins).pending = s.pending := rfl
@[simp] theorem State.clearPins_chip (s : State) : (s.clearPins).chip = s.chip := rfl
@[simp] theorem State.clearPins_mem (s : State) : (s.clearPins).mem = s.mem := rfl

/-! ### `emit` -/

@[simp] theorem State.emit_acq (s : State) (e : Event) : (s.emit e).acq = s.acq := rfl
@[simp] theorem State.emit_dir (s : State) (e : Event) : (s.emit e).dir = s.dir := rfl
@[simp] theorem State.emit_lat (s : State) (e : Event) : (s.emit e).lat = s.lat := rfl
@[simp] theorem State.emit_seq (s : State) (e : Event) : (s.emit e).seq = s.seq := rfl
@[simp] theorem State.emit_trace (s : State) (e : Event) : (s.emit e).trace = s.trace ++ [e] := rfl
@[simp] theorem State.emit_samples (s : State) (e : Event) : (s.emit e).samples = s.samples := rfl
@[simp] theorem State.emit_answers (s : State) (e : Event) : (s.emit e).answers = s.answers := rfl
@[simp] theorem State.emit_pending (s : State) (e : Event) : (s.emit e).pending = s.pending := rfl
@[simp] theorem State.emit_chip (s : State) (e : Event) : (s.emit e).chip = s.chip := rfl
@[simp] theorem State.emit_mem (s : State) (e : Event) : (s.emit e).mem = s.mem := rfl

/-! ### `accept` -/

@[simp] theorem accept_acq (s : State) (c : Instr) : (accept c s).acq = s.acq := rfl
@[simp] theorem accept_dir (s : State) (c : Instr) : (accept c s).dir = s.dir := rfl
@[simp] theorem accept_lat (s : State) (c : Instr) : (accept c s).lat = s.lat := rfl
@[simp] theorem accept_seq (s : State) (c : Instr) : (accept c s).seq = .busy c 0 := rfl
@[simp] theorem accept_trace (s : State) (c : Instr) : (accept c s).trace = s.trace := rfl
@[simp] theorem accept_samples (s : State) (c : Instr) : (accept c s).samples = [] := rfl
@[simp] theorem accept_answers (s : State) (c : Instr) : (accept c s).answers = s.answers := rfl
@[simp] theorem accept_pending (s : State) (c : Instr) : (accept c s).pending = s.pending := rfl
@[simp] theorem accept_chip (s : State) (c : Instr) : (accept c s).chip = s.chip := rfl
@[simp] theorem accept_mem (s : State) (c : Instr) : (accept c s).mem = s.mem := rfl

/-! ### `complete` -/

@[simp] theorem complete_acq (s : State) (a : Answer) : (complete a s).acq = s.acq := rfl
@[simp] theorem complete_dir (s : State) (a : Answer) : (complete a s).dir = s.dir := rfl
@[simp] theorem complete_lat (s : State) (a : Answer) : (complete a s).lat = s.lat := rfl
@[simp] theorem complete_seq (s : State) (a : Answer) : (complete a s).seq = .idle := rfl
@[simp] theorem complete_trace (s : State) (a : Answer) : (complete a s).trace = s.trace := rfl
@[simp] theorem complete_samples (s : State) (a : Answer) : (complete a s).samples = [] := rfl
@[simp] theorem complete_answers (s : State) (a : Answer) : (complete a s).answers = s.answers ++ [a] := rfl
@[simp] theorem complete_pending (s : State) (a : Answer) : (complete a s).pending = s.pending := rfl
@[simp] theorem complete_chip (s : State) (a : Answer) : (complete a s).chip = s.chip := rfl
@[simp] theorem complete_mem (s : State) (a : Answer) : (complete a s).mem = s.mem := rfl

/-! ### The latch file and the direction file -/

theorem get_writeLatches (f : Vector (Option Bool) 32) (m : Mask) (b : Bool) (q : Pin) :
    (writeLatches f m b).get q = if maskHas m q then some b else f.get q := by
  unfold writeLatches
  simp [Vector.get_eq_getElem]

theorem get_set {α : Type} (f : Vector α 32) (p q : Pin) (x : α) :
    (f.set p.val x).get q = if q = p then x else f.get q := by
  simp only [Vector.get_eq_getElem, Vector.getElem_set]
  by_cases h : q = p
  · simp [h]
  · have : p.val ≠ q.val := fun e => h (Fin.ext e.symm)
    simp [h, this]

/-- The direction file with direction `d` for every pin of a list. -/
def setDirs (f : Vector (Option PinDir) 32) (ps : List Pin) (d : PinDir) : Vector (Option PinDir) 32 :=
  ps.foldl (fun g p => g.set p.val (some d)) f

@[simp] theorem setDirs_nil (f : Vector (Option PinDir) 32) (d : PinDir) : setDirs f [] d = f := rfl

@[simp] theorem setDirs_cons (f : Vector (Option PinDir) 32) (p : Pin) (ps : List Pin) (d : PinDir) :
    setDirs f (p :: ps) d = setDirs (f.set p.val (some d)) ps d := rfl

theorem get_setDirs (f : Vector (Option PinDir) 32) (ps : List Pin) (d : PinDir) (q : Pin) :
    (setDirs f ps d).get q = if q ∈ ps then some d else f.get q := by
  induction ps generalizing f with
  | nil => simp
  | cons p ps ih =>
    rw [setDirs_cons, ih, get_set]
    by_cases h1 : q ∈ ps <;> by_cases h2 : q = p <;> simp [h1, h2]

/-! ### `advance` -/

/-- `seq` after `n` steps of the command in progress. -/
def Seq.plus : Seq → Nat → Seq
  | .idle, _     => .idle
  | .busy c k, n => .busy c (k + n)

@[simp] theorem Seq.plus_zero (q : Seq) : q.plus 0 = q := by cases q <;> rfl

@[simp] theorem Seq.plus_plus (q : Seq) (m n : Nat) : (q.plus m).plus n = q.plus (m + n) := by
  cases q <;> simp [Seq.plus, Nat.add_assoc]

theorem advance_eq (s : State) : advance s = { s with seq := s.seq.plus 1 } := by
  obtain ⟨_, _, _, seq, _, _, _, _, _, _⟩ := s
  cases seq <;> rfl

@[simp] theorem advance_acq (s : State) : (advance s).acq = s.acq := by simp only [advance_eq]
@[simp] theorem advance_dir (s : State) : (advance s).dir = s.dir := by simp only [advance_eq]
@[simp] theorem advance_lat (s : State) : (advance s).lat = s.lat := by simp only [advance_eq]
@[simp] theorem advance_seq (s : State) : (advance s).seq = s.seq.plus 1 := by simp only [advance_eq]
@[simp] theorem advance_trace (s : State) : (advance s).trace = s.trace := by simp only [advance_eq]
@[simp] theorem advance_samples (s : State) : (advance s).samples = s.samples := by simp only [advance_eq]
@[simp] theorem advance_answers (s : State) : (advance s).answers = s.answers := by simp only [advance_eq]
@[simp] theorem advance_pending (s : State) : (advance s).pending = s.pending := by simp only [advance_eq]
@[simp] theorem advance_chip (s : State) : (advance s).chip = s.chip := by simp only [advance_eq]
@[simp] theorem advance_mem (s : State) : (advance s).mem = s.mem := by simp only [advance_eq]

/-! ### The pin registers -/

/-- `dir[p]` and `lat[p]` depend on the register files alone. -/
theorem dirOf_congr {s t : State} (h : s.dir = t.dir) (p : Pin) : s.dirOf p = t.dirOf p := by
  simp only [State.dirOf, h]

theorem latOf_congr {s t : State} (h : s.lat = t.lat) (p : Pin) : s.latOf p = t.latOf p := by
  simp only [State.latOf, h]

@[simp] theorem dirOf_setDir (s : State) (p q : Pin) (d : PinDir) :
    (s.setDir p d).dirOf q = if q = p then some d else s.dirOf q := by
  exact get_set s.dir p q (some d)

@[simp] theorem latOf_setDir (s : State) (p q : Pin) (d : PinDir) : (s.setDir p d).latOf q = s.latOf q := rfl

@[simp] theorem latOf_setLat (s : State) (p q : Pin) (b : Bool) :
    (s.setLat p b).latOf q = if q = p then some b else s.latOf q := by
  exact get_set s.lat p q (some b)

@[simp] theorem dirOf_setLat (s : State) (p q : Pin) (b : Bool) : (s.setLat p b).dirOf q = s.dirOf q := rfl

@[simp] theorem latOf_setLats (s : State) (m : Mask) (q : Pin) (b : Bool) :
    (s.setLats m b).latOf q = if maskHas m q then some b else s.latOf q := by
  exact get_writeLatches s.lat m b q

@[simp] theorem dirOf_setLats (s : State) (m : Mask) (q : Pin) (b : Bool) : (s.setLats m b).dirOf q = s.dirOf q := rfl

@[simp] theorem dirOf_clearPins (s : State) (q : Pin) : s.clearPins.dirOf q = none := by
  simp [State.dirOf, State.clearPins, Vector.get_eq_getElem]

@[simp] theorem latOf_clearPins (s : State) (q : Pin) : s.clearPins.latOf q = none := by
  simp [State.latOf, State.clearPins, Vector.get_eq_getElem]

@[simp] theorem dirOf_emit (s : State) (e : Event) (q : Pin) : (s.emit e).dirOf q = s.dirOf q := rfl

@[simp] theorem latOf_emit (s : State) (e : Event) (q : Pin) : (s.emit e).latOf q = s.latOf q := rfl

@[simp] theorem dirOf_accept (s : State) (c : Instr) (q : Pin) : (accept c s).dirOf q = s.dirOf q := rfl

@[simp] theorem latOf_accept (s : State) (c : Instr) (q : Pin) : (accept c s).latOf q = s.latOf q := rfl

@[simp] theorem dirOf_complete (s : State) (a : Answer) (q : Pin) : (complete a s).dirOf q = s.dirOf q := rfl

@[simp] theorem latOf_complete (s : State) (a : Answer) (q : Pin) : (complete a s).latOf q = s.latOf q := rfl

@[simp] theorem dirOf_advance (s : State) (q : Pin) : (advance s).dirOf q = s.dirOf q := dirOf_congr (by simp) q

@[simp] theorem latOf_advance (s : State) (q : Pin) : (advance s).latOf q = s.latOf q := latOf_congr (by simp) q

@[simp] theorem dirOf_reset (q : Pin) : State.reset.dirOf q = none := by
  simp [State.dirOf, State.reset, Vector.get_eq_getElem]

@[simp] theorem latOf_reset (q : Pin) : State.reset.latOf q = none := by
  simp [State.latOf, State.reset, Vector.get_eq_getElem]

end Sys2Proof.Machine
end

