-- ==== Sys2Proof/Laws/Lines.lean ====
section
/-! SUPPORT. When a line has a level, when the chip can drive or latch, and what its reaction leaves alone. -/

namespace Sys2Proof.Machine

/-! ### Lines -/

theorem drive_congr {s t : State} {p : Pin} (hd : s.dirOf p = t.dirOf p) (hl : s.latOf p = t.latOf p) :
    drive s p = drive t p := by
  simp only [drive, hd, hl]

theorem drive_eq_level {s : State} {p : Pin} {b : Bool} :
    drive s p = .level b ↔ s.dirOf p = some .output ∧ s.latOf p = some b := by
  unfold drive
  cases hd : s.dirOf p with
  | none => simp
  | some d => cases d <;> cases hl : s.latOf p <;> simp

theorem drive_of_none {s : State} {p : Pin} (h : s.dirOf p = none) : drive s p = .unset := by
  simp only [drive, h]

theorem drive_of_input {s : State} {p : Pin} (h : s.dirOf p = some .input) : drive s p = .draw := by
  simp only [drive, h]

@[simp] theorem drive_emit (s : State) (e : Event) (p : Pin) : drive (s.emit e) p = drive s p := rfl
@[simp] theorem drive_accept (s : State) (c : Instr) (p : Pin) : drive (accept c s) p = drive s p := rfl
@[simp] theorem drive_complete (s : State) (a : Answer) (p : Pin) : drive (complete a s) p = drive s p := rfl
@[simp] theorem drive_advance (s : State) (p : Pin) : drive (advance s) p = drive s p := drive_congr (by simp) (by simp)

theorem seen_of_level {w : World} {s : State} {p : Pin} {b : Bool} (h : drive s p = .level b) : seen w s p = b := by
  simp only [seen, h]

/-- While the address pins are Outputs that hold `ea`, the chip takes `ea` as its address. -/
theorem chipAddress_of_holds {w : World} {s : State} {ea : EffAddr} (ho : AddressOutput w.board s)
    (hl : AddressHolds w.board s ea) : chipAddress w s = ea := by
  apply ofNat_valueOfLevels
  intro i hi
  have hs : seen w s (w.board.addr.get ⟨i, hi⟩) = ea.getLsbD i :=
    seen_of_level (drive_eq_level.2 ⟨ho ⟨i, hi⟩, hl ⟨i, hi⟩⟩)
  simpa [List.getD, Vector.get_eq_getElem, hi] using hs

/-- While the data pins are Outputs that hold `v`, the chip takes `v` as its data. -/
theorem chipData_of_holds {w : World} {s : State} {v : Byte} (ho : DataDirection w.board s (some .output))
    (hl : DataHolds w.board s v) : chipData w s = v := by
  apply ofNat_valueOfLevels
  intro i hi
  have hd := drive_eq_level.2 ⟨ho ⟨i, hi⟩, hl ⟨i, hi⟩⟩
  have hs : sense w s (w.board.data.get ⟨i, hi⟩) = v.getLsbD i := by simp only [sense, line, hd]
  simpa [List.getD, Vector.get_eq_getElem, hi] using hs

/-! ### Bus values -/

theorem line_of_level {w : World} {s : State} {p : Pin} {b : Bool} (h : drive s p = .level b) : line w s p = .level b := by
  simp only [line, h]

theorem line_of_unset {w : World} {s : State} {p : Pin} (h : drive s p = .unset) : line w s p = .unset := by
  simp only [line, h]

/-- An Input has a level or a draw on its line, never `⊥`. -/
theorem line_ne_unset_of_input {w : World} {s : State} {p : Pin} (h : s.dirOf p = some .input) : line w s p ≠ .unset := by
  simp only [line, drive_of_input h]
  cases chipBit w s p <;> simp

/-- A term of a bus value is missing exactly where the line is `⊥`. -/
theorem busLevel_eq_none {w : World} {s : State} {p : Pin} : busLevel w s p = none ↔ line w s p = .unset := by
  unfold busLevel
  cases line w s p <;> simp

/-- A term that is not missing is the level read on the line. -/
theorem busLevel_eq_some {w : World} {s : State} {p : Pin} {b : Bool} :
    busLevel w s p = some b ↔ line w s p ≠ .unset ∧ sense w s p = b := by
  unfold busLevel
  cases line w s p <;> simp

theorem busLevel_of_level {w : World} {s : State} {p : Pin} {b : Bool} (h : line w s p = .level b) :
    busLevel w s p = some b :=
  busLevel_eq_some.2 ⟨by simp [h], by simp only [sense, h]⟩

/-- A list of terms is missing exactly where one of them is. -/
theorem mapM_eq_none {α β : Type} (f : α → Option β) (l : List α) : l.mapM f = none ↔ ∃ x ∈ l, f x = none := by
  induction l with
  | nil => simp
  | cons x l ih =>
    simp only [List.mapM_cons, List.mem_cons, exists_eq_or_imp]
    cases f x with
    | none => simp
    | some y => cases hl : l.mapM f <;> simp [← ih, hl]

/-- A list of terms that is not missing holds each of them at its place. -/
theorem getElem?_of_mapM {α β : Type} (f : α → Option β) (l : List α) (r : List β) (h : l.mapM f = some r) :
    r.length = l.length ∧ ∀ i : Nat, r[i]? = l[i]?.bind f := by
  induction l generalizing r with
  | nil => simp at h; subst h; simp
  | cons x l ih =>
    simp only [List.mapM_cons] at h
    cases hx : f x with
    | none => simp [hx] at h
    | some y =>
      cases hl : l.mapM f with
      | none => simp [hx, hl] at h
      | some z =>
        simp [hx, hl] at h
        subst h
        obtain ⟨h1, h2⟩ := ih z hl
        refine ⟨by simp [h1], fun i => ?_⟩
        cases i with
        | zero => simp [hx]
        | succ i => simpa using h2 i

/-! ### The chip -/

theorem chipDrives_eq_true {b : Board} {s : State} :
    chipDrives b s = true ↔ drive s b.ce = .level false ∧ drive s b.oe = .level false := by
  simp [chipDrives]

/-- CE or OE is driven high, so the chip does not drive. -/
def ChipOff (b : Board) (s : State) : Prop := drive s b.ce = .level true ∨ drive s b.oe = .level true

theorem ChipOff.not_drives {b : Board} {s : State} (h : ChipOff b s) : chipDrives b s = false := by
  rw [Bool.eq_false_iff, Ne, chipDrives_eq_true]
  rintro ⟨h1, h2⟩
  rcases h with h | h
  · rw [h] at h1; cases h1
  · rw [h] at h2; cases h2

theorem contended_of_chipOff {b : Board} {s : State} (h : ChipOff b s) : contended b s = false := by
  simp [contended, h.not_drives]

theorem contended_of_input {b : Board} {s : State} (h : DataDirection b s (some .input)) : contended b s = false := by
  have : b.data.toList.any (fun p => s.dirOf p == some .output) = false := by
    rw [List.any_eq_false]
    intro p hp
    obtain ⟨i, rfl⟩ := Vector.exists_get_of_mem hp
    simp [h i]
  simp [contended, this]

theorem contended_of_unset {b : Board} {s : State} (h : DataDirection b s none) : contended b s = false := by
  have : b.data.toList.any (fun p => s.dirOf p == some .output) = false := by
    rw [List.any_eq_false]
    intro p hp
    obtain ⟨i, rfl⟩ := Vector.exists_get_of_mem hp
    simp [h i]
  simp [contended, this]

theorem contended_congr {b : Board} {s t : State} (hd : s.dir = t.dir) (hl : s.lat = t.lat) :
    contended b s = contended b t := by
  have h1 : ∀ p, s.dirOf p = t.dirOf p := dirOf_congr hd
  have h2 : ∀ p, drive s p = drive t p := fun p => drive_congr (h1 p) (latOf_congr hl p)
  simp only [contended, chipDrives, h1, h2]

/-- The chip reacts by storing one byte, or not at all. -/
theorem chipReact_cases (w : World) (s t : State) :
    chipReact w s t = t ∨
    (chipLatches w s t = true ∧
      chipReact w s t = { t with mem := Memory.write t.mem (chipAddress w t).toNat (chipData w t) }) := by
  unfold chipReact
  split
  · right; exact ⟨‹_›, rfl⟩
  · left; rfl

/-- WE's line does not go from 0 to 1. -/
def NoRise (b : Board) (s t : State) : Prop := drive s b.we = .level false → drive t b.we ≠ .level true

theorem NoRise.of_eq {b : Board} {s t : State} (h : drive s b.we = drive t b.we) : NoRise b s t := by
  intro h1 h2
  rw [h, h2] at h1
  cases h1

theorem NoRise.of_latch {b : Board} {s t : State} (h : s.latOf b.we ≠ some false) : NoRise b s t :=
  fun h1 => absurd (drive_eq_level.1 h1).2 h

/-- The chip latches only at an event that takes WE's line from 0 to 1. -/
theorem chipReact_of_noRise {w : World} {s t : State} (h : NoRise w.board s t) : chipReact w s t = t := by
  unfold chipReact chipLatches
  rw [if_neg]
  simp only [Bool.and_eq_true, beq_iff_eq, not_and]
  exact fun h1 => absurd h1.2 (h h1.1)

/-- At an event that takes WE's line from 0 to 1 while CE is driven low, the chip stores its data at its address. -/
theorem chipReact_of_rise {w : World} {s t : State} (h1 : drive s w.board.we = .level false)
    (h2 : drive t w.board.we = .level true) (h3 : drive t w.board.ce = .level false) :
    chipReact w s t = { t with mem := Memory.write t.mem (chipAddress w t).toNat (chipData w t) } := by
  unfold chipReact chipLatches
  rw [if_pos (by simp [h1, h2, seen_of_level h3])]

@[simp] theorem chipReact_acq (w : World) (s t : State) : (chipReact w s t).acq = t.acq := by
  unfold chipReact; split <;> rfl

@[simp] theorem chipReact_dir (w : World) (s t : State) : (chipReact w s t).dir = t.dir := by
  unfold chipReact; split <;> rfl

@[simp] theorem chipReact_lat (w : World) (s t : State) : (chipReact w s t).lat = t.lat := by
  unfold chipReact; split <;> rfl

@[simp] theorem chipReact_seq (w : World) (s t : State) : (chipReact w s t).seq = t.seq := by
  unfold chipReact; split <;> rfl

@[simp] theorem chipReact_trace (w : World) (s t : State) : (chipReact w s t).trace = t.trace := by
  unfold chipReact; split <;> rfl

@[simp] theorem chipReact_samples (w : World) (s t : State) : (chipReact w s t).samples = t.samples := by
  unfold chipReact; split <;> rfl

@[simp] theorem chipReact_answers (w : World) (s t : State) : (chipReact w s t).answers = t.answers := by
  unfold chipReact; split <;> rfl

@[simp] theorem chipReact_pending (w : World) (s t : State) : (chipReact w s t).pending = t.pending := by
  unfold chipReact; split <;> rfl

@[simp] theorem chipReact_chip (w : World) (s t : State) : (chipReact w s t).chip = t.chip := by
  unfold chipReact; split <;> rfl

@[simp] theorem dirOf_chipReact (w : World) (s t : State) (q : Pin) : (chipReact w s t).dirOf q = t.dirOf q :=
  dirOf_congr (by simp) q

@[simp] theorem latOf_chipReact (w : World) (s t : State) (q : Pin) : (chipReact w s t).latOf q = t.latOf q :=
  latOf_congr (by simp) q

@[simp] theorem drive_chipReact (w : World) (s t : State) (q : Pin) : drive (chipReact w s t) q = drive t q :=
  drive_congr (by simp) (by simp)

end Sys2Proof.Machine
end

