-- ==== Sys2Proof/Laws/Primitives.lean ====
section
/-! SUPPORT. What one primitive can do, and what a list of them can do. -/

namespace Sys2Proof.Machine

/-! ### `andThen` -/

@[simp] theorem andThen_next (s : State) (f : State → Result) : andThen (.next s) f = f s := rfl
@[simp] theorem andThen_fault (r : Fault) (f : State → Result) : andThen (.fault r) f = .fault r := rfl
@[simp] theorem andThen_refused (r : Refusal) (f : State → Result) : andThen (.refused r) f = .refused r := rfl

theorem andThen_eq_next {o : Result} {f : State → Result} {t : State} :
    andThen o f = .next t ↔ ∃ s, o = .next s ∧ f s = .next t := by
  cases o <;> simp

theorem andThen_assoc (o : Result) (f g : State → Result) :
    andThen (andThen o f) g = andThen o fun s => andThen (f s) g := by
  cases o <;> rfl

/-! ### The effect of one primitive -/

@[simp] theorem writeOf_seq (w : World) (s : State) (m : Prim) : (writeOf w s m).seq = s.seq := by cases m <;> rfl

@[simp] theorem writeOf_answers (w : World) (s : State) (m : Prim) : (writeOf w s m).answers = s.answers := by cases m <;> rfl

@[simp] theorem writeOf_pending (w : World) (s : State) (m : Prim) : (writeOf w s m).pending = s.pending := by cases m <;> rfl

@[simp] theorem writeOf_chip (w : World) (s : State) (m : Prim) : (writeOf w s m).chip = s.chip := by cases m <;> rfl

@[simp] theorem writeOf_trace (w : World) (s : State) (m : Prim) : (writeOf w s m).trace = s.trace := by cases m <;> rfl

@[simp] theorem writeOf_mem (w : World) (s : State) (m : Prim) : (writeOf w s m).mem = s.mem := by cases m <;> rfl

@[simp] theorem effect_seq (w : World) (m : Prim) (s : State) : (effect w m s).seq = s.seq := by simp [effect]

@[simp] theorem effect_answers (w : World) (m : Prim) (s : State) : (effect w m s).answers = s.answers := by simp [effect]

@[simp] theorem effect_pending (w : World) (m : Prim) (s : State) : (effect w m s).pending = s.pending := by simp [effect]

@[simp] theorem effect_chip (w : World) (m : Prim) (s : State) : (effect w m s).chip = s.chip := by simp [effect]

theorem effect_acq (w : World) (m : Prim) (s : State) : (effect w m s).acq = (writeOf w s m).acq := by simp [effect]

theorem effect_dir (w : World) (m : Prim) (s : State) : (effect w m s).dir = (writeOf w s m).dir := by simp [effect]

theorem effect_lat (w : World) (m : Prim) (s : State) : (effect w m s).lat = (writeOf w s m).lat := by simp [effect]

theorem effect_samples (w : World) (m : Prim) (s : State) : (effect w m s).samples = (writeOf w s m).samples := by simp [effect]

/-- A primitive appends exactly its one event (40_pin_primitives.md rule R65 (a)). -/
theorem effect_trace (w : World) (m : Prim) (s : State) : (effect w m s).trace = s.trace ++ [eventOf w s m] := by
  simp [effect]

/-- A primitive answers its effect when none of the spec's three refusals applies, and only then. -/
theorem perform_eq_next {w : World} {m : Prim} {s t : State} :
    perform w m s = .next t ↔
      (m.needsPeripheral = true → s.acq = .acquired) ∧ m.readsNonInput s = false ∧
      contended w.board (effect w m s) = false ∧ t = effect w m s := by
  unfold perform
  constructor
  · intro h
    split at h
    · cases h
    · split at h
      · cases h
      · split at h
        · cases h
        · rename_i h1 h2 h3
          refine ⟨fun hn => ?_, by simpa using h2, by simpa using h3, by cases h; rfl⟩
          cases ha : s.acq with
          | released => simp [hn, ha] at h1
          | acquired => rfl
  · rintro ⟨hn, hr, hc, rfl⟩
    have h1 : (m.needsPeripheral && s.acq == .released) = false := by
      cases hm : m.needsPeripheral with
      | false => rfl
      | true => simp [hn hm]
    simp only [h1, hr, hc, Bool.false_eq_true, if_false]

/-- A primitive never faults. -/
theorem perform_ne_fault (w : World) (m : Prim) (s : State) (r : Fault) : perform w m s ≠ .fault r := by
  unfold perform
  split
  · simp
  · split
    · simp
    · split <;> simp

/-- A primitive with the peripheral held, at which WE does not rise and after which the chip meets no Output data pin, has
its register writes and its event as its whole effect. -/
theorem perform_quiet {w : World} {m : Prim} {s : State} (ha : s.acq = .acquired) (hr : m.readsNonInput s = false)
    (hw : NoRise w.board s (writeOf w s m)) (hc : contended w.board (writeOf w s m) = false) :
    perform w m s = .next ((writeOf w s m).emit (eventOf w s m)) := by
  have e : effect w m s = (writeOf w s m).emit (eventOf w s m) :=
    chipReact_of_noRise (t := (writeOf w s m).emit (eventOf w s m)) (by simpa [NoRise] using hw)
  exact perform_eq_next.2 ⟨fun _ => ha, hr, by rw [e]; exact hc, e.symm⟩

/-! ### A list of primitives -/

theorem performAll_append (w : World) (l₁ l₂ : List Prim) (s : State) :
    performAll w (l₁ ++ l₂) s = andThen (performAll w l₁ s) (performAll w l₂) := by
  induction l₁ generalizing s with
  | nil => rfl
  | cons m l ih =>
    simp only [List.cons_append, performAll, andThen_assoc, ih]

/-- What a list of primitives leaves alone, whatever it is. -/
theorem performAll_keeps {w : World} {l : List Prim} {s t : State} (h : performAll w l s = .next t) :
    t.answers = s.answers ∧ t.pending = s.pending ∧ t.chip = s.chip ∧ ∃ ev, ev.length = l.length ∧ t.trace = s.trace ++ ev := by
  induction l generalizing s with
  | nil =>
    cases h
    exact ⟨rfl, rfl, rfl, [], rfl, by simp⟩
  | cons m l ih =>
    obtain ⟨u, hu, h⟩ := andThen_eq_next.1 h
    obtain ⟨-, -, -, rfl⟩ := perform_eq_next.1 hu
    obtain ⟨h1, h2, h3, ev, hl, ht⟩ := ih h
    refine ⟨by simpa using h1, by simpa using h2, by simpa using h3, eventOf w s m :: ev, by simp [hl], ?_⟩
    rw [ht]; simp [effect_trace]

/-- No primitive reads `seq`. -/
theorem effect_at (w : World) (m : Prim) (s : State) (q : Seq) :
    effect w m { s with seq := q } = { effect w m s with seq := q } := by
  have h : ∀ p, sense w { s with seq := q } p = sense w s p := fun p => rfl
  cases m <;> simp only [effect, chipReact, writeOf, eventOf, h] <;>
    (refine Eq.trans ?_ (apply_ite (fun t : State => { t with seq := q }) _ _ _).symm) <;> rfl

/-- What is read off the end of a step list without `seq` does not depend on the `seq` it started from. -/
theorem performAll_at (w : World) (l : List Prim) (s : State) (q : Seq) (f : State → Result)
    (hf : ∀ (t : State) (r : Seq), f { t with seq := r } = f t) :
    andThen (performAll w l { s with seq := q }) f = andThen (performAll w l s) f := by
  induction l generalizing s q with
  | nil => exact hf s q
  | cons m l ih =>
    have hp : perform w m { s with seq := q } = andThen (perform w m s) fun t => .next { t with seq := q } := by
      unfold perform
      rw [effect_at]
      have e1 : ({ s with seq := q } : State).acq = s.acq := rfl
      have e2 : m.readsNonInput { s with seq := q } = m.readsNonInput s := by cases m <;> rfl
      have e3 : contended w.board { effect w m s with seq := q } = contended w.board (effect w m s) := rfl
      rw [e1, e2, e3]
      split_ifs <;> rfl
    simp only [performAll, hp, andThen_assoc, andThen_next]
    congr 1
    funext t
    rw [advance_eq, advance_eq, ih t, ← ih t]

end Sys2Proof.Machine
end

