-- ==== Sys2Proof/Laws/Phases.lean ====
section
/-! SUPPORT. The phases of a command, each as one equation: the state after its steps, given what makes each step quiet. -/

namespace Sys2Proof.Machine

/-- One quiet step at the head of a list. -/
theorem performAll_cons_quiet {w : World} {m : Prim} {l : List Prim} {s : State} (ha : s.acq = .acquired)
    (hr : m.readsNonInput s = false) (hw : NoRise w.board s (writeOf w s m))
    (hc : contended w.board (writeOf w s m) = false) :
    performAll w (m :: l) s = performAll w l (advance ((writeOf w s m).emit (eventOf w s m))) := by
  simp only [performAll, perform_quiet ha hr hw hc, andThen_next]

/-- The direction steps of a list of pins, where no latch of WE is low and the chip meets no Output data pin on the way. -/
theorem performAll_directions {w : World} {ps : List Pin} {d : PinDir} {s : State} (ha : s.acq = .acquired)
    (hw : s.latOf w.board.we ≠ some false)
    (hc : ∀ qs, qs <+: ps → contended w.board { s with dir := setDirs s.dir qs d } = false) :
    performAll w (ps.map fun p => .setPinDirection p d) s =
      .next { s with
        dir := setDirs s.dir ps d
        trace := s.trace ++ ps.map fun p => .dir p d
        seq := s.seq.plus ps.length } := by
  induction ps generalizing s with
  | nil => simp [performAll]
  | cons p ps ih =>
    rw [List.map_cons, performAll_cons_quiet (m := .setPinDirection p d) ha rfl (NoRise.of_latch hw) (hc [p] (by simp))]
    rw [ih (by simpa [writeOf] using ha) (by simpa [writeOf] using hw) ?_]
    · simp [writeOf, eventOf, Nat.add_comm]
    · intro qs hq
      have := hc (p :: qs) (by simpa using hq)
      rw [← this]
      exact contended_congr (by simp [writeOf]) (by simp [writeOf])

/-- The chip cannot meet an Output data pin while a control line keeps it off. -/
theorem contended_setDirs_of_chipOff {b : Board} {s : State} {qs : List Pin} {d : PinDir} (h : ChipOff b s)
    (h1 : b.ce ∉ qs) (h2 : b.oe ∉ qs) : contended b { s with dir := setDirs s.dir qs d } = false := by
  apply contended_of_chipOff
  have e : ∀ p, p ∉ qs → drive { s with dir := setDirs s.dir qs d } p = drive s p := fun p hp =>
    drive_congr (by simp [State.dirOf, get_setDirs, hp]) rfl
  rcases h with h | h
  · left; rw [e _ h1, h]
  · right; rw [e _ h2, h]

/-- A bulk set followed by a bulk clear, on pins that are not WE, CE or OE, with the chip kept off. -/
theorem performAll_setThenClear {w : World} {m n : Mask} {s : State} (ha : s.acq = .acquired) (hoff : ChipOff w.board s)
    (hm : ∀ c ∈ [w.board.ce, w.board.oe, w.board.we], maskHas m c = false ∧ maskHas n c = false) :
    performAll w [.setPinsHigh m, .setPinsLow n] s =
      .next { s with
        lat := writeLatches (writeLatches s.lat m true) n false
        trace := s.trace ++ [.setHigh m, .setLow n]
        seq := s.seq.plus 2 } := by
  have e : ∀ (t : State) (k : Mask) (b : Bool), ∀ c ∈ [w.board.ce, w.board.oe, w.board.we], maskHas k c = false →
      drive (t.setLats k b) c = drive t c := by
    intro t k b c _ hk
    exact drive_congr (by simp) (by simp [hk])
  have off : ∀ (t : State) (k : Mask) (b : Bool), (∀ c ∈ [w.board.ce, w.board.oe, w.board.we], maskHas k c = false) →
      ChipOff w.board t → ChipOff w.board (t.setLats k b) := by
    intro t k b hk ht
    rcases ht with ht | ht
    · left; rw [e t k b _ (by simp) (hk _ (by simp)), ht]
    · right; rw [e t k b _ (by simp) (hk _ (by simp)), ht]
  have off1 := off s m true (fun c hc => (hm c hc).1) hoff
  rw [performAll_cons_quiet ha rfl (NoRise.of_eq (e s m true _ (by simp) (hm _ (by simp)).1).symm)
    (contended_of_chipOff off1)]
  rw [performAll_cons_quiet (by simpa [writeOf] using ha) rfl
    (NoRise.of_eq (by simp only [writeOf]; exact (e _ n false _ (by simp) (hm _ (by simp)).2).symm))
    (contended_of_chipOff (off _ n false (fun c hc => (hm c hc).2) (by simpa [writeOf, ChipOff] using off1)))]
  simp [performAll, writeOf, eventOf, advance_eq, State.emit, State.setLats]

/-- The masks over a pin sequence that holds none of the control pins name none of them. -/
theorem groups_not_control {b : Board} {n : Nat} (pins : Vector Pin n)
    (h : ∀ c ∈ [b.ce, b.oe, b.we], ∀ i, pins.get i ≠ c) (v : BitVec n) :
    ∀ c ∈ [b.ce, b.oe, b.we], maskHas (setGroup pins v) c = false ∧ maskHas (clearGroup pins v) c = false :=
  fun c hc => ⟨maskHas_maskFrom_of_not_mem _ _ _ (h c hc), maskHas_maskFrom_of_not_mem _ _ _ (h c hc)⟩

/-- After the set and the clear of a value's groups, the latches of the sequence hold the value, whatever they held
before. -/
theorem get_writeGroups {n : Nat} (pins : Vector Pin n) (h : pins.toList.Nodup) (v : BitVec n)
    (f : Vector (Option Bool) 32) (i : Fin n) :
    (writeLatches (writeLatches f (setGroup pins v) true) (clearGroup pins v) false).get (pins.get i) =
      some (v.getLsbD i.val) := by
  simp only [get_writeLatches, setGroup, clearGroup, maskHas_maskFrom_get pins h]
  cases v.getLsbD i.val <;> rfl

/-- They leave every other latch alone. -/
theorem get_writeGroups_of_not_mem {n : Nat} (pins : Vector Pin n) (v : BitVec n) (f : Vector (Option Bool) 32) (q : Pin)
    (h : ∀ i, pins.get i ≠ q) :
    (writeLatches (writeLatches f (setGroup pins v) true) (clearGroup pins v) false).get q = f.get q := by
  simp only [get_writeLatches, setGroup, clearGroup, maskHas_maskFrom_of_not_mem pins _ q h]
  rfl

/-- A single-pin step on a control pin other than WE after which the chip meets no Output data pin. -/
theorem perform_control {w : World} {s : State} {p : Pin} {b : Bool} (ha : s.acq = .acquired) (hp : p ≠ w.board.we)
    (hc : contended w.board (s.setLat p b) = false) :
    perform w (if b then .setPinHigh p else .setPinLow p) s =
      .next ((s.setLat p b).emit (if b then .pinHigh p else .pinLow p)) := by
  have e : drive s w.board.we = drive (s.setLat p b) w.board.we :=
    drive_congr (by simp) (by simp [Ne.symm hp])
  cases b
  · exact perform_quiet (m := .setPinLow p) ha rfl (NoRise.of_eq e) hc
  · exact perform_quiet (m := .setPinHigh p) ha rfl (NoRise.of_eq e) hc

/-! ### Sampling -/

theorem sense_congr {w : World} {s t : State} (hd : s.dir = t.dir) (hl : s.lat = t.lat) (hc : s.chip = t.chip)
    (hm : s.mem = t.mem) (ht : s.trace.length = t.trace.length) (p : Pin) : sense w s p = sense w t p := by
  have h : ∀ q, drive s q = drive t q := fun q => drive_congr (dirOf_congr hd q) (latOf_congr hl q)
  have ha : chipAddress w s = chipAddress w t := by
    unfold chipAddress
    congr 2
    exact List.map_congr_left fun q _ => by simp only [seen, h, ht]
  simp only [sense, line, chipBit, chipDrives, h, hc, hm, ha, ht]
  rfl

/-- The levels read on a list of pins one after another, each read one moment after the one before it. -/
def sampledLevels (w : World) : List Pin → State → List Bool
  | [], _      => []
  | p :: ps, s => sense w s p :: sampledLevels w ps (s.emit (.sample p (sense w s p)))

@[simp] theorem length_sampledLevels (w : World) (ps : List Pin) (s : State) :
    (sampledLevels w ps s).length = ps.length := by
  induction ps generalizing s with
  | nil => rfl
  | cons p ps ih => simp [sampledLevels, ih]

theorem sampledLevels_congr {w : World} {ps : List Pin} {s t : State} (hd : s.dir = t.dir) (hl : s.lat = t.lat)
    (hc : s.chip = t.chip) (hm : s.mem = t.mem) (ht : s.trace.length = t.trace.length) :
    sampledLevels w ps s = sampledLevels w ps t := by
  induction ps generalizing s t with
  | nil => rfl
  | cons p ps ih =>
    have e := sense_congr (w := w) hd hl hc hm ht p
    simp only [sampledLevels, e]
    rw [ih (s := s.emit (.sample p (sense w t p))) (t := t.emit (.sample p (sense w t p))) hd hl hc hm (by simp [ht])]

/-- The samples of a list of Input pins, where the chip meets no Output data pin. -/
theorem performAll_samples {w : World} {ps : List Pin} {s : State} (ha : s.acq = .acquired)
    (hi : ∀ p ∈ ps, s.dirOf p = some .input) (hc : contended w.board s = false) :
    performAll w (ps.map .readPinLevel) s =
      .next { s with
        samples := s.samples ++ sampledLevels w ps s
        trace := s.trace ++ List.zipWith .sample ps (sampledLevels w ps s)
        seq := s.seq.plus ps.length } := by
  induction ps generalizing s with
  | nil => simp [performAll, sampledLevels]
  | cons p ps ih =>
    rw [List.map_cons, performAll_cons_quiet ha (by simp [Prim.readsNonInput, hi p (by simp)])
      (NoRise.of_eq rfl) (by rw [← hc]; exact contended_congr rfl rfl)]
    rw [ih (by simpa [writeOf] using ha) (fun q hq => by simpa [writeOf, State.dirOf] using hi q (by simp [hq]))
      (by rw [← hc]; exact contended_congr (by simp [writeOf]) (by simp [writeOf]))]
    have e : sampledLevels w ps (advance ((writeOf w s (.readPinLevel p)).emit (eventOf w s (.readPinLevel p)))) =
        sampledLevels w ps (s.emit (.sample p (sense w s p))) :=
      sampledLevels_congr (by simp [writeOf]) (by simp [writeOf]) (by simp) (by simp) (by simp)
    rw [e]
    simp [writeOf, eventOf, sampledLevels, Nat.add_comm]

end Sys2Proof.Machine
end

