-- ==== Sys2Proof/Laws/Commands.lean ====
section
/-! SUPPORT. Each command in a world, as one equation: the state it leaves from a state the spec admits it in. -/

namespace Sys2Proof

theorem Board.Wf.data_not_control {b : Board} (h : b.Wf) :
    b.ce ∉ b.data.toList ∧ b.oe ∉ b.data.toList ∧ b.we ∉ b.data.toList := by
  refine ⟨fun m => ?_, fun m => ?_, fun m => ?_⟩ <;> obtain ⟨i, e⟩ := Vector.exists_get_of_mem m
  · exact h.data_ne_ce i e
  · exact h.data_ne_oe i e
  · exact h.data_ne_we i e

theorem Board.Wf.addr_not_data {b : Board} (h : b.Wf) (i : Fin 17) : b.addr.get i ∉ b.data.toList := by
  intro m
  obtain ⟨j, e⟩ := Vector.exists_get_of_mem m
  exact h.addr_ne_data i j e.symm

end Sys2Proof

namespace Sys2Proof.Machine

/-! ### The pins of a session -/

theorem SessionPins.ce_high {b : Board} {s : State} (h : SessionPins b s) : drive s b.ce = .level true :=
  drive_eq_level.2 ⟨h.1.1, h.2.1.1⟩

theorem SessionPins.oe_high {b : Board} {s : State} (h : SessionPins b s) : drive s b.oe = .level true :=
  drive_eq_level.2 ⟨h.1.2.1, h.2.1.2.1⟩

theorem SessionPins.we_high {b : Board} {s : State} (h : SessionPins b s) : drive s b.we = .level true :=
  drive_eq_level.2 ⟨h.1.2.2, h.2.1.2.2⟩

/-- The address encode and the data directions, from the pins of a session (steps k = 0 .. 9 of READB and of WRITEB). -/
theorem performAll_addressThenDirections {w : World} (hb : w.board.Wf) {a : HostAddr} {d : PinDir} {s : State}
    (ha : s.acq = .acquired) (hp : SessionPins w.board s) :
    performAll w (encAddr w.board a ++ w.board.data.toList.map fun p => .setPinDirection p d) s =
      .next { s with
        lat := writeLatches (writeLatches s.lat (addrSet w.board a) true) (addrClr w.board a) false
        dir := setDirs s.dir w.board.data.toList d
        trace := s.trace ++ ([.setHigh (addrSet w.board a), .setLow (addrClr w.board a)] ++
          w.board.data.toList.map fun p => .dir p d)
        seq := s.seq.plus 10 } := by
  have hg := groups_not_control w.board.addr (b := w.board) hb.parts.2.2.2.2.1 (effective a)
  rw [performAll_append, encAddr,
    performAll_setThenClear (m := addrSet w.board a) (n := addrClr w.board a) ha (.inl hp.ce_high) hg, andThen_next]
  have e : ∀ c ∈ [w.board.ce, w.board.oe, w.board.we],
      (writeLatches (writeLatches s.lat (addrSet w.board a) true) (addrClr w.board a) false).get c = s.latOf c :=
    fun c hc => get_writeGroups_of_not_mem _ _ _ _ (hb.parts.2.2.2.2.1 c hc)
  rw [performAll_directions (by exact ha)]
  · simp
  · rw [State.latOf, e _ (by simp), hp.2.1.2.2]; simp
  · intro qs hq
    refine contended_setDirs_of_chipOff (.inl ?_) (fun m => hb.data_not_control.1 (hq.subset m))
      (fun m => hb.data_not_control.2.1 (hq.subset m))
    exact drive_eq_level.2 ⟨hp.1.1, by rw [State.latOf, e _ (by simp), hp.2.1.1]⟩

/-! ### SHUTDOWN -/

/-- SHUTDOWN, admitted anywhere (41_lifecycle.md rule R81). -/
theorem shutdownIn_eq {w : World} {s : State} (hs : s.seq = .idle) (ha : s.acq = .acquired) :
    shutdownIn w s = .next { s with
      acq := .released
      dir := Vector.replicate 32 none
      lat := Vector.replicate 32 none
      trace := s.trace ++ [.closed]
      samples := []
      answers := s.answers ++ [.nothing] } := by
  have h : performAll w shutdownSteps (accept .shutdown s) = .next (advance
      ((writeOf w (accept .shutdown s) .close).emit .closed)) := by
    rw [shutdownSteps, performAll_cons_quiet (by simpa using ha) rfl]
    · rfl
    · intro _
      rw [drive_of_none (by simp [writeOf, State.dirOf, State.clearPins, Vector.get_eq_getElem])]
      simp
    · exact contended_of_unset fun i => by simp [writeOf, State.dirOf, State.clearPins, Vector.get_eq_getElem]
  simp only [shutdownIn, admission, hs, ha, if_true, andThen_next, h]
  simp [complete, advance_eq, State.emit, writeOf, State.clearPins, accept]

/-! ### INIT -/

/-- A state with no pin set meets no contention, whatever its other fields. -/
theorem contended_of_pinsUnset {b : Board} {s t : State} (h : PinsUnset s) (e : t.dir = s.dir) :
    contended b t = false :=
  contended_of_unset fun i => by rw [dirOf_congr e]; exact (h _).1

/-- `open()` from a state with no pin set. -/
theorem perform_acquire {w : World} {s : State} (h : PinsUnset s) :
    perform w .acquire s = .next ((writeOf w s .acquire).emit (.opened (w.openOk s.trace.length))) := by
  have e : effect w .acquire s = (writeOf w s .acquire).emit (.opened (w.openOk s.trace.length)) :=
    chipReact_of_noRise (NoRise.of_eq rfl)
  exact perform_eq_next.2 ⟨fun h => by simp [Prim.needsPeripheral] at h, rfl,
    by rw [e]; exact contended_of_pinsUnset h rfl, e.symm⟩

/-- INIT when `open()` fails (60_exceptions.md rule R124). -/
theorem initIn_failed {w : World} {s : State} (hs : s.seq = .idle) (ha : s.acq = .released) (hp : PinsUnset s)
    (ho : w.openOk s.trace.length = false) :
    initIn w s = .next { s with
      trace := s.trace ++ [.opened false]
      samples := []
      answers := s.answers ++ [.initError] } := by
  have h : PinsUnset (accept .init s) := hp
  simp only [initIn, admission, hs, ha, if_true, andThen_next, perform_acquire h]
  simp [writeOf, ho, raiseInitError, complete, advance_eq, State.emit, ha, accept]

/-- INIT when `open()` succeeds (rule R80). -/
theorem initIn_ok {w : World} (hb : w.board.Wf) {s : State} (hs : s.seq = .idle) (ha : s.acq = .released)
    (hp : PinsUnset s) (ho : w.openOk s.trace.length = true) :
    initIn w s = .next { s with
      acq := .acquired
      dir := setDirs s.dir ([w.board.ce, w.board.oe, w.board.we] ++ w.board.addr.toList) .output
      lat := writeLatches s.lat (ctrlAll w.board) true
      trace := s.trace ++ initEvents w.board
      samples := []
      answers := s.answers ++ [.ok] } := by
  have h : PinsUnset (accept .init s) := hp
  have split : initConfigure w.board = .setPinsHigh (ctrlAll w.board) ::
      (([w.board.ce, w.board.oe, w.board.we] ++ w.board.addr.toList).map (fun p => Prim.setPinDirection p .output) ++
        [.inform .registerTeardown, .inform .registerBackend]) := by
    simp [initConfigure]
  have nodata : ∀ i, w.board.data.get i ∉ [w.board.ce, w.board.oe, w.board.we] ++ w.board.addr.toList := by
    intro i hm
    rcases List.mem_append.1 hm with hm | hm
    · simp only [List.mem_cons, List.not_mem_nil, or_false] at hm
      rcases hm with e | e | e
      · exact hb.data_ne_ce i e
      · exact hb.data_ne_oe i e
      · exact hb.data_ne_we i e
    · obtain ⟨j, e⟩ := Vector.exists_get_of_mem hm
      exact hb.addr_ne_data j i e
  have off : ∀ t : State, ∀ qs, qs <+: [w.board.ce, w.board.oe, w.board.we] ++ w.board.addr.toList →
      t.dir = setDirs s.dir qs .output → contended w.board t = false := by
    intro t qs hq e
    refine contended_of_unset fun i => ?_
    rw [State.dirOf, e, get_setDirs, if_neg fun m => nodata i (hq.subset m)]
    exact (hp _).1
  simp only [initIn, admission, hs, ha, if_true, andThen_next, perform_acquire h]
  rw [if_neg (by simp [writeOf, ho]), split, performAll_cons_quiet (m := .setPinsHigh (ctrlAll w.board))
    (by simp [writeOf, ho]) rfl (NoRise.of_latch (by
      have : (writeOf w (accept .init s) .acquire).latOf w.board.we = none := (hp _).2
      simp [this])) (contended_of_pinsUnset hp (by simp [writeOf]))]
  rw [performAll_append, performAll_directions (by simp [writeOf, ho]) ?_ ?_, andThen_next]
  · rw [performAll_cons_quiet (m := .inform .registerTeardown) (by simp [writeOf, ho]) rfl (NoRise.of_eq rfl)
      (off _ _ (List.prefix_refl _) (by simp [writeOf]))]
    rw [performAll_cons_quiet (m := .inform .registerBackend) (by simp [writeOf, ho]) rfl (NoRise.of_eq rfl)
      (off _ _ (List.prefix_refl _) (by simp [writeOf]))]
    simp [performAll, complete, advance_eq, State.emit, writeOf, eventOf, ho, accept, initEvents, State.setLats]
  · simp [writeOf, maskHas_ctrlAll]
  · intro qs hq
    exact off _ qs hq (by simp [writeOf])

/-! ### WRITEB -/

/-- The write strobe (steps k = 12 .. 15 of WRITEB): the chip stores the held byte at the held address. -/
theorem performAll_writeStrobe {w : World} (hb : w.board.Wf) {ea : EffAddr} {v : Byte} {s : State}
    (ha : s.acq = .acquired) (hp : SessionPins w.board s) (hea : AddressHolds w.board s ea)
    (hd : DataDirection w.board s (some .output)) (hv : DataHolds w.board s v) :
    performAll w [.setPinLow w.board.ce, .setPinLow w.board.we, .setPinHigh w.board.we, .setPinHigh w.board.ce] s =
      .next { s with
        lat := (((s.lat.set w.board.ce.val (some false)).set w.board.we.val (some false)).set w.board.we.val
          (some true)).set w.board.ce.val (some true)
        trace := s.trace ++ [.pinLow w.board.ce, .pinLow w.board.we, .pinHigh w.board.we, .pinHigh w.board.ce]
        seq := s.seq.plus 4
        mem := Memory.write s.mem ea.toNat v } := by
  obtain ⟨⟨hce, hoe, hwe⟩, ⟨lce, loe, lwe⟩, hao⟩ := hp
  have n1 := hb.ce_ne_oe
  have n2 := hb.ce_ne_we
  have n3 := hb.oe_ne_we
  have off : ∀ t : State, t.dirOf w.board.oe = some .output → t.latOf w.board.oe = some true →
      contended w.board t = false := fun t h1 h2 => contended_of_chipOff (.inr (drive_eq_level.2 ⟨h1, h2⟩))
  rw [performAll_cons_quiet (m := .setPinLow w.board.ce) ha rfl
    (NoRise.of_latch (by rw [lwe]; simp)) (off _ hoe (by simp [writeOf, n1.symm, loe]))]
  rw [performAll_cons_quiet (m := .setPinLow w.board.we) (by simpa [writeOf] using ha) rfl
    (NoRise.of_latch (by simp [writeOf, n2.symm, lwe])) (off _ (by simpa [writeOf] using hoe)
      (by simp [writeOf, n1.symm, n3, loe]))]
  have rise : ∀ u : State, u.acq = .acquired → u.dir = s.dir →
      u.lat = (s.lat.set w.board.ce.val (some false)).set w.board.we.val (some false) → u.mem = s.mem →
      perform w (.setPinHigh w.board.we) u = .next { (u.setLat w.board.we true).emit (.pinHigh w.board.we) with
        mem := Memory.write s.mem ea.toNat v } := by
    intro u hu ud ul um
    have gd : ∀ q, u.dirOf q = s.dirOf q := dirOf_congr ud
    have gl : ∀ q, u.latOf q = if q = w.board.we then some false else if q = w.board.ce then some false else s.latOf q := by
      intro q
      rw [State.latOf, ul, get_set, get_set]
      rfl
    have h1 : drive u w.board.we = .level false := drive_eq_level.2 ⟨by rw [gd, hwe], by simp [gl]⟩
    have h2 : drive ((u.setLat w.board.we true).emit (.pinHigh w.board.we)) w.board.we = .level true :=
      drive_eq_level.2 ⟨by simp [gd, hwe], by simp⟩
    have h3 : drive ((u.setLat w.board.we true).emit (.pinHigh w.board.we)) w.board.ce = .level false :=
      drive_eq_level.2 ⟨by simp [gd, hce], by simp [gl, n2]⟩
    have h4 : chipAddress w ((u.setLat w.board.we true).emit (.pinHigh w.board.we)) = ea :=
      chipAddress_of_holds (fun i => by simp [gd, hao i])
        (fun i => by simp [gl, hb.addr_ne_we i, hb.addr_ne_ce i, hea i])
    have h5 : chipData w ((u.setLat w.board.we true).emit (.pinHigh w.board.we)) = v :=
      chipData_of_holds (fun i => by simp [gd, hd i])
        (fun i => by simp [gl, hb.data_ne_we i, hb.data_ne_ce i, hv i])
    have e : effect w (.setPinHigh w.board.we) u = { (u.setLat w.board.we true).emit (.pinHigh w.board.we) with
        mem := Memory.write u.mem (chipAddress w ((u.setLat w.board.we true).emit (.pinHigh w.board.we))).toNat
          (chipData w ((u.setLat w.board.we true).emit (.pinHigh w.board.we))) } := chipReact_of_rise h1 h2 h3
    rw [h4, h5, um] at e
    refine perform_eq_next.2 ⟨fun _ => hu, rfl, off _ ?_ ?_, ?_⟩
    · rw [e]; simp [State.dirOf, ← hoe, ud]
    · rw [e]
      show ((u.setLat w.board.we true).emit (.pinHigh w.board.we)).latOf w.board.oe = _
      simp [gl, n3, n1.symm, loe]
    · rw [e]
  rw [performAll, rise _ (by simpa [writeOf] using ha) (by simp [writeOf]) (by simp [writeOf]) (by simp [writeOf]),
    andThen_next]
  rw [performAll_cons_quiet (m := .setPinHigh w.board.ce) (by simpa [writeOf] using ha) rfl
    (NoRise.of_eq (drive_congr rfl (by simp [writeOf, n2.symm]))) (off _ ?_ ?_)]
  · simp [performAll, writeOf, eventOf, advance_eq, State.emit, State.setLat]
  · simp [writeOf, State.dirOf, advance_eq, State.emit, State.setLat]
    exact hoe
  · simp only [writeOf, latOf_setLat, n1.symm, if_false]
    simp [State.latOf, advance_eq, State.emit, State.setLat, get_set, n1.symm, n3]
    exact loe

/-- The latch file after one WRITEB. -/
def writebLatches (b : Board) (a : HostAddr) (v : Byte) (f : Vector (Option Bool) 32) : Vector (Option Bool) 32 :=
  ((((writeLatches (writeLatches (writeLatches (writeLatches f (addrSet b a) true) (addrClr b a) false) (dataSet b v) true)
    (dataClr b v) false).set b.ce.val (some false)).set b.we.val (some false)).set b.we.val (some true)).set b.ce.val
    (some true)

/-- WRITEB from the pins of a session (rule R100). -/
theorem writebIn_eq {w : World} (hb : w.board.Wf) {a : HostAddr} {v : Byte} {s : State} (h : SessionReady w.board s) :
    writebIn w a v s = .next { s with
      dir := setDirs s.dir w.board.data.toList .output
      lat := writebLatches w.board a v s.lat
      trace := s.trace ++ (writebPrepare w.board a v ++ writebStrobe w.board)
      samples := []
      answers := s.answers ++ [.nothing]
      mem := Memory.write s.mem (effective a).toNat v } := by
  obtain ⟨hs, ha, hp⟩ := h
  have hga := hb.parts.2.2.2.2.1
  have hgd := hb.parts.2.2.2.1
  have nc := hb.data_not_control
  simp only [writebIn, admission, hs, ha, if_true, andThen_next]
  rw [writebSteps, performAll_append, performAll_append,
    performAll_addressThenDirections hb (by simpa using ha) (by exact hp), andThen_next]
  have eCtl : ∀ c ∈ [w.board.ce, w.board.oe, w.board.we],
      (writeLatches (writeLatches s.lat (addrSet w.board a) true) (addrClr w.board a) false).get c = s.latOf c :=
    fun c hc => get_writeGroups_of_not_mem _ _ _ _ (hga c hc)
  have eCtl2 : ∀ (f : Vector (Option Bool) 32), ∀ c ∈ [w.board.ce, w.board.oe, w.board.we],
      (writeLatches (writeLatches f (dataSet w.board v) true) (dataClr w.board v) false).get c = f.get c :=
    fun f c hc => get_writeGroups_of_not_mem _ _ _ _ (hgd c hc)
  have hdir : ∀ q, q ∉ w.board.data.toList → (setDirs s.dir w.board.data.toList .output).get q = s.dirOf q := by
    intro q hq
    rw [get_setDirs, if_neg hq]
    rfl
  rw [performAll_setThenClear (m := dataSet w.board v) (n := dataClr w.board v) (by simpa using ha)
    (.inl (drive_eq_level.2 ⟨?_, ?_⟩)) (groups_not_control w.board.data (b := w.board) hgd v), andThen_next]
  · rw [performAll_writeStrobe hb (ea := effective a) (v := v) (by simpa using ha)]
    · simp [complete, writebPrepare, writebStrobe, writebLatches, accept, ha]
    · refine ⟨⟨?_, ?_, ?_⟩, ⟨?_, ?_, ?_⟩, fun i => ?_⟩
      · exact (hdir _ nc.1).trans hp.1.1
      · exact (hdir _ nc.2.1).trans hp.1.2.1
      · exact (hdir _ nc.2.2).trans hp.1.2.2
      · exact (eCtl2 _ _ (by simp)).trans ((eCtl _ (by simp)).trans hp.2.1.1)
      · exact (eCtl2 _ _ (by simp)).trans ((eCtl _ (by simp)).trans hp.2.1.2.1)
      · exact (eCtl2 _ _ (by simp)).trans ((eCtl _ (by simp)).trans hp.2.1.2.2)
      · exact (hdir _ (hb.addr_not_data i)).trans (hp.2.2 i)
    · intro i
      refine (get_writeGroups_of_not_mem w.board.data v _ _ fun j => (hb.addr_ne_data i j).symm).trans ?_
      exact get_writeGroups w.board.addr hb.addr_nodup (effective a) s.lat i
    · intro i
      show (setDirs s.dir w.board.data.toList .output).get _ = _
      rw [get_setDirs, if_pos (Vector.get_mem_toList _ _)]
    · exact fun i => get_writeGroups w.board.data hb.data_nodup v _ i
  · exact (hdir _ nc.1).trans hp.1.1
  · exact (eCtl _ (by simp)).trans hp.2.1.1

/-! ### READB -/

/-- The state in which READB takes its first sample (step k = 12), but for `seq`. -/
def readbWindow (b : Board) (a : HostAddr) (s : State) : State :=
  { s with
    dir := setDirs s.dir b.data.toList .input
    lat := ((writeLatches (writeLatches s.lat (addrSet b a) true) (addrClr b a) false).set b.ce.val (some false)).set
      b.oe.val (some false)
    trace := s.trace ++ ([.setHigh (addrSet b a), .setLow (addrClr b a)] ++ b.data.toList.map (fun p => .dir p .input) ++
      [.pinLow b.ce, .pinLow b.oe]) }

/-- The levels READB samples. -/
def readbLevels (w : World) (a : HostAddr) (s : State) : List Bool :=
  sampledLevels w w.board.data.toList (readbWindow w.board a s)

/-- Each sampled level is read in a state with the same pins, chip and memory, `i` moments later. -/
theorem sampledLevels_get {w : World} (ps : List Pin) (s : State) (i : Nat) (p : Pin) (h : ps[i]? = some p) :
    ∃ u : State, u.dir = s.dir ∧ u.lat = s.lat ∧ u.chip = s.chip ∧ u.mem = s.mem ∧
    u.trace.length = s.trace.length + i ∧
    (sampledLevels w ps s)[i]? = some (sense w u p) := by
  induction ps generalizing s i with
  | nil => simp at h
  | cons q ps ih =>
    cases i with
    | zero =>
      simp at h; subst h
      exact ⟨s, rfl, rfl, rfl, rfl, rfl, rfl⟩
    | succ i =>
      obtain ⟨u, h1, h2, h3, h4, h5, h6⟩ := ih (s.emit (.sample q (sense w s q))) i (by simpa using h)
      refine ⟨u, h1, h2, h3, h4, ?_, h6⟩
      rw [h5]; simp; omega

/-- Inside the read window a data pin is read at the bit of the byte that stands at the address, or at a draw. -/
theorem sense_inWindow {w : World} (hb : w.board.Wf) {a : HostAddr} {s u : State} (h : SessionPins w.board s)
    (hd : u.dir = (readbWindow w.board a s).dir) (hl : u.lat = (readbWindow w.board a s).lat) (hc : u.chip = s.chip)
    (hm : u.mem = s.mem) (i : Fin 8) :
    sense w u (w.board.data.get i) =
      match (if s.chip = .echo then Memory.read s.mem (effective a).toNat else none) with
      | some v => v.getLsbD i.val
      | none => w.ext u.trace.length (w.board.data.get i) := by
  have gd : ∀ q, u.dirOf q = if q ∈ w.board.data.toList then some .input else s.dirOf q := by
    intro q; rw [State.dirOf, hd]; simp only [readbWindow, get_setDirs]; rfl
  have n1 := hb.ce_ne_oe
  have nc := hb.data_not_control
  have ctl : chipDrives w.board u = true := by
    rw [chipDrives_eq_true]
    refine ⟨drive_eq_level.2 ⟨?_, ?_⟩, drive_eq_level.2 ⟨?_, ?_⟩⟩
    · rw [gd, if_neg nc.1]; exact h.1.1
    · rw [State.latOf, hl]; simp [readbWindow, get_set, n1]
    · rw [gd, if_neg nc.2.1]; exact h.1.2.1
    · rw [State.latOf, hl]; simp [readbWindow, get_set]
  have ad : chipAddress w u = effective a := by
    refine chipAddress_of_holds (fun j => ?_) (fun j => ?_)
    · rw [gd, if_neg (hb.addr_not_data j)]; exact h.2.2 j
    · rw [State.latOf, hl]; simp only [readbWindow, get_set, hb.addr_ne_ce, hb.addr_ne_oe, if_false]
      exact get_writeGroups _ hb.addr_nodup _ _ j
  have dr : drive u (w.board.data.get i) = .draw := drive_of_input (by rw [gd, if_pos (Vector.get_mem_toList _ _)])
  have ix : w.board.data.toList.idxOf? (w.board.data.get i) = some i.val := by
    rw [List.idxOf?_eq_some_iff]
    refine ⟨by simp, by simp [Vector.get_eq_getElem], ?_⟩
    intro j hj e
    have := (List.Nodup.getElem_inj_iff hb.data_nodup (i := j) (j := i.val) (hi := by simp; omega) (hj := by simp)).1
      (by simpa [Vector.get_eq_getElem] using e)
    omega
  simp only [sense, line, dr, chipBit, ctl, if_true, hc, hm, ad, ix]
  cases hk : s.chip with
  | unspecified => simp
  | echo =>
    cases hr : Memory.read s.mem (effective a).toNat <;> simp

/-- READB from the pins of a session (rule R110). -/
theorem readbIn_eq {w : World} (hb : w.board.Wf) {a : HostAddr} {s : State} (h : SessionReady w.board s) :
    readbIn w a s = .next { s with
      dir := setDirs s.dir w.board.data.toList .input
      lat := ((((writeLatches (writeLatches s.lat (addrSet w.board a) true) (addrClr w.board a) false).set
        w.board.ce.val (some false)).set w.board.oe.val (some false)).set w.board.oe.val (some true)).set
        w.board.ce.val (some true)
      trace := s.trace ++ (readbPrepare w.board a ++ readbWindowEvents w.board (readbLevels w a s))
      samples := []
      answers := s.answers ++ [.byte (byteOfSamples (readbLevels w a s))] } := by
  obtain ⟨hs, ha, hp⟩ := h
  have n1 := hb.ce_ne_oe
  have n2 := hb.ce_ne_we
  have n3 := hb.oe_ne_we
  have lwe : (writeLatches (writeLatches s.lat (addrSet w.board a) true) (addrClr w.board a) false).get w.board.we =
      some true :=
    (get_writeGroups_of_not_mem _ _ _ _ (hb.parts.2.2.2.2.1 _ (by simp))).trans hp.2.1.2.2
  have inp : ∀ t : State, t.dir = setDirs s.dir w.board.data.toList .input →
      ∀ p ∈ w.board.data.toList, t.dirOf p = some .input := by
    intro t ht p hm
    rw [State.dirOf, ht, get_setDirs, if_pos hm]
  have off : ∀ t : State, t.dir = setDirs s.dir w.board.data.toList .input → contended w.board t = false :=
    fun t ht => contended_of_input fun i => inp t ht _ (Vector.get_mem_toList _ _)
  simp only [readbIn, admission, hs, ha, if_true, andThen_next]
  rw [readbSteps, performAll_append, performAll_append, performAll_append,
    performAll_addressThenDirections hb (by simpa using ha) (by exact hp), andThen_next]
  rw [performAll_cons_quiet (m := .setPinLow w.board.ce) (by simpa using ha) rfl
    (NoRise.of_latch (by simp [State.latOf, lwe])) (off _ (by simp [writeOf]))]
  rw [performAll_cons_quiet (m := .setPinLow w.board.oe) (by simpa [writeOf] using ha) rfl
    (NoRise.of_latch (by simp [writeOf, n2.symm, State.latOf, get_set, lwe])) (off _ (by simp [writeOf]))]
  simp only [performAll, andThen_next]
  rw [performAll_samples (by simpa [writeOf] using ha) (inp _ (by simp [writeOf])) (off _ (by simp [writeOf])), andThen_next]
  rw [sampledLevels_congr (t := readbWindow w.board a s) (by simp [writeOf, readbWindow]) (by simp [writeOf, readbWindow])
    (by simp [readbWindow]) (by simp [readbWindow]) (by simp [readbWindow, eventOf]), ← readbLevels]
  rw [perform_quiet (m := .setPinHigh w.board.oe) (by simpa [writeOf] using ha) rfl
    (NoRise.of_eq (drive_congr rfl (by simp [writeOf, n3.symm]))) (off _ (by simp [writeOf])), andThen_next]
  rw [perform_quiet (m := .setPinHigh w.board.ce) (by simpa [writeOf] using ha) rfl
    (NoRise.of_eq (drive_congr rfl (by simp [writeOf, n2.symm]))) (off _ (by simp [writeOf])), andThen_next, andThen_next]
  simp [complete, advance_eq, State.emit, State.setLat, writeOf, eventOf, accept, ha, readbPrepare, readbWindowEvents]

end Sys2Proof.Machine
end

