-- ==== Sys2Proof/Laws/PerInstr.lean ====
section
/-! SUPPORT. One statement about every command as syntax: its word is canonical (30_encoding.md rules R54 and R64). -/

namespace Sys2Proof.Laws.EncodeCanonical

/-- The command is well formed, its word carries its row's `op`, and every field it does not use is zero. -/
def Statement (i : Instr) : Prop :=
  i.WellFormed = true ∧ (encode i).Canonical ∧
  (encode i).op = match i with
    | .init       => 0#2
    | .shutdown   => 1#2
    | .readb _    => 2#2
    | .writeb _ _ => 3#2

theorem init : Statement .init := ⟨rfl, ⟨by decide, by decide⟩, by decide⟩

theorem shutdown : Statement .shutdown := ⟨rfl, ⟨by decide, by decide⟩, by decide⟩

theorem readb (addr : HostAddr) : Statement (.readb addr) := by
  have ho : (encode (.readb addr)).op = 2#2 := by
    apply BitVec.eq_of_getLsbD_eq
    intro i hi
    simp only [encode, Word.op, BitVec.getLsbD_extractLsb', BitVec.getLsbD_or, BitVec.truncate_eq_setWidth,
      BitVec.getLsbD_setWidth, BitVec.getLsbD_of_ge addr (40 + i) (by omega)]
    interval_cases i <;> decide
  refine ⟨rfl, ?_, ho⟩
  simp only [Word.Canonical, ho]
  apply BitVec.eq_of_getLsbD_eq
  intro i hi
  simp only [encode, Word.val, BitVec.getLsbD_extractLsb', BitVec.getLsbD_or, BitVec.truncate_eq_setWidth,
    BitVec.getLsbD_setWidth, BitVec.getLsbD_of_ge addr (32 + i) (by omega)]
  interval_cases i <;> decide

theorem writeb (addr : HostAddr) (val : Byte) : Statement (.writeb addr val) := by
  have ho : (encode (.writeb addr val)).op = 3#2 := by
    apply BitVec.eq_of_getLsbD_eq
    intro i hi
    simp only [encode, Word.op, BitVec.getLsbD_extractLsb', BitVec.getLsbD_or, BitVec.truncate_eq_setWidth,
      BitVec.getLsbD_setWidth, BitVec.getLsbD_shiftLeft, BitVec.getLsbD_of_ge addr (40 + i) (by omega),
      BitVec.getLsbD_of_ge val (40 + i - 32) (by omega)]
    interval_cases i <;> decide
  refine ⟨rfl, ?_, ho⟩
  simp only [Word.Canonical, ho]
  trivial

end Sys2Proof.Laws.EncodeCanonical
end

