-- ==== Sys2Proof/Laws/Positions.lean ====
section
/-! SUPPORT. Which primitive stands at which position of a step list (41_lifecycle.md rule R80, 43_byte_writer.md rule
R100, 44_byte_reader.md rule R110). -/

namespace Sys2Proof.Machine

theorem getElem?_map_pins {n : Nat} (v : Vector Pin n) (f : Pin → Prim) {j : Nat} {m : Prim}
    (h : (v.toList.map f)[j]? = some m) : ∃ i : Fin n, j = i.val ∧ m = f (v.get i) := by
  obtain ⟨hj, rfl⟩ := List.getElem?_eq_some_iff.1 h
  exact ⟨⟨j, by simpa using hj⟩, rfl, by simp [Vector.get_eq_getElem]⟩

theorem getElem?_append_cases {l₁ l₂ : List Prim} {n j : Nat} (hn : l₁.length = n) {m : Prim}
    (h : (l₁ ++ l₂)[j]? = some m) :
    l₁[j]? = some m ∨ ∃ i, j = n + i ∧ l₂[i]? = some m := by
  subst hn
  rw [List.getElem?_append] at h
  split_ifs at h with hj
  · exact .inl h
  · exact .inr ⟨j - l₁.length, by omega, h⟩

theorem getElem?_pair {a b m : Prim} {j : Nat} (h : [a, b][j]? = some m) : (j = 0 ∧ m = a) ∨ (j = 1 ∧ m = b) := by
  match j, h with
  | 0, h => exact .inl ⟨rfl, by simpa using h.symm⟩
  | 1, h => exact .inr ⟨rfl, by simpa using h.symm⟩
  | j + 2, h => simp at h

/-- The steps of READB. -/
theorem readbSteps_at {b : Board} {a : HostAddr} {k : Nat} {m : Prim}
    (h : (readbSteps b a)[k]? = some m) :
    (k = 0 ∧ m = .setPinsHigh (addrSet b a)) ∨ (k = 1 ∧ m = .setPinsLow (addrClr b a)) ∨
    (∃ i : Fin 8, k = 2 + i.val ∧ m = .setPinDirection (b.data.get i) .input) ∨
    (k = 10 ∧ m = .setPinLow b.ce) ∨ (k = 11 ∧ m = .setPinLow b.oe) ∨
    (∃ i : Fin 8, k = 12 + i.val ∧ m = .readPinLevel (b.data.get i)) ∨
    (k = 20 ∧ m = .setPinHigh b.oe) ∨ (k = 21 ∧ m = .setPinHigh b.ce) := by
  replace h := getElem?_append_cases (n := 20) (by simp [encAddr]) h
  rcases h with h | ⟨j, rfl, h⟩
  · replace h := getElem?_append_cases (n := 12) (by simp [encAddr]) h
    rcases h with h | ⟨j, rfl, h⟩
    · replace h := getElem?_append_cases (n := 10) (by simp [encAddr]) h
      rcases h with h | ⟨j, rfl, h⟩
      · replace h := getElem?_append_cases (n := 2) (by simp [encAddr]) h
        rcases h with h | ⟨j, rfl, h⟩
        · have := getElem?_pair h; tauto
        · obtain ⟨i, rfl, rfl⟩ := getElem?_map_pins _ _ h
          exact .inr (.inr (.inl ⟨i, rfl, rfl⟩))
      · rcases getElem?_pair h with ⟨rfl, rfl⟩ | ⟨rfl, rfl⟩ <;> simp
    · obtain ⟨i, rfl, rfl⟩ := getElem?_map_pins _ _ h
      exact .inr (.inr (.inr (.inr (.inr (.inl ⟨i, rfl, rfl⟩)))))
  · rcases getElem?_pair h with ⟨rfl, rfl⟩ | ⟨rfl, rfl⟩ <;> simp

/-- The steps of WRITEB. -/
theorem writebSteps_at {b : Board} {a : HostAddr} {v : Byte} {k : Nat} {m : Prim}
    (h : (writebSteps b a v)[k]? = some m) :
    (k = 0 ∧ m = .setPinsHigh (addrSet b a)) ∨ (k = 1 ∧ m = .setPinsLow (addrClr b a)) ∨
    (∃ i : Fin 8, k = 2 + i.val ∧ m = .setPinDirection (b.data.get i) .output) ∨
    (k = 10 ∧ m = .setPinsHigh (dataSet b v)) ∨ (k = 11 ∧ m = .setPinsLow (dataClr b v)) ∨
    (k = 12 ∧ m = .setPinLow b.ce) ∨ (k = 13 ∧ m = .setPinLow b.we) ∨
    (k = 14 ∧ m = .setPinHigh b.we) ∨ (k = 15 ∧ m = .setPinHigh b.ce) := by
  replace h := getElem?_append_cases (n := 12) (by simp [encAddr]) h
  rcases h with h | ⟨j, rfl, h⟩
  · replace h := getElem?_append_cases (n := 10) (by simp [encAddr]) h
    rcases h with h | ⟨j, rfl, h⟩
    · replace h := getElem?_append_cases (n := 2) (by simp [encAddr]) h
      rcases h with h | ⟨j, rfl, h⟩
      · have := getElem?_pair h; tauto
      · obtain ⟨i, rfl, rfl⟩ := getElem?_map_pins _ _ h
        exact .inr (.inr (.inl ⟨i, rfl, rfl⟩))
    · rcases getElem?_pair h with ⟨rfl, rfl⟩ | ⟨rfl, rfl⟩ <;> simp
  · replace h := getElem?_append_cases (l₁ := [.setPinLow b.ce, .setPinLow b.we])
      (l₂ := [.setPinHigh b.we, .setPinHigh b.ce]) (n := 2) rfl h
    rcases h with h | ⟨j, rfl, h⟩
    · rcases getElem?_pair h with ⟨rfl, rfl⟩ | ⟨rfl, rfl⟩ <;> simp
    · rcases getElem?_pair h with ⟨rfl, rfl⟩ | ⟨rfl, rfl⟩ <;> simp

/-- The steps of INIT. -/
theorem initSteps_at {b : Board} {k : Nat} {m : Prim} (h : (initSteps b)[k]? = some m) :
    (k = 0 ∧ m = .acquire) ∨ (k = 1 ∧ m = .setPinsHigh (ctrlAll b)) ∨
    (k = 2 ∧ m = .setPinDirection b.ce .output) ∨ (k = 3 ∧ m = .setPinDirection b.oe .output) ∨
    (k = 4 ∧ m = .setPinDirection b.we .output) ∨
    (∃ i : Fin 17, k = 5 + i.val ∧ m = .setPinDirection (b.addr.get i) .output) ∨
    (k = 22 ∧ m = .inform .registerTeardown) ∨ (k = 23 ∧ m = .inform .registerBackend) := by
  replace h := getElem?_append_cases (l₁ := .acquire :: ([.setPinsHigh (ctrlAll b), .setPinDirection b.ce .output,
    .setPinDirection b.oe .output, .setPinDirection b.we .output] ++
      b.addr.toList.map (fun p => Prim.setPinDirection p .output))) (n := 22) (by simp) h
  rcases h with h | ⟨j, rfl, h⟩
  · replace h := getElem?_append_cases (l₁ := [.acquire, .setPinsHigh (ctrlAll b), .setPinDirection b.ce .output,
      .setPinDirection b.oe .output, .setPinDirection b.we .output]) (n := 5) (by simp) h
    rcases h with h | ⟨j, rfl, h⟩
    · match k, h with
      | 0, h => simp at h; simp [h]
      | 1, h => simp at h; simp [h]
      | 2, h => simp at h; simp [h]
      | 3, h => simp at h; simp [h]
      | 4, h => simp at h; simp [h]
      | k + 5, h => simp at h
    · obtain ⟨i, rfl, rfl⟩ := getElem?_map_pins _ _ h
      exact .inr (.inr (.inr (.inr (.inr (.inl ⟨i, rfl, rfl⟩)))))
  · rcases getElem?_pair h with ⟨rfl, rfl⟩ | ⟨rfl, rfl⟩ <;> simp
end Sys2Proof.Machine
end

