-- ==== Sys2Proof/Laws/Step.lean ====
section
/-! SUPPORT. What admission, a command, a sequencer step and a machine step can do. -/

namespace Sys2Proof.Machine

theorem admission_eq_next {need : Ownership} {why : Refusal} {c : Instr} {s t : State} :
    admission need why c s = .next t ↔ s.seq = .idle ∧ s.acq = need ∧ t = accept c s := by
  unfold admission
  cases hs : s.seq with
  | busy c k => simp
  | idle =>
    by_cases h : s.acq = need <;> simp [h, eq_comm]

/-! ### The commands are the world's commands -/

theorem exec_init (s : State) : exec .init s = initIn Config.world s := rfl
theorem exec_shutdown (s : State) : exec .shutdown s = shutdownIn Config.world s := rfl
theorem exec_readb (a : HostAddr) (s : State) : exec (.readb a) s = readbIn Config.world a s := rfl
theorem exec_writeb (a : HostAddr) (v : Byte) (s : State) : exec (.writeb a v) s = writebIn Config.world a v s := rfl

/-- A command that completes was admitted, and ran its step list, or was an INIT whose `open()` failed. -/
theorem exec_eq_next {i : Instr} {s t : State} (h : exec i s = .next t) :
    s.seq = .idle ∧ s.acq = (match i with | .init => .released | _ => .acquired) ∧
    ((∃ u, performAll Config.world (commandSteps Config.board i) (accept i s) = .next u ∧
        t = complete (answerOf u i) u) ∨
      (i = .init ∧ ∃ u, perform Config.world .acquire (accept i s) = .next u ∧ u.acq = .released ∧
        t = raiseInitError (advance u))) := by
  cases i with
  | init =>
    rw [exec_init, initIn] at h
    obtain ⟨u, hu, h⟩ := andThen_eq_next.1 h
    obtain ⟨hs, ha, rfl⟩ := admission_eq_next.1 hu
    obtain ⟨v, hv, h⟩ := andThen_eq_next.1 h
    refine ⟨hs, ha, ?_⟩
    split at h
    · exact .inr ⟨rfl, v, hv, ‹_›, by cases h; rfl⟩
    · obtain ⟨x, hx, h⟩ := andThen_eq_next.1 h
      refine .inl ⟨x, ?_, by cases h; rfl⟩
      simp only [commandSteps, initSteps, performAll]
      rw [Config.world_board] at hx
      rw [hv, andThen_next, hx]
  | shutdown =>
    rw [exec_shutdown, shutdownIn] at h
    obtain ⟨u, hu, h⟩ := andThen_eq_next.1 h
    obtain ⟨hs, ha, rfl⟩ := admission_eq_next.1 hu
    obtain ⟨v, hv, h⟩ := andThen_eq_next.1 h
    exact ⟨hs, ha, .inl ⟨v, hv, by cases h; rfl⟩⟩
  | readb a =>
    rw [exec_readb, readbIn] at h
    obtain ⟨u, hu, h⟩ := andThen_eq_next.1 h
    obtain ⟨hs, ha, rfl⟩ := admission_eq_next.1 hu
    obtain ⟨v, hv, h⟩ := andThen_eq_next.1 h
    exact ⟨hs, ha, .inl ⟨v, hv, by cases h; rfl⟩⟩
  | writeb a v =>
    rw [exec_writeb, writebIn] at h
    obtain ⟨u, hu, h⟩ := andThen_eq_next.1 h
    obtain ⟨hs, ha, rfl⟩ := admission_eq_next.1 hu
    obtain ⟨x, hx, h⟩ := andThen_eq_next.1 h
    exact ⟨hs, ha, .inl ⟨x, hx, by cases h; rfl⟩⟩

/-- A sequencer step that completes performed the primitive at its position. -/
theorem sequencerStep_eq_next {w : World} {c : Instr} {k : Nat} {s t : State} :
    sequencerStep w c k s = .next t ↔ ∃ m u, (commandSteps w.board c)[k]? = some m ∧ perform w m s = .next u ∧
      t = afterStep (commandSteps w.board c).length c k u := by
  unfold sequencerStep
  cases (commandSteps w.board c)[k]? with
  | none => simp
  | some m =>
    simp only [andThen_eq_next, Option.some.injEq]
    constructor
    · rintro ⟨u, hu, h⟩
      exact ⟨m, u, rfl, hu, by cases h; rfl⟩
    · rintro ⟨m', u, rfl, hu, rfl⟩
      exact ⟨u, hu, rfl⟩

theorem length_initSteps (b : Board) : (initSteps b).length = 24 := by simp [initSteps, initConfigure]
theorem length_shutdownSteps : shutdownSteps.length = 1 := rfl
theorem length_readbSteps (b : Board) (a : HostAddr) : (readbSteps b a).length = 22 := by simp [readbSteps, encAddr]
theorem length_writebSteps (b : Board) (a : HostAddr) (v : Byte) : (writebSteps b a v).length = 16 := by
  simp [writebSteps, encAddr]

/-! ### The machine's step -/

theorem step_busy {s : State} {c : Instr} {k : Nat} (h : s.seq = .busy c k) :
    step s = sequencerStep Config.world c k s := by
  simp only [step, h]
  rfl

theorem step_waiting {s : State} (h : s.seq = .idle) (hp : s.pending = []) : step s = .next s := by
  simp only [step, h, takeCommand, hp]

theorem step_command {s : State} {w : Word} {rest : List Word} (h : s.seq = .idle) (hp : s.pending = w :: rest) :
    step s = exec (decode w) { s with pending := rest } := by
  simp only [step, h, takeCommand, hp]

/-- A step that completes waited, ran the host's next command, or performed one step of the command in progress. -/
theorem step_eq_next {s t : State} (h : step s = .next t) :
    (s.seq = .idle ∧ s.pending = [] ∧ t = s) ∨
    (∃ w rest, s.seq = .idle ∧ s.pending = w :: rest ∧ exec (decode w) { s with pending := rest } = .next t) ∨
    (∃ c k, s.seq = .busy c k ∧ sequencerStep Config.world c k s = .next t) := by
  cases hs : s.seq with
  | idle =>
    cases hp : s.pending with
    | nil =>
      rw [step_waiting hs hp] at h
      cases h
      exact .inl ⟨rfl, rfl, rfl⟩
    | cons w rest =>
      rw [step_command hs hp] at h
      refine .inr (.inl ⟨w, rest, rfl, rfl, ?_⟩)
      rw [← hs]
      exact h
  | busy c k =>
    rw [step_busy hs] at h
    exact .inr (.inr ⟨c, k, rfl, h⟩)

/-! ### The chip's memory across a primitive -/

/-- A primitive leaves the memory as it was, or stores one byte in it. -/
theorem effect_mem_cases (w : World) (m : Prim) (s : State) :
    (effect w m s).mem = s.mem ∨ ∃ (a : EffAddr) (v : Byte), (effect w m s).mem = Memory.write s.mem a.toNat v := by
  rcases chipReact_cases w s ((writeOf w s m).emit (eventOf w s m)) with h | ⟨-, h⟩
  · left; rw [effect, h]; simp
  · right
    refine ⟨chipAddress w ((writeOf w s m).emit (eventOf w s m)), chipData w ((writeOf w s m).emit (eventOf w s m)), ?_⟩
    rw [effect, h]
    simp

/-- Every primitive keeps the memory's canonical form. -/
theorem effect_mem_wf (w : World) (m : Prim) (s : State) (h : Memory.wf s.mem = true) :
    Memory.wf (effect w m s).mem = true := by
  rcases effect_mem_cases w m s with e | ⟨a, v, e⟩
  · rw [e]; exact h
  · rw [e]; exact Memory.wf_write _ _ _ h a.isLt

/-- Every list of primitives keeps it. -/
theorem performAll_mem_wf {w : World} {l : List Prim} {s t : State} (h : performAll w l s = .next t)
    (hm : Memory.wf s.mem = true) : Memory.wf t.mem = true := by
  induction l generalizing s with
  | nil => cases h; exact hm
  | cons m l ih =>
    obtain ⟨u, hu, h⟩ := andThen_eq_next.1 h
    obtain ⟨-, -, -, rfl⟩ := perform_eq_next.1 hu
    exact ih h (by simpa using effect_mem_wf w m s hm)

end Sys2Proof.Machine
end

