-- ==== Sys2Proof/Tests/Slice0.lean ====
section
/-! SUPPORT. Tests: words, masks and single commands from 95_test_vectors.md, the refused PinAssignments, and for every
statement with hypotheses a state that meets them. -/

namespace Sys2Proof.Tests
open Sys2Proof Sys2Proof.Machine

/-! ### Helpers -/

/-- The control pins the test vectors pick (95_test_vectors.md, Conventions): CE = 28, OE = 30, WE = 29. -/
def testBoard : Board := ⟨28, 30, 29, Config.dataPins, Config.addrPins⟩

/-- A world of the test vectors: `open()` answers `ok`, and every draw is high. -/
def testWorld (ok : Bool) : World := ⟨testBoard, fun _ => ok, fun _ _ => true⟩

/-- What a question about the next state answers; nothing after a stop. -/
def after {α : Type} (o : Result) (f : State → α) : Option α :=
  match o with
  | .next s    => some (f s)
  | .fault _   => none
  | .refused _ => none

/-- The reason of a refusal. -/
def refusal (o : Result) : Option Refusal :=
  match o with
  | .refused r => some r
  | .next _    => none
  | .fault _   => none

/-- A latch file whose groups over a pin sequence hold `v`. -/
def holding {n : Nat} (pins : Vector Pin n) (v : BitVec n) (f : Vector (Option Bool) 32) : Vector (Option Bool) 32 :=
  writeLatches (writeLatches f (setGroup pins v) true) (clearGroup pins v) false

/-- A data latch file: never written, or holding a byte. -/
def dataLatches (b : Board) : Option Byte → Vector (Option Bool) 32
  | none   => Vector.replicate 32 none
  | some v => holding b.data v (Vector.replicate 32 none)

/-- A point of a session: all address pins Outputs that hold `ea`, all data pins in direction `d` with latches `v`, the
control latches as given, at position `q`, with the levels `l` sampled. -/
def point (b : Board) (ea : EffAddr) (d : PinDir) (v : Option Byte) (ce oe we : Bool) (q : Seq)
    (l : List Bool) : State :=
  { State.reset with
    acq := .acquired
    dir := setDirs (setDirs (Vector.replicate 32 none) ([b.ce, b.oe, b.we] ++ b.addr.toList) .output) b.data.toList d
    lat := (((holding b.addr ea (dataLatches b v)).set b.ce.val (some ce)).set b.oe.val (some oe)).set b.we.val (some we)
    seq := q
    samples := l }

/-- Between two commands of a session. -/
def ready (b : Board) (ea : EffAddr) (d : PinDir) (v : Option Byte) : State := point b ea d v true true true .idle []

/-- After `k` steps of a READB, the data pins turned already. -/
def inRead (b : Board) (a : HostAddr) (k : Nat) : State :=
  point b (effective a) .input none (!(decide (11 ≤ k) && decide (k ≤ 21))) (!(decide (12 ≤ k) && decide (k ≤ 20))) true
    (.busy (.readb a) k) (List.replicate (min (k - 12) 8) true)

/-- After `k` steps of a WRITEB, the data pins turned already. -/
def inWrite (b : Board) (a : HostAddr) (v : Byte) (k : Nat) : State :=
  point b (effective a) .output (some v) (!(decide (13 ≤ k) && decide (k ≤ 15))) true (!decide (k = 14))
    (.busy (.writeb a v) k) []

/-! ### Decoding: words written out from 95_test_vectors.md 2.1 -/

theorem test_decode_init : decode 0x00000000000#42 = .init := by decide
theorem test_decode_shutdown : decode 0x10000000000#42 = .shutdown := by decide
theorem test_decode_readb : decode 0x2000001FFFF#42 = .readb 0x1FFFF#32 := by decide
theorem test_decode_writeb : decode 0x3A500020001#42 = .writeb 0x20001#32 0xA5#8 := by decide

/-- Ignored fields are not checked (30_encoding.md rule R54). -/
theorem test_decode_ignores_unused_fields :
    decode 0x0FF12345678#42 = .init ∧ decode 0x1A5FFFFFFFF#42 = .shutdown ∧ decode 0x2FF00000001#42 = .readb 1#32 := by
  decide

theorem test_encode :
    encode .init = 0x00000000000#42 ∧ encode .shutdown = 0x10000000000#42 ∧
    encode (.readb 0xFFFF5555#32) = 0x200FFFF5555#42 ∧ encode (.writeb 1#32 0x01#8) = 0x30100000001#42 := by decide

/-- No number above the command word is one (rule R50). -/
theorem test_wider_number_refused : wordOfNat (2 ^ 42) = .error .widerThanCommandWord := by rfl

theorem test_decodeTableWord : decodeTableWord 42 0x35A0000AAAA = some (.writeb 0xAAAA#32 0x5A#8) := by decide

/-! ### Well-formed PinAssignments, and an ill-formed one for each check (rule R62, R153) -/

theorem test_pinAssignment_accepted : testBoard.written.WellFormed = true := by decide

/-- Seven data pins. -/
theorem test_pinAssignment_lengths :
    ({ testBoard.written with data := [6, 13, 19, 26, 21, 20, 16] } : PinAssignment).WellFormed = false := by decide

/-- Pin id 32 is not below MASK_W. -/
theorem test_pinAssignment_belowMaskW : ({ testBoard.written with ce := 32 } : PinAssignment).WellFormed = false := by
  decide

/-- PIN_CE on an address pin. -/
theorem test_pinAssignment_distinct : ({ testBoard.written with ce := 5 } : PinAssignment).WellFormed = false := by decide

/-- Every operand is legal (rule R54). -/
theorem test_instr_wellFormed : (Instr.writeb 0xFFFFFFFF#32 0xFF#8).WellFormed = true := by decide

/-! ### Masks (95_test_vectors.md 2.2 and 2.3) -/

theorem test_masks_all :
    addrAll testBoard = 0x0BC68EBD#32 ∧ dataAll testBoard = 0x04393040#32 ∧ ctrlAll testBoard = 0x70000000#32 := by decide

theorem test_addr_masks :
    addrSet testBoard 0x00012345#32 = 0x09840824#32 ∧ addrClr testBoard 0x00012345#32 = 0x02428699#32 ∧
    addrSet testBoard 0x00010000#32 = 0x00000004#32 ∧ addrSet testBoard 0xFFFFFFFF#32 = 0x0BC68EBD#32 := by decide

theorem test_data_masks :
    dataSet testBoard 0xA5#8 = 0x00181040#32 ∧ dataClr testBoard 0xA5#8 = 0x04212000#32 ∧
    dataSet testBoard 0x80#8 = 0x00001000#32 ∧ dataClr testBoard 0x3C#8 = 0x00013040#32 := by decide

theorem test_byte_assembly :
    byteOfSamples [true, false, false, false, false, false, false, false] = 0x01#8 ∧
    byteOfSamples [true, false, true, false, false, true, false, true] = 0xA5#8 ∧
    byteOfSamples [false, false, false, false, false, false, false, true] = 0x80#8 := by decide

/-- The responses of 95_test_vectors.md 2.1. -/
theorem test_responses :
    Answer.word .ok = 0x000#9 ∧ Answer.word .initError = 0x100#9 ∧ Answer.word (.byte 0xA5#8) = 0x0A5#9 ∧
    Answer.word .nothing = 0x000#9 := by decide

/-! ### Single commands (95_test_vectors.md, programs P1 and P3) -/

/-- Program P1, `INIT`: 24 events, the answer Ok. -/
theorem test_init :
    after (initIn (testWorld true) State.reset) (fun t => (t.trace, t.answers, t.acq)) =
      some ([.opened true, .setHigh 0x70000000#32, .dir 28 .output, .dir 30 .output, .dir 29 .output, .dir 5 .output,
        .dir 0 .output, .dir 11 .output, .dir 9 .output, .dir 10 .output, .dir 22 .output, .dir 27 .output,
        .dir 17 .output, .dir 23 .output, .dir 24 .output, .dir 7 .output, .dir 25 .output, .dir 4 .output,
        .dir 18 .output, .dir 15 .output, .dir 3 .output, .dir 2 .output, .notified .registerTeardown,
        .notified .registerBackend], [.ok], .acquired) := by decide +kernel

/-- 95_test_vectors.md 2.4: a failed INIT. -/
theorem test_init_error :
    after (initIn (testWorld false) State.reset) (fun t => (t.trace, t.answers, t.acq)) =
      some ([.opened false], [.initError], .released) := by decide +kernel

/-- Program P1, `SHUTDOWN`, and its refusal at reset (2.4). -/
theorem test_shutdown :
    after (shutdownIn (testWorld true) (ready testBoard 1#17 .input (some 1#8)))
      (fun t => (t.trace, t.acq, t.dir.toList.all Option.isNone && t.lat.toList.all Option.isNone)) =
      some ([.closed], .released, true) := by decide +kernel

theorem test_shutdown_refused_at_reset :
    refusal (shutdownIn (testWorld true) State.reset) = some .sessionNotOpen := by decide +kernel

/-- Program P2, `WRITEB(0x35555, 0xA5)` after the address 0x0AAAA and the byte 0x5A: the upper address bits ignored. -/
theorem test_writeb :
    after (writebIn (testWorld true) 0x35555#32 0xA5#8 (ready testBoard 0x0AAAA#17 .output (some 0x5A#8)))
      (fun t => (t.trace.drop 10, t.mem)) =
      some ([.setHigh 0x00181040#32, .setLow 0x04212000#32, .pinLow 28, .pinLow 29, .pinHigh 29, .pinHigh 28],
        [(0x15555, 0xA5#8)]) := by decide +kernel

/-- Program P2: after the first step of that command every address line is high. -/
theorem test_address_transient :
    after (perform (testWorld true) (.setPinsHigh (addrSet testBoard 0x35555#32))
      (ready testBoard 0x0AAAA#17 .output (some 0x5A#8))) (fun t => (t.trace, aBus (testWorld true) t)) =
      some ([.setHigh 0x08808CB4#32], some 0x1FFFF) := by decide +kernel

/-- Program P1, `READB(1)` with the byte 0x01 at the location. -/
theorem test_readb :
    after (readbIn (testWorld true) 1#32 { ready testBoard 1#17 .output (some 1#8) with mem := [(1, 1#8)] })
      (fun t => (t.trace.drop 10, t.answers)) =
      some ([.pinLow 28, .pinLow 30, .sample 6 true, .sample 13 false, .sample 19 false, .sample 26 false,
        .sample 21 false, .sample 20 false, .sample 16 false, .sample 12 false, .pinHigh 30, .pinHigh 28],
        [.byte 0x01#8]) := by decide +kernel

/-- Program P2, end state: after a READB the data lines are draws, so the data bus has a value that nothing fixes (10_state.md
rule R14), here all high; right after INIT the lines are `⊥` and it has none. -/
theorem test_data_bus_after_readb :
    after (readbIn (testWorld true) 1#32 { ready testBoard 1#17 .output (some 1#8) with mem := [(1, 1#8)] })
      (fun t => (aBus (testWorld true) t, dBus (testWorld true) t)) = some (some 1, some 0xFF) := by decide +kernel

theorem test_buses_after_init :
    after (initIn (testWorld true) State.reset) (fun t => (aBus (testWorld true) t, dBus (testWorld true) t)) =
      some (none, none) := by decide +kernel

/-- Program P3, last command: every sample of a location never written is a draw, here high. -/
theorem test_readb_unwritten :
    after (readbIn (testWorld true) 2#32 { ready testBoard 1#17 .output (some 1#8) with mem := [(1, 1#8)] })
      (fun t => t.answers) = some [.byte 0xFF#8] := by decide +kernel

/-! ### The states of the witnesses are what they are meant to be -/

section
variable {b : Board} (hb : b.Wf) {ea : EffAddr} {d : PinDir} {v : Option Byte} {ce oe we : Bool} {q : Seq} {l : List Bool}

theorem point_dirOf (p : Pin) : (point b ea d v ce oe we q l).dirOf p =
    if p ∈ b.data.toList then some d
    else if p ∈ [b.ce, b.oe, b.we] ++ b.addr.toList then some .output else none := by
  show (setDirs (setDirs _ _ _) _ _).get p = _
  rw [get_setDirs, get_setDirs]
  simp [Vector.get_eq_getElem]

theorem point_latOf (p : Pin) : (point b ea d v ce oe we q l).latOf p =
    if p = b.we then some we else if p = b.oe then some oe else if p = b.ce then some ce
    else (holding b.addr ea (dataLatches b v)).get p := by
  show (Vector.set _ _ _).get p = _
  simp only [get_set]

include hb

theorem point_controls : ControlsOutput b (point b ea d v ce oe we q l) := by
  have n := hb.data_not_control
  refine ⟨?_, ?_, ?_⟩ <;> rw [point_dirOf, if_neg (by first | exact n.1 | exact n.2.1 | exact n.2.2), if_pos (by simp)]

theorem point_latches : ControlLatches b (point b ea d v ce oe we q l) ce oe we := by
  have n1 := hb.ce_ne_oe
  have n2 := hb.ce_ne_we
  have n3 := hb.oe_ne_we
  refine ⟨?_, ?_, ?_⟩ <;> simp [point_latOf, n1, n2, n3]

theorem point_address : AddressOutput b (point b ea d v ce oe we q l) := by
  intro i
  rw [point_dirOf, if_neg (hb.addr_not_data i), if_pos]
  simp [Vector.get_eq_getElem]

theorem point_holds : AddressHolds b (point b ea d v ce oe we q l) ea := by
  intro i
  rw [point_latOf, if_neg (hb.addr_ne_we i), if_neg (hb.addr_ne_oe i), if_neg (hb.addr_ne_ce i)]
  exact get_writeGroups b.addr hb.addr_nodup ea _ i

omit hb in
theorem point_data : DataDirection b (point b ea d v ce oe we q l) (some d) := by
  intro i
  rw [point_dirOf, if_pos (Vector.get_mem_toList _ _)]

theorem point_dataLatch (i : Fin 8) :
    (point b ea d v ce oe we q l).latOf (b.data.get i) = v.map fun x => x.getLsbD i.val := by
  rw [point_latOf, if_neg (hb.data_ne_we i), if_neg (hb.data_ne_oe i), if_neg (hb.data_ne_ce i)]
  refine (get_writeGroups_of_not_mem b.addr ea _ _ fun j => hb.addr_ne_data j i).trans ?_
  cases v with
  | none => simp [dataLatches, Vector.get_eq_getElem]
  | some x => exact get_writeGroups b.data hb.data_nodup x _ i

theorem inRead_latches (a : HostAddr) (k : Nat) : ControlLatches b (inRead b a k)
    (!(decide (11 ≤ k) && decide (k ≤ 21))) (!(decide (12 ≤ k) && decide (k ≤ 20))) true := point_latches hb

theorem inWrite_latches (a : HostAddr) (x : Byte) (k : Nat) : ControlLatches b (inWrite b a x k)
    (!(decide (13 ≤ k) && decide (k ≤ 15))) true (!decide (k = 14)) := point_latches hb

theorem inRead_controls (a : HostAddr) (k : Nat) : ControlsOutput b (inRead b a k) := point_controls hb

theorem inWrite_controls (a : HostAddr) (x : Byte) (k : Nat) : ControlsOutput b (inWrite b a x k) := point_controls hb

omit hb in
theorem ready_data : DataDirection b (ready b ea d v) (some d) := point_data

omit hb in
theorem inRead_data (a : HostAddr) (k : Nat) : DataDirection b (inRead b a k) (some .input) := point_data

theorem ready_session : SessionReady b (ready b ea d v) :=
  ⟨rfl, rfl, point_controls hb, point_latches hb, point_address hb⟩

theorem ready_runPoint : RunPoint b (ready b ea d v) := by
  refine ⟨(ready_session hb).2.2, .inr ⟨?_, ea, point_holds hb⟩⟩
  cases d
  · exact .inr (point_data)
  · exact .inl (point_data)

theorem inRead_point (a : HostAddr) (k : Nat) (hk : k < 22) : RunPoint b (inRead b a k) := by
  have hd : DataDirection b (inRead b a k) (some .input) := point_data
  refine ⟨hk, point_controls hb, point_address hb, point_latches hb, fun _ i e => ?_, fun _ => point_holds hb,
    ⟨some .input, fun i => ?_⟩, by simp [inRead, point]⟩
  · exact (point_holds hb i).trans (by rw [e])
  · rw [hd i]; simp

theorem inWrite_point (a : HostAddr) (x : Byte) (k : Nat) (hk : k < 16) :
    RunPoint b (inWrite b a x k) := by
  have hd : DataDirection b (inWrite b a x k) (some .output) := point_data
  refine ⟨hk, point_controls hb, point_address hb, point_latches hb, fun _ i e => ?_, fun _ => point_holds hb,
    ⟨some .output, fun i => ?_⟩, fun _ i e => ?_, fun _ i => ?_⟩
  · exact (point_holds hb i).trans (by rw [e])
  · rw [hd i]; simp
  · exact (point_dataLatch hb i).trans (by simp [e])
  · exact point_dataLatch hb i

end

/-- Inside INIT with `k` steps done, all its pins written. -/
def inInit (b : Board) (k : Nat) : State :=
  { State.reset with
    acq := .acquired
    dir := setDirs (Vector.replicate 32 none) ([b.ce, b.oe, b.we] ++ b.addr.toList) .output
    lat := writeLatches (Vector.replicate 32 none) (ctrlAll b) true
    seq := .busy .init k }

theorem inInit_point {b : Board} (hb : b.Wf) (k : Nat) (h1 : 22 ≤ k) (h2 : k < 24) : RunPoint b (inInit b k) := by
  have hd : ∀ p, (inInit b k).dirOf p = if p ∈ [b.ce, b.oe, b.we] ++ b.addr.toList then some .output else none := by
    intro p
    show (setDirs _ _ _).get p = _
    rw [get_setDirs]
    simp [Vector.get_eq_getElem]
  refine ⟨by omega, h2, fun p hp => ?_, ?_, ?_, ?_, fun i => ?_, fun i => ?_⟩
  · show (writeLatches _ _ _).get p = _
    rw [get_writeLatches, maskHas_ctrlAll, if_pos, if_pos (by omega)]
    simp only [List.mem_cons, List.not_mem_nil, or_false] at hp
    rcases hp with rfl | rfl | rfl <;> simp
  · rw [hd, if_pos (by simp), if_pos (by omega)]
  · rw [hd, if_pos (by simp), if_pos (by omega)]
  · rw [hd, if_pos (by simp), if_pos (by omega)]
  · rw [hd, if_pos (by simp [Vector.get_eq_getElem]), if_pos (by omega)]
  · rw [hd, if_neg]
    intro hm
    rcases List.mem_append.1 hm with hm | hm
    · simp [hb.data_ne_ce, hb.data_ne_oe, hb.data_ne_we] at hm
    · obtain ⟨j, e⟩ := Vector.exists_get_of_mem hm
      exact hb.addr_ne_data j i e

theorem reset_unset : PinsUnset State.reset := fun p => ⟨dirOf_reset p, latOf_reset p⟩

/-- A quiet step of the machine inside a command. -/
theorem step_quiet {s : State} {c : Instr} {k : Nat} {m : Prim} (hs : s.seq = .busy c k)
    (hm : (commandSteps Config.board c)[k]? = some m) (ha : s.acq = .acquired) (hr : m.readsNonInput s = false)
    (hw : NoRise Config.board s (writeOf Config.world s m)) (hc : contended Config.board (writeOf Config.world s m) = false) :
    step s = .next (afterStep (commandSteps Config.board c).length c k
      ((writeOf Config.world s m).emit (eventOf Config.world s m))) := by
  rw [step_busy hs, sequencerStep, Config.world_board, hm]
  simp only [perform_quiet (w := Config.world) ha hr hw hc, andThen_next]

/-- A step inside a WRITEB that leaves OE high and does not raise WE. -/
theorem step_inWrite {s : State} {a : HostAddr} {x : Byte} {k : Nat} {m : Prim} (hs : s.seq = .busy (.writeb a x) k)
    (hm : (writebSteps Config.board a x)[k]? = some m) (ha : s.acq = .acquired) (hr : m.readsNonInput s = false)
    (hw : NoRise Config.board s (writeOf Config.world s m))
    (ho : drive (writeOf Config.world s m) Config.board.oe = .level true) : ∃ t, step s = .next t :=
  ⟨_, step_quiet hs hm ha hr hw (contended_of_chipOff (.inr ho))⟩

/-! ### Witnesses -/

theorem test_witness_CommandWordRoundTrip :
    (0x0FF12345678#42).extractLsb' 40 2 = 0#2 ∧ (0x1A5FFFFFFFF#42).extractLsb' 40 2 = 1#2 ∧
    (0x2FF00000001#42).extractLsb' 40 2 = 2#2 ∧ (0x3FFFFFFFFFF#42).extractLsb' 40 2 = 3#2 ∧
    (Instr.readb 0xFFFFFFFF#32).WellFormed = true := by decide

theorem test_witness_UnusedFieldsIgnored :
    (0x0FF12345678#42).extractLsb' 40 2 = (0#42).extractLsb' 40 2 ∧ (0#42).extractLsb' 40 2 = 0#2 ∧
    (0x1A5FFFFFFFF#42).extractLsb' 40 2 = 1#2 ∧
    (0x2FF00000001#42).extractLsb' 40 2 = (0x20000000001#42).extractLsb' 40 2 ∧
    (0x2FF00000001#42).extractLsb' 0 32 = (0x20000000001#42).extractLsb' 0 32 := by decide

theorem test_witness_AddressGroups :
    testBoard.Wf ∧ effective 0x20001#32 = effective 1#32 ∧ addrSet testBoard 0x20001#32 = addrSet testBoard 1#32 ∧
    0x09840824#32 &&& addrAll testBoard = 0x09840824#32 := by decide +kernel

theorem test_witness_DataGroups : testBoard.Wf ∧ (List.replicate 8 true).length = 8 := by decide +kernel

theorem test_witness_BoardIsAnyWellFormedDefault :
    testBoard.Wf ∧ testBoard.addr = Config.addrPins ∧ testBoard.data = Config.dataPins := by decide +kernel

theorem test_witness_PinAssignmentCheck :
    testBoard.written.WellFormed = true ∧ ({ testBoard.written with oe := 28 } : PinAssignment).WellFormed = false := by
  decide

/-- Each of the changes happens: a direction, a single latch, the latches of a mask, and all of them at `close()`. -/
theorem test_witness_OnlyTheirPrimitivesWritePins :
    after (perform (testWorld true) (.setPinDirection 6 .input) (ready testBoard 1#17 .output none)) (·.dirOf 6) =
      some (some .input) ∧
    after (perform (testWorld true) (.setPinLow 30) (ready testBoard 1#17 .output none)) (·.latOf 30) = some (some false) ∧
    after (perform (testWorld true) (.setPinsHigh 0x40#32) (ready testBoard 1#17 .output none)) (·.latOf 6) =
      some (some true) ∧
    after (perform (testWorld true) .close (ready testBoard 1#17 .output none)) (·.dirOf 6) = some none := by
  decide +kernel

theorem test_witness_BulkOperationsWriteTheirMask :
    after (perform (testWorld true) (.setPinsHigh 0x04393040#32) (ready testBoard 1#17 .input none)) (·.latOf 12) =
      some (some true) ∧
    after (perform (testWorld true) (.setPinsLow 0x04393040#32) (ready testBoard 1#17 .input none)) (·.latOf 12) =
      some (some false) := by decide +kernel

/-- A pin of each direction, a chip that drives a bit and one that drives nothing known, buses with a value, and a primitive
that completes. -/
theorem test_witness_LinesAndBuses :
    (testWorld true).board.Wf ∧ (inRead testBoard 1#32 12).dirOf 28 = some .output ∧
    (inRead testBoard 1#32 12).dirOf 1 = none ∧ (inRead testBoard 1#32 12).dirOf 6 = some .input ∧
    chipDrives testBoard (inRead testBoard 1#32 12) = true ∧ (inRead testBoard 1#32 12).chip = .echo ∧
    chipDrives testBoard (inRead testBoard 1#32 10) = false ∧
    after (perform (testWorld true) (.setPinDirection 1 .input) (inRead testBoard 1#32 12)) (·.dirOf 1) =
      some (some .input) ∧
    aBus (testWorld true) (inRead testBoard 1#32 12) = some 1 ∧
    dBus (testWorld true) (inRead testBoard 1#32 12) = some 0xFF := by decide +kernel

/-- Inside the read window: a data pin on which the chip drives a bit, one whose line is a draw, and an Output. -/
theorem test_witness_ReadPinLevelAnswersTheLine :
    (inRead testBoard 1#32 12).acq = .acquired ∧ contended testBoard (inRead testBoard 1#32 12) = false ∧
    (inRead testBoard 1#32 12).dirOf 6 = some .input ∧ (inRead testBoard 1#32 12).dirOf 28 ≠ some .input ∧
    line (testWorld true) (inRead testBoard 1#32 12) 6 = .draw ∧
    line (testWorld true) { inRead testBoard 1#32 12 with mem := [(1, 0xFE#8)] } 6 = .level false := by decide +kernel

theorem test_witness_PinOperationsNeedThePeripheral : State.reset.acq = .released := rfl

/-- The machine's world: ENCADDR runs from a state of a session. -/
theorem encAddr_runs (a : HostAddr) (ea : EffAddr) :
    ∃ t, performAll Config.world (encAddr Config.board a) (ready Config.board ea .input none) = .next t :=
  ⟨_, performAll_setThenClear (w := Config.world) rfl (.inl (ready_session Config.board_wf).2.2.ce_high)
    (groups_not_control _ Config.board_wf.parts.2.2.2.2.1 _)⟩

theorem test_witness_EncoderRoundTrip :
    ∃ t, performAll Config.world (encAddr Config.board 0x15555#32) (ready Config.board 0x0AAAA#17 .input none) = .next t :=
  encAddr_runs _ _

/-- Both single steps run, and the address before them is held on Output pins. -/
theorem test_witness_AddressTransient :
    AddressHolds Config.board (ready Config.board 0x0AAAA#17 .input none) 0x0AAAA#17 ∧
    AddressOutput Config.board (ready Config.board 0x0AAAA#17 .input none) ∧
    ∃ t u, perform Config.world (.setPinsHigh (addrSet Config.board 0x15555#32)) (ready Config.board 0x0AAAA#17 .input none)
        = .next t ∧
      perform Config.world (.setPinsLow (addrClr Config.board 0x15555#32)) t = .next u := by
  refine ⟨point_holds Config.board_wf, point_address Config.board_wf, ?_⟩
  have hr := (ready_session (ea := 0x0AAAA#17) (d := .input) (v := none) Config.board_wf).2.2
  have hg := groups_not_control Config.board.addr Config.board_wf.parts.2.2.2.2.1 (effective 0x15555#32)
  have h1 := perform_quiet (w := Config.world) (m := .setPinsHigh (addrSet Config.board 0x15555#32)) (s := ready Config.board
    0x0AAAA#17 .input none) rfl rfl (NoRise.of_latch (by rw [Config.world_board, hr.2.1.2.2]; simp))
    (contended_of_input fun i => (dirOf_setLats ..).trans (ready_data i))
  refine ⟨_, _, h1, perform_quiet rfl rfl (NoRise.of_latch ?_) (contended_of_input fun i => ?_)⟩
  · simp only [Config.world_board, writeOf, latOf_emit, latOf_setLats, addrSet, (hg Config.board.we (by simp)).1, hr.2.1.2.2]
    simp
  · simp only [Config.world_board, writeOf, dirOf_emit, dirOf_setLats]
    exact ready_data i

/-- The first and the last step after ENCADDR, of READB and of WRITEB. -/
theorem test_witness_DataPhaseLeavesAddressPins :
    (∃ t, step (inRead Config.board 1#32 2) = .next t) ∧ (∃ t, step (inRead Config.board 1#32 21) = .next t) ∧
    (∃ t, step (inWrite Config.board 1#32 1#8 2) = .next t) ∧ ∃ t, step (inWrite Config.board 1#32 1#8 15) = .next t := by
  have hb := Config.board_wf
  have n1 := hb.ce_ne_oe
  have r := fun k => inRead_latches hb 1#32 k
  have x := fun k => inWrite_latches hb 1#32 1#8 k
  refine ⟨⟨_, step_quiet (m := .setPinDirection (Config.board.data.get 0) .input) rfl ?_ rfl rfl (NoRise.of_latch ?_) ?_⟩,
    ⟨_, step_quiet (m := .setPinHigh Config.board.ce) rfl ?_ rfl rfl (NoRise.of_latch ?_) ?_⟩,
    step_inWrite (m := .setPinDirection (Config.board.data.get 0) .output) rfl ?_ rfl rfl (NoRise.of_latch ?_) ?_,
    step_inWrite (m := .setPinHigh Config.board.ce) rfl ?_ rfl rfl (NoRise.of_latch ?_) ?_⟩
  · simp [commandSteps, readbSteps, encAddr, Vector.get_eq_getElem]
  · rw [(r 2).2.2]; simp
  · refine contended_of_chipOff (.inl (drive_eq_level.2 ⟨?_, ?_⟩))
    · simp only [writeOf, dirOf_setDir, (hb.data_ne_ce 0).symm, if_false]
      exact (inRead_controls hb 1#32 2).1
    · exact (r 2).1
  · simp [commandSteps, readbSteps, encAddr]
  · rw [(r 21).2.2]; simp
  · exact contended_of_input fun i => (dirOf_setLat ..).trans (inRead_data 1#32 21 i)
  · simp [writebSteps, encAddr, Vector.get_eq_getElem]
  · rw [(x 2).2.2]; simp
  · refine drive_eq_level.2 ⟨?_, (x 2).2.1⟩
    simp only [writeOf, dirOf_setDir, (hb.data_ne_oe 0).symm, if_false]
    exact (inWrite_controls hb 1#32 1#8 2).2.1
  · simp [writebSteps, encAddr]
  · rw [(x 15).2.2]; simp
  · refine drive_eq_level.2 ⟨(inWrite_controls hb 1#32 1#8 15).2.1, ?_⟩
    simp only [writeOf, latOf_setLat, n1.symm, if_false]
    exact (x 15).2.1

/-- Both answers of `open()` occur in some world; in the machine's own it is a free value. -/
theorem test_witness_InitCompletes :
    (0x0FF12345678#42).extractLsb' 40 2 = 0#2 ∧
    ¬ ((ready Config.board 1#17 .input none).seq = .idle ∧ (ready Config.board 1#17 .input none).acq = .released) ∧
    State.reset.seq = .idle ∧ State.reset.acq = .released ∧ PinsUnset State.reset ∧
    (testWorld true).openOk State.reset.trace.length = true ∧ (testWorld false).openOk State.reset.trace.length = false :=
  ⟨by decide, fun h => by simp [ready, point] at h, rfl, rfl, reset_unset, rfl, rfl⟩

theorem test_witness_InitOpensASession :
    (testWorld true).board.Wf ∧ State.reset.seq = .idle ∧ State.reset.acq = .released ∧ PinsUnset State.reset ∧
    (testWorld true).openOk State.reset.trace.length = true :=
  ⟨by decide +kernel, rfl, rfl, reset_unset, rfl⟩

theorem test_witness_InitErrorChangesNothing :
    State.reset.seq = .idle ∧ State.reset.acq = .released ∧ PinsUnset State.reset ∧
    (testWorld false).openOk State.reset.trace.length = false := ⟨rfl, rfl, reset_unset, rfl⟩

/-- The points before the first step, after the control levels, after the last step. -/
theorem test_witness_InitDrivesNoControlLow :
    (testWorld true).board.Wf ∧ (∀ k ∈ [0, 2, 24], after (performAll (testWorld true)
      ((initSteps (testWorld true).board).take k) (accept .init State.reset)) (fun t => t.trace.length) = some k) := by
  decide +kernel

/-- Reset is idle and holds no peripheral: SHUTDOWN, READB and WRITEB are refused there. -/
theorem reset_not_acquired : ¬ (State.reset.seq = .idle ∧ State.reset.acq = .acquired) := fun h => by cases h.2

theorem test_witness_ShutdownCompletes :
    (0x1A5FFFFFFFF#42).extractLsb' 40 2 = 1#2 ∧ ¬ (State.reset.seq = .idle ∧ State.reset.acq = .acquired) ∧
    (ready Config.board 1#17 .input none).seq = .idle ∧ (ready Config.board 1#17 .input none).acq = .acquired :=
  ⟨by decide, reset_not_acquired, rfl, rfl⟩

theorem test_witness_WritebCompletes :
    (0x3FFFFFFFFFF#42).extractLsb' 40 2 = 3#2 ∧ ¬ (State.reset.seq = .idle ∧ State.reset.acq = .acquired) ∧
    SessionReady Config.board (ready Config.board 0x1FFFF#17 .input (some 0xFF#8)) :=
  ⟨by decide, reset_not_acquired, ready_session Config.board_wf⟩

/-- With a byte of the echo chip at the location, and with the unspecified chip. -/
theorem test_witness_ReadbCompletes :
    (0x2FF00000001#42).extractLsb' 40 2 = 2#2 ∧ ¬ (State.reset.seq = .idle ∧ State.reset.acq = .acquired) ∧
    (SessionReady Config.board { ready Config.board 1#17 .output none with mem := [(1, 1#8)] } ∧
      Memory.read [(1, 1#8)] (effective 1#32).toNat = some 1#8) ∧
    SessionReady Config.board { ready Config.board 1#17 .output none with chip := .unspecified } :=
  ⟨by decide, reset_not_acquired, ⟨ready_session Config.board_wf, by decide⟩, ready_session Config.board_wf⟩

theorem test_witness_ReadAfterWrite :
    SessionReady Config.board (ready Config.board 0#17 .input none) ∧ (ready Config.board 0#17 .input none).chip = .echo ∧
    effective 0x1FFFF#32 = effective 0xFFFFFFFF#32 := ⟨ready_session Config.board_wf, rfl, by decide⟩

theorem test_witness_UpperAddressBitsIgnored : effective 0x20001#32 = effective 1#32 := by decide

theorem readb_runs (a : HostAddr) (ea : EffAddr) (d : PinDir) (v : Option Byte) :
    ∃ t, exec (.readb a) (ready Config.board ea d v) = .next t :=
  ⟨_, readbIn_eq (w := Config.world) Config.board_wf (ready_session Config.board_wf)⟩

theorem writeb_runs (a : HostAddr) (x : Byte) (ea : EffAddr) (d : PinDir) (v : Option Byte) :
    ∃ t, exec (.writeb a x) (ready Config.board ea d v) = .next t :=
  ⟨_, writebIn_eq (w := Config.world) Config.board_wf (ready_session Config.board_wf)⟩

theorem test_witness_DirectionAfterCommand :
    (∃ t, exec (.readb 0#32) (ready Config.board 1#17 .output none) = .next t) ∧
    ∃ t, exec (.writeb 0#32 0#8) (ready Config.board 1#17 .input none) = .next t := ⟨readb_runs .., writeb_runs ..⟩

/-- The data pins have turned, and the latches still hold what they held. -/
def stale (v : Option Byte) : State :=
  point Config.board 1#17 .output v true true true (.busy (.writeb 1#32 0xA5#8) 10) []

theorem stale_latches (v : Option Byte) : ControlLatches Config.board (stale v) true true true := point_latches Config.board_wf

theorem stale_controls (v : Option Byte) : ControlsOutput Config.board (stale v) := point_controls Config.board_wf

theorem stale_point (v : Option Byte) : RunPoint Config.board (stale v) := by
  have hb := Config.board_wf
  have hd : DataDirection Config.board (stale v) (some .output) := point_data
  have ha : AddressHolds Config.board (stale v) (effective 1#32) := point_holds hb
  refine ⟨by decide, stale_controls v, point_address hb, stale_latches v, fun _ i e => ?_, fun _ => ha,
    ⟨some .output, fun i => ?_⟩, fun h => absurd h (by decide), fun h => absurd h (by decide)⟩
  · exact (ha i).trans (by rw [e])
  · rw [hd i]; simp

/-- The two data steps run from there. -/
theorem stale_steps (v : Option Byte) : ∃ t u, step (stale v) = .next t ∧ step t = .next u := by
  have hg := groups_not_control Config.board.data Config.board_wf.parts.2.2.2.1 0xA5#8
  have l := stale_latches v
  have h1 := step_quiet (s := stale v) (m := .setPinsHigh (dataSet Config.board 0xA5#8)) rfl
    (by simp [commandSteps, writebSteps, encAddr]) rfl rfl (NoRise.of_latch (by rw [l.2.2]; simp))
    (contended_of_chipOff (.inr (drive_eq_level.2 ⟨(stale_controls v).2.1, by
      simp only [writeOf, latOf_setLats, dataSet, (hg Config.board.oe (by simp)).1, l.2.1]; simp⟩)))
  have e : ∀ u, afterStep (commandSteps Config.board (.writeb 1#32 0xA5#8)).length (.writeb 1#32 0xA5#8) 10 u = advance u := by
    intro u
    simp [afterStep, commandSteps, length_writebSteps]
  rw [e] at h1
  refine ⟨_, _, h1, step_quiet (c := .writeb 1#32 0xA5#8) (k := 11) (m := .setPinsLow (dataClr Config.board 0xA5#8)) ?_
    (by simp [commandSteps, writebSteps, encAddr]) ?_ rfl (NoRise.of_latch ?_)
    (contended_of_chipOff (.inr (drive_eq_level.2 ⟨?_, ?_⟩)))⟩
  · simp [writeOf, stale, point, Seq.plus]
  · simp [writeOf, stale, point]
  · simp only [writeOf, latOf_advance, latOf_emit, latOf_setLats, dataSet, (hg Config.board.we (by simp)).1, l.2.2]; simp
  · simp only [writeOf, dirOf_setLats, dirOf_advance, dirOf_emit]; exact (stale_controls v).2.1
  · simp only [writeOf, latOf_advance, latOf_emit, latOf_setLats, dataSet, dataClr, (hg Config.board.oe (by simp)).1,
      (hg Config.board.oe (by simp)).2, l.2.1]; simp

/-- With latches that hold a byte, and with latches never written (rule R150). -/
theorem test_witness_StaleDriveAndDataTransient :
    (RunPoint Config.board (stale (some 0x5A#8)) ∧ (stale (some 0x5A#8)).acq = .acquired ∧
      (stale (some 0x5A#8)).seq = .busy (.writeb 1#32 0xA5#8) 10 ∧ DataHolds Config.board (stale (some 0x5A#8)) 0x5A#8 ∧
      ∃ t u, step (stale (some 0x5A#8)) = .next t ∧ step t = .next u) ∧
    RunPoint Config.board (stale none) ∧ (∀ i : Fin 8, (stale none).latOf (Config.board.data.get i) = none) ∧
      ∃ t u, step (stale none) = .next t ∧ step t = .next u :=
  ⟨⟨stale_point _, rfl, rfl, fun i => point_dataLatch Config.board_wf i, stale_steps _⟩,
    stale_point _, fun i => point_dataLatch Config.board_wf i, stale_steps _⟩

/-- A point inside WRITEB, READB or INIT at a position is a point of a run. -/
theorem inWrite_run (k : Nat) (hk : k < 16) : RunPoint Config.board (inWrite Config.board 1#32 1#8 k) ∧
    (inWrite Config.board 1#32 1#8 k).acq = .acquired ∧ (inWrite Config.board 1#32 1#8 k).seq = .busy (.writeb 1#32 1#8) k :=
  ⟨inWrite_point Config.board_wf _ _ k hk, rfl, rfl⟩

theorem inRead_run (k : Nat) (hk : k < 22) : RunPoint Config.board (inRead Config.board 1#32 k) ∧
    (inRead Config.board 1#32 k).acq = .acquired ∧ (inRead Config.board 1#32 k).seq = .busy (.readb 1#32) k :=
  ⟨inRead_point Config.board_wf _ k hk, rfl, rfl⟩

/-- A session state; the first and the last position at which the data pins are Inputs; and the edges of the window with a
byte of the echo chip at the location. -/
theorem test_witness_ReadBusesDefined :
    SessionReady Config.board (ready Config.board 1#17 .output (some 1#8)) ∧
    (∀ k ∈ [10, 21], ∃ s, RunPoint Config.board s ∧ s.acq = .acquired ∧ s.seq = .busy (.readb 1#32) k) ∧
    ∀ k ∈ [12, 20], ∃ s, RunPoint Config.board s ∧ s.acq = .acquired ∧ s.seq = .busy (.readb 1#32) k ∧ s.chip = .echo ∧
      Memory.read s.mem (effective 1#32).toNat = some 1#8 := by
  refine ⟨ready_session Config.board_wf, fun k hk => ⟨_, inRead_run k ?_⟩, fun k hk =>
    ⟨{ inRead Config.board 1#32 k with mem := [(1, 1#8)] }, (inRead_run k ?_).1, rfl, rfl, rfl,
      (by decide : Memory.read [(1, 1#8)] (effective 1#32).toNat = some 1#8)⟩⟩
  all_goals
    simp only [List.mem_cons, List.not_mem_nil, or_false] at hk
    omega

/-- The first and the last position at which both buses are stable, and a state between commands. -/
theorem test_witness_WriteBusesStable :
    (∃ s, RunPoint Config.board s ∧ s.acq = .acquired ∧ s.seq = .busy (.writeb 1#32 1#8) 12) ∧
    (∃ s, RunPoint Config.board s ∧ s.acq = .acquired ∧ s.seq = .busy (.writeb 1#32 1#8) 15) ∧
    SessionReady Config.board (ready Config.board 1#17 .input none) :=
  ⟨⟨_, inWrite_run 12 (by decide)⟩, ⟨_, inWrite_run 15 (by decide)⟩, ready_session Config.board_wf⟩

/-- Before, at and after each edge of the write strobe. -/
theorem test_witness_WritePulseNested :
    (∃ t, exec (.writeb 1#32 1#8) (ready Config.board 0#17 .input none) = .next t) ∧
    ∀ k ∈ [0, 12, 13, 14, 15], ∃ s, RunPoint Config.board s ∧ s.acq = .acquired ∧ s.seq = .busy (.writeb 1#32 1#8) k := by
  refine ⟨writeb_runs .., fun k hk => ⟨_, inWrite_run k ?_⟩⟩
  simp only [List.mem_cons, List.not_mem_nil, or_false] at hk
  omega

/-- Before, at and after each edge of the read window. -/
theorem test_witness_ReadWindowNested :
    (∃ t, exec (.readb 1#32) (ready Config.board 0#17 .input none) = .next t) ∧
    ∀ k ∈ [0, 10, 11, 12, 20, 21], ∃ s, RunPoint Config.board s ∧ s.acq = .acquired ∧ s.seq = .busy (.readb 1#32) k := by
  refine ⟨readb_runs .., fun k hk => ⟨_, inRead_run k ?_⟩⟩
  simp only [List.mem_cons, List.not_mem_nil, or_false] at hk
  omega

/-- Two session states that differ in their address, their data directions and their data latches. -/
theorem test_witness_CommandsIgnorePinHistory :
    SessionReady Config.board (ready Config.board 0#17 .input none) ∧
    SessionReady Config.board (ready Config.board 1#17 .output (some 1#8)) ∧
    (ready Config.board 0#17 .input none).chip = (ready Config.board 1#17 .output (some 1#8)).chip ∧
    (ready Config.board 0#17 .input none).mem = (ready Config.board 1#17 .output (some 1#8)).mem ∧
    (ready Config.board 0#17 .input none).trace.length = (ready Config.board 1#17 .output (some 1#8)).trace.length :=
  ⟨ready_session Config.board_wf, ready_session Config.board_wf, rfl, rfl, rfl⟩

/-- A session state with one command pending. -/
def withCommand (w : Word) : State := { ready Config.board 0#17 .input none with pending := [w] }

theorem withCommand_point (w : Word) : RunPoint Config.board (withCommand w) := ready_runPoint Config.board_wf

theorem shutdown_runs : ∃ t, exec .shutdown (ready Config.board 0#17 .input none) = .next t ∧ t.acq = .released :=
  ⟨_, shutdownIn_eq (w := Config.world) (s := ready Config.board 0#17 .input none) rfl rfl, rfl⟩

theorem shutdown_steps : ∃ t, step (withCommand 0x10000000000#42) = .next t ∧ t.acq = .released := by
  obtain ⟨t, h, ht⟩ := shutdown_runs
  exact ⟨t, (step_command (s := withCommand 0x10000000000#42) (rest := []) rfl rfl).trans h, ht⟩

theorem writeb_steps : ∃ t, step (withCommand 0x30100000001#42) = .next t := by
  obtain ⟨t, h⟩ := writeb_runs 1#32 1#8 0#17 .input none
  exact ⟨t, (step_command (s := withCommand 0x30100000001#42) (rest := []) rfl rfl).trans h⟩

/-- Each row of the table, and a step that gives the peripheral back; a step that takes it is INIT's, in a world. -/
theorem test_witness_AdmissionTable :
    (inWrite Config.board 1#32 1#8 3).seq ≠ .idle ∧
    (State.reset.seq = .idle ∧ State.reset.acq = .released ∧ Instr.readb 0#32 ≠ .init) ∧
    ((ready Config.board 0#17 .input none).seq = .idle ∧ (ready Config.board 0#17 .input none).acq = .acquired) ∧
    (RunPoint Config.board State.reset ∧ State.reset.acq = needs .init) ∧
    (RunPoint Config.board (ready Config.board 0#17 .input none) ∧
      (ready Config.board 0#17 .input none).acq = needs (.readb 0#32)) ∧
    RunPoint Config.board (withCommand 0x10000000000#42) ∧
    ∃ t, step (withCommand 0x10000000000#42) = .next t ∧ t.acq = .released :=
  ⟨by simp [inWrite, point], ⟨rfl, rfl, by decide⟩, ⟨rfl, rfl⟩, ⟨reset_unset, rfl⟩, ⟨ready_runPoint Config.board_wf, rfl⟩,
    withCommand_point _, shutdown_steps⟩

/-- INIT completes from reset whatever `open()` answers. -/
theorem init_runs : ∃ t, exec .init State.reset = .next t := by
  cases ho : Config.openOk State.reset.trace.length with
  | true => exact ⟨_, initIn_ok (w := Config.world) Config.board_wf rfl rfl reset_unset ho⟩
  | false => exact ⟨_, initIn_failed (w := Config.world) rfl rfl reset_unset ho⟩

theorem test_witness_OneAnswerEach :
    (∃ t, exec .init State.reset = .next t) ∧
    (∃ t, exec .shutdown (ready Config.board 0#17 .input none) = .next t) ∧
    (∃ t, exec (.readb 0#32) (ready Config.board 0#17 .input none) = .next t) ∧
    ∃ t, exec (.writeb 0#32 0#8) (ready Config.board 0#17 .input none) = .next t :=
  ⟨init_runs, shutdown_runs.imp fun _ h => h.1, readb_runs .., writeb_runs ..⟩

theorem test_witness_CommandsLeaveOwnFields :
    (∃ t, exec .init State.reset = .next t) ∧
    (∃ t, exec .shutdown (ready Config.board 0#17 .input none) = .next t) ∧
    (∃ t, exec (.readb 0#32) (ready Config.board 0#17 .input none) = .next t) ∧
    ∃ t, exec (.writeb 0#32 0#8) (ready Config.board 0#17 .input none) = .next t := test_witness_OneAnswerEach

theorem test_witness_FixedStepCounts :
    (∃ t, exec .init State.reset = .next t) ∧
    (∃ t, exec .shutdown (ready Config.board 0#17 .input none) = .next t) ∧
    (∃ t, exec (.readb 0#32) (ready Config.board 0#17 .input none) = .next t) ∧
    ∃ t, exec (.writeb 0#32 0#8) (ready Config.board 0#17 .input none) = .next t := test_witness_OneAnswerEach

theorem test_witness_BigStepEqualsSmallSteps :
    (State.reset.seq = .idle ∧ State.reset.acq = needs .init) ∧
    (ready Config.board 0#17 .input none).seq = .idle ∧ (ready Config.board 0#17 .input none).acq = needs (.readb 0#32) :=
  ⟨⟨rfl, rfl⟩, rfl, rfl⟩

/-- The first and the last position of each command, and Idle points in which a command is admitted. -/
theorem test_witness_NoCommandAbandoned :
    (∀ k ∈ [0, 21], ∃ s, RunPoint Config.board s ∧ s.seq = .busy (.readb 1#32) k) ∧
    (∀ k ∈ [0, 15], ∃ s, RunPoint Config.board s ∧ s.seq = .busy (.writeb 1#32 1#8) k) ∧
    (RunPoint Config.board (accept .init State.reset) ∧ (accept .init State.reset).seq = .busy .init 0) ∧
    (RunPoint Config.board (inInit Config.board 23) ∧ (inInit Config.board 23).seq = .busy .init 23) ∧
    (RunPoint Config.board (accept .shutdown (ready Config.board 0#17 .input none)) ∧
      (accept .shutdown (ready Config.board 0#17 .input none)).seq = .busy .shutdown 0) ∧
    (RunPoint Config.board State.reset ∧ State.reset.seq = .idle ∧ State.reset.acq = needs .init) ∧
    RunPoint Config.board (ready Config.board 0#17 .input none) ∧ (ready Config.board 0#17 .input none).seq = .idle ∧
      (ready Config.board 0#17 .input none).acq = needs (.readb 1#32) := by
  refine ⟨fun k hk => ?_, fun k hk => ?_, ⟨⟨rfl, reset_unset⟩, rfl⟩, ⟨inInit_point Config.board_wf 23 (by decide) (by decide), rfl⟩,
    ⟨⟨rfl, ready_runPoint Config.board_wf⟩, rfl⟩, ⟨reset_unset, rfl, rfl⟩, ready_runPoint Config.board_wf, rfl, rfl⟩
  all_goals
    simp only [List.mem_cons, List.not_mem_nil, or_false] at hk
  · obtain ⟨h1, -, h2⟩ := inRead_run k (by omega)
    exact ⟨_, h1, h2⟩
  · obtain ⟨h1, -, h2⟩ := inWrite_run k (by omega)
    exact ⟨_, h1, h2⟩

theorem test_witness_StepRunsTheDecodedCommand :
    ((withCommand 0x30100000001#42).seq = .idle ∧ (withCommand 0x30100000001#42).pending = [0x30100000001#42]) ∧
    (State.reset.seq = .idle ∧ State.reset.pending = []) ∧
    (inRead Config.board 1#32 21).seq = .busy (.readb 1#32) 21 ∧
    decodeTableWord 42 0x30100000001 = some (.writeb 1#32 1#8) :=
  ⟨⟨rfl, rfl⟩, ⟨rfl, rfl⟩, rfl, by decide⟩

theorem test_witness_ResetState :
    (∃ t, exec .shutdown (ready Config.board 0#17 .input none) = .next t) ∧
    (testWorld false).openOk State.reset.trace.length = false ∧
    ∃ t, initIn (testWorld false) State.reset = .next t :=
  ⟨shutdown_runs.imp fun _ h => h.1, rfl, ⟨_, initIn_failed rfl rfl reset_unset rfl⟩⟩

/-- A state with a byte in the chip, whose next step is a WRITEB. -/
theorem test_witness_StepKeepsMemoryForm :
    Memory.wf (withCommand 0x30100000001#42).mem = true ∧ Memory.wf [(0, 1#8), (0x1FFFF, 2#8)] = true ∧
    ∃ t, step (withCommand 0x30100000001#42) = .next t := ⟨by decide, by decide, writeb_steps⟩

theorem test_witness_StepKeepsReleasedPinsUnset :
    ReleasedPinsUnset (withCommand 0x10000000000#42) ∧ ReleasedPinsUnset State.reset ∧
    ∃ t, step (withCommand 0x10000000000#42) = .next t ∧ t.acq = .released :=
  ⟨fun h => by simp [withCommand, ready, point] at h, fun _ => reset_unset, shutdown_steps⟩

theorem test_witness_StepKeepsRunPoint :
    (RunPoint Config.board (withCommand 0x30100000001#42) ∧ ∃ t, step (withCommand 0x30100000001#42) = .next t) ∧
    (RunPoint Config.board State.reset ∧ State.reset.seq = .idle ∧ State.reset.acq = needs .init) ∧
    RunPoint Config.board (ready Config.board 0#17 .input none) ∧ (ready Config.board 0#17 .input none).seq = .idle ∧
      (ready Config.board 0#17 .input none).acq = needs (.writeb 1#32 1#8) :=
  ⟨⟨withCommand_point _, writeb_steps⟩, ⟨reset_unset, rfl, rfl⟩, ready_runPoint Config.board_wf, rfl, rfl⟩

theorem test_witness_OtherPinsNeverTouched :
    (∀ p, p ∉ Config.board.pins → (withCommand 0x30100000001#42).dirOf p = none ∧
      (withCommand 0x30100000001#42).latOf p = none) ∧
    ∃ t, step (withCommand 0x30100000001#42) = .next t := by
  refine ⟨fun p hp => ?_, writeb_steps⟩
  simp only [Board.pins, List.mem_append, not_or] at hp
  have h1 : p ∉ Config.board.addr.toList := hp.2
  have hc := hp.1.1
  simp only [List.mem_cons, List.not_mem_nil, or_false, not_or] at hc
  constructor
  · refine (show (ready Config.board 0#17 .input none).dirOf p = _ from point_dirOf p).trans ?_
    rw [if_neg hp.1.2, if_neg]
    simp only [List.mem_append, not_or]
    exact ⟨hp.1.1, h1⟩
  · refine (show (ready Config.board 0#17 .input none).latOf p = _ from point_latOf p).trans ?_
    rw [if_neg hc.2.2, if_neg hc.2.1, if_neg hc.1]
    refine (get_writeGroups_of_not_mem Config.board.addr _ _ _ fun i e => h1 ?_).trans
      (by simp [dataLatches, Vector.get_eq_getElem])
    rw [← e]
    exact Vector.get_mem_toList _ _

theorem test_witness_TraceOnlyGrows : ∃ t, step (withCommand 0x30100000001#42) = .next t := writeb_steps

/-- OE low inside a READB, and data pins that are Outputs inside a WRITEB. -/
theorem test_witness_NoContentionInARun :
    (∃ s, RunPoint Config.board s ∧ s.acq = .acquired ∧ drive s Config.board.oe = .level false) ∧
    ∃ s, RunPoint Config.board s ∧ s.acq = .acquired ∧ ∃ i : Fin 8, s.dirOf (Config.board.data.get i) = some .output :=
  ⟨⟨_, (inRead_run 12 (by decide)).1, rfl, drive_eq_level.2 ⟨(inRead_controls Config.board_wf 1#32 12).2.1,
      (inRead_latches Config.board_wf 1#32 12).2.1⟩⟩,
    ⟨_, stale_point none, rfl, 0, point_data 0⟩⟩

/-- WE low, OE low, a step taken while CE is low, and a command's start. -/
theorem test_witness_StrobesExclusive :
    (∃ s, RunPoint Config.board s ∧ s.acq = .acquired ∧ drive s Config.board.we = .level false) ∧
    (∃ s, RunPoint Config.board s ∧ s.acq = .acquired ∧ drive s Config.board.oe = .level false) ∧
    (∃ s t, RunPoint Config.board s ∧ s.acq = .acquired ∧ drive s Config.board.ce = .level false ∧ step s = .next t) ∧
    (RunPoint Config.board (ready Config.board 0#17 .input none) ∧ (ready Config.board 0#17 .input none).acq = .acquired ∧
      (ready Config.board 0#17 .input none).seq = .idle) ∧
    ∃ s c, RunPoint Config.board s ∧ s.acq = .acquired ∧ s.seq = .busy c 0 := by
  have hb := Config.board_wf
  have r := inRead_latches hb 1#32 21
  refine ⟨⟨_, (inWrite_run 14 (by decide)).1, rfl, drive_eq_level.2 ⟨(inWrite_controls hb 1#32 1#8 14).2.2,
      (inWrite_latches hb 1#32 1#8 14).2.2⟩⟩,
    ⟨_, (inRead_run 12 (by decide)).1, rfl, drive_eq_level.2 ⟨(inRead_controls hb 1#32 12).2.1,
      (inRead_latches hb 1#32 12).2.1⟩⟩,
    ⟨inRead Config.board 1#32 21, _, (inRead_run 21 (by decide)).1, rfl, drive_eq_level.2 ⟨(inRead_controls hb 1#32 21).1, r.1⟩,
      step_quiet (m := .setPinHigh Config.board.ce) rfl ?_ rfl rfl (NoRise.of_latch ?_)
        (contended_of_input fun i => (dirOf_setLat ..).trans (inRead_data 1#32 21 i))⟩,
    ⟨ready_runPoint hb, rfl, rfl⟩, ⟨_, _, (inRead_run 0 (by decide)).1, rfl, rfl⟩⟩
  · simp [commandSteps, readbSteps, encAddr]
  · rw [r.2.2]; simp

/-- The step of a WRITEB at which WE rises. -/
theorem rising_step : ∃ t, step (inWrite Config.board 1#32 1#8 14) = .next t := by
  have hm : (commandSteps Config.world.board (.writeb 1#32 1#8))[14]? = some (.setPinHigh Config.board.we) := by
    simp [Config.world_board, commandSteps, writebSteps, encAddr]
  have ho : drive (effect Config.world (.setPinHigh Config.board.we) (inWrite Config.board 1#32 1#8 14)) Config.board.oe =
      .level true := by
    simp only [effect, writeOf, drive_chipReact, drive_emit]
    refine drive_eq_level.2 ⟨(inWrite_controls Config.board_wf 1#32 1#8 14).2.1, ?_⟩
    simp only [latOf_setLat, Config.board_wf.oe_ne_we, if_false]
    exact (inWrite_latches Config.board_wf 1#32 1#8 14).2.1
  exact ⟨_, (step_busy rfl).trans (sequencerStep_eq_next.2
    ⟨_, _, hm, perform_eq_next.2 ⟨fun _ => rfl, rfl, contended_of_chipOff (.inr ho), rfl⟩, rfl⟩)⟩

/-- A whole WRITEB from an Idle point, and step 14 of one. -/
theorem test_witness_OnlyWritebStores :
    (RunPoint Config.board (withCommand 0x30100000001#42) ∧ ∃ t, step (withCommand 0x30100000001#42) = .next t) ∧
    RunPoint Config.board (inWrite Config.board 1#32 1#8 14) ∧
    ∃ t, step (inWrite Config.board 1#32 1#8 14) = .next t :=
  ⟨⟨withCommand_point _, writeb_steps⟩, (inWrite_run 14 (by decide)).1, rising_step⟩

end Sys2Proof.Tests
end

section
/-! PROOFS. What one primitive writes, pin by pin, and which primitives a command issues. -/

namespace Sys2Proof.Machine

/-! ### The pin registers after one primitive -/

/-- The direction a primitive gives to pin `p`, if it gives one (10_state.md rule R11); `close()` takes them all. -/
def Prim.setsDir : Prim → Pin → Option PinDir
  | .setPinDirection q d, p => if p = q then some d else none
  | _, _                    => none

/-- The level a primitive writes to the latch of pin `p`, if it writes one (rule R12); `close()` takes them all. -/
def Prim.setsLevel : Prim → Pin → Option Bool
  | .setPinHigh q, p  => if p = q then some true else none
  | .setPinLow q, p   => if p = q then some false else none
  | .setPinsHigh k, p => if maskHas k p then some true else none
  | .setPinsLow k, p  => if maskHas k p then some false else none
  | _, _              => none

theorem dirOf_effect (w : World) {m : Prim} (hm : m ≠ .close) (s : State) (p : Pin) :
    (effect w m s).dirOf p = (m.setsDir p).or (s.dirOf p) := by
  rw [dirOf_congr (effect_dir w m s)]
  cases m with
  | close => exact absurd rfl hm
  | setPinDirection q d =>
    simp only [writeOf, dirOf_setDir, Prim.setsDir]
    split <;> rfl
  | _ => rfl

theorem latOf_effect (w : World) {m : Prim} (hm : m ≠ .close) (s : State) (p : Pin) :
    (effect w m s).latOf p = (m.setsLevel p).or (s.latOf p) := by
  rw [latOf_congr (effect_lat w m s)]
  cases m with
  | close => exact absurd rfl hm
  | setPinHigh q =>
    simp only [writeOf, latOf_setLat, Prim.setsLevel]
    split <;> rfl
  | setPinLow q =>
    simp only [writeOf, latOf_setLat, Prim.setsLevel]
    split <;> rfl
  | setPinsHigh k =>
    simp only [writeOf, latOf_setLats, Prim.setsLevel]
    split <;> rfl
  | setPinsLow k =>
    simp only [writeOf, latOf_setLats, Prim.setsLevel]
    split <;> rfl
  | _ => rfl

/-- `close()` leaves every pin without value (40_pin_primitives.md rule R75). -/
theorem effect_close_pinsUnset (w : World) (s : State) : PinsUnset (effect w .close s) := fun p =>
  ⟨(dirOf_congr (effect_dir w .close s) p).trans (dirOf_clearPins s p),
    (latOf_congr (effect_lat w .close s) p).trans (latOf_clearPins s p)⟩

theorem setsDir_eq_some {m : Prim} {p : Pin} {d : PinDir} : m.setsDir p = some d ↔ m = .setPinDirection p d := by
  cases m <;> simp [Prim.setsDir, eq_comm (a := p)]

theorem setsLevel_eq_true {m : Prim} {p : Pin} :
    m.setsLevel p = some true ↔ m = .setPinHigh p ∨ ∃ k, m = .setPinsHigh k ∧ maskHas k p = true := by
  cases m <;> simp [Prim.setsLevel, eq_comm (a := p)]

theorem setsLevel_eq_false {m : Prim} {p : Pin} :
    m.setsLevel p = some false ↔ m = .setPinLow p ∨ ∃ k, m = .setPinsLow k ∧ maskHas k p = true := by
  cases m <;> simp [Prim.setsLevel, eq_comm (a := p)]

/-- Settles O8: a primitive other than `close()` writes a register of pin `p` only with the value it names for it. -/
theorem onlyTheirPrimitivesWritePins : Obligations.OnlyTheirPrimitivesWritePins := by
  unfold Obligations.OnlyTheirPrimitivesWritePins
  intro w m s t h p
  obtain ⟨-, -, -, rfl⟩ := perform_eq_next.1 h
  by_cases hm : m = .close
  · subst hm
    exact ⟨fun _ => .inl rfl, fun _ => .inl rfl, fun _ => effect_close_pinsUnset w s p⟩
  · refine ⟨fun hd => .inr ?_, fun hl => .inr ?_, fun e => absurd e hm⟩
    · rw [dirOf_effect w hm] at hd ⊢
      cases e : m.setsDir p with
      | none => exact absurd (by rw [e]; rfl) hd
      | some d => exact ⟨d, setsDir_eq_some.1 e, rfl⟩
    · rw [latOf_effect w hm] at hl ⊢
      cases e : m.setsLevel p with
      | none => exact absurd (by rw [e]; rfl) hl
      | some b =>
        cases b with
        | true => exact .inl ⟨rfl, setsLevel_eq_true.1 e⟩
        | false => exact .inr ⟨rfl, setsLevel_eq_false.1 e⟩

/-! ### The pins a command's primitives name -/

/-- A mask over a pin sequence names pins of the sequence alone. -/
theorem maskHas_maskFrom_mem {keep : Nat → Bool} {i : Nat} {ps : List Pin} {q : Pin}
    (h : maskHas (maskFrom keep i ps) q = true) : q ∈ ps := by
  obtain ⟨j, hj, -⟩ := (maskHas_maskFrom keep i ps q).1 h
  exact List.mem_of_getElem? hj

/-- A primitive that names no pin outside a PinAssignment. -/
def Prim.Within (b : Board) (m : Prim) : Prop := ∀ p, p ∉ b.pins → m.setsDir p = none ∧ m.setsLevel p = none

theorem within_setPinDirection {b : Board} {q : Pin} (h : q ∈ b.pins) (d : PinDir) :
    (Prim.setPinDirection q d).Within b := fun p hp =>
  ⟨if_neg fun (e : p = q) => hp (e ▸ h), rfl⟩

theorem within_setPinHigh {b : Board} {q : Pin} (h : q ∈ b.pins) : (Prim.setPinHigh q).Within b := fun p hp =>
  ⟨rfl, if_neg fun (e : p = q) => hp (e ▸ h)⟩

theorem within_setPinLow {b : Board} {q : Pin} (h : q ∈ b.pins) : (Prim.setPinLow q).Within b := fun p hp =>
  ⟨rfl, if_neg fun (e : p = q) => hp (e ▸ h)⟩

theorem within_setPinsHigh {b : Board} {k : Mask} (h : ∀ p, maskHas k p = true → p ∈ b.pins) :
    (Prim.setPinsHigh k).Within b := fun p hp => ⟨rfl, if_neg fun e => hp (h p e)⟩

theorem within_setPinsLow {b : Board} {k : Mask} (h : ∀ p, maskHas k p = true → p ∈ b.pins) :
    (Prim.setPinsLow k).Within b := fun p hp => ⟨rfl, if_neg fun e => hp (h p e)⟩

theorem addr_mem_pins {b : Board} {p : Pin} (h : p ∈ b.addr.toList) : p ∈ b.pins := List.mem_append_right _ h

theorem data_mem_pins {b : Board} {p : Pin} (h : p ∈ b.data.toList) : p ∈ b.pins :=
  List.mem_append_left _ (List.mem_append_right _ h)

theorem control_mem_pins {b : Board} {p : Pin} (h : p ∈ [b.ce, b.oe, b.we]) : p ∈ b.pins :=
  List.mem_append_left _ (List.mem_append_left _ h)

/-- Every primitive of a command's step list names pins of the PinAssignment alone (10_state.md rule R13). -/
theorem commandSteps_within {b : Board} {c : Instr} {k : Nat} {m : Prim} (h : (commandSteps b c)[k]? = some m) :
    m.Within b := by
  have hce : b.ce ∈ b.pins := control_mem_pins (by simp)
  have hoe : b.oe ∈ b.pins := control_mem_pins (by simp)
  have hwe : b.we ∈ b.pins := control_mem_pins (by simp)
  have ha : ∀ i, b.addr.get i ∈ b.pins := fun i => addr_mem_pins (Vector.get_mem_toList b.addr i)
  have hd : ∀ i, b.data.get i ∈ b.pins := fun i => data_mem_pins (Vector.get_mem_toList b.data i)
  have has : ∀ a p, maskHas (addrSet b a) p = true → p ∈ b.pins := fun a p e => addr_mem_pins (maskHas_maskFrom_mem e)
  have hac : ∀ a p, maskHas (addrClr b a) p = true → p ∈ b.pins := fun a p e => addr_mem_pins (maskHas_maskFrom_mem e)
  cases c with
  | init =>
    rcases initSteps_at h with ⟨-, rfl⟩ | ⟨-, rfl⟩ | ⟨-, rfl⟩ | ⟨-, rfl⟩ | ⟨-, rfl⟩ | ⟨i, -, rfl⟩ | ⟨-, rfl⟩ | ⟨-, rfl⟩
    · exact fun p _ => ⟨rfl, rfl⟩
    · refine within_setPinsHigh fun p e => control_mem_pins ?_
      simpa [maskHas_ctrlAll, eq_comm (a := p), or_assoc] using e
    · exact within_setPinDirection hce _
    · exact within_setPinDirection hoe _
    · exact within_setPinDirection hwe _
    · exact within_setPinDirection (ha i) _
    · exact fun p _ => ⟨rfl, rfl⟩
    · exact fun p _ => ⟨rfl, rfl⟩
  | shutdown =>
    obtain rfl : m = .close := List.mem_singleton.1 (List.mem_of_getElem? h)
    exact fun p _ => ⟨rfl, rfl⟩
  | readb a =>
    rcases readbSteps_at h with ⟨-, rfl⟩ | ⟨-, rfl⟩ | ⟨i, -, rfl⟩ | ⟨-, rfl⟩ | ⟨-, rfl⟩ | ⟨i, -, rfl⟩ | ⟨-, rfl⟩ | ⟨-, rfl⟩
    · exact within_setPinsHigh (has a)
    · exact within_setPinsLow (hac a)
    · exact within_setPinDirection (hd i) _
    · exact within_setPinLow hce
    · exact within_setPinLow hoe
    · exact fun p _ => ⟨rfl, rfl⟩
    · exact within_setPinHigh hoe
    · exact within_setPinHigh hce
  | writeb a v =>
    rcases writebSteps_at h with
      ⟨-, rfl⟩ | ⟨-, rfl⟩ | ⟨i, -, rfl⟩ | ⟨-, rfl⟩ | ⟨-, rfl⟩ | ⟨-, rfl⟩ | ⟨-, rfl⟩ | ⟨-, rfl⟩ | ⟨-, rfl⟩
    · exact within_setPinsHigh (has a)
    · exact within_setPinsLow (hac a)
    · exact within_setPinDirection (hd i) _
    · exact within_setPinsHigh fun p e => data_mem_pins (maskHas_maskFrom_mem e)
    · exact within_setPinsLow fun p e => data_mem_pins (maskHas_maskFrom_mem e)
    · exact within_setPinLow hce
    · exact within_setPinLow hwe
    · exact within_setPinHigh hwe
    · exact within_setPinHigh hce

end Sys2Proof.Machine
end

section
/-! PROOFS. A whole command is its sequencer steps one after another (10_state.md rule R16), and so keeps whatever each
of those steps keeps. -/

namespace Sys2Proof.Machine

/-! ### A command that is admitted -/

theorem admission_of_needs {why : Refusal} {c : Instr} {need : Ownership} {s : State} (hs : s.seq = .idle)
    (ha : s.acq = need) : admission need why c s = .next (accept c s) :=
  admission_eq_next.2 ⟨hs, ha, rfl⟩

/-- An admitted command other than INIT is its step list and then its answer. -/
theorem exec_of_admitted {i : Instr} {s : State} (hi : i ≠ .init) (hs : s.seq = .idle) (ha : s.acq = needs i) :
    exec i s = andThen (performAll Config.world (commandSteps Config.board i) (accept i s)) fun t =>
      .next (complete (answerOf t i) t) := by
  cases i with
  | init => exact absurd rfl hi
  | shutdown => rw [exec_shutdown, shutdownIn, admission_of_needs (need := .acquired) hs ha]; rfl
  | readb a => rw [exec_readb, readbIn, admission_of_needs (need := .acquired) hs ha]; rfl
  | writeb a v => rw [exec_writeb, writebIn, admission_of_needs (need := .acquired) hs ha]; rfl

/-- An admitted INIT is `open()`, and then the error exit or the rest of its step list (41_lifecycle.md rule R80). -/
theorem exec_init_of_admitted {s : State} (hs : s.seq = .idle) (ha : s.acq = .released) :
    exec .init s = andThen (perform Config.world .acquire (accept .init s)) fun u =>
      if u.acq = .released then .next (raiseInitError (advance u))
      else andThen (performAll Config.world (initConfigure Config.board) (advance u)) fun t => .next (complete .ok t) := by
  rw [exec_init, initIn, admission_of_needs hs ha]; rfl

theorem exec_admitted {i : Instr} {s t : State} (h : exec i s = .next t) : s.seq = .idle ∧ s.acq = needs i := by
  obtain ⟨hs, ha, -⟩ := exec_eq_next h
  exact ⟨hs, by cases i <;> exact ha⟩

/-! ### One sequencer step of a run -/

/-- The first sequencer step of INIT. -/
theorem step_acquire {s : State} (hs : s.seq = .busy .init 0) :
    step s = andThen (perform Config.world .acquire s) fun u =>
      .next (if u.acq = .released then raiseInitError (advance u) else advance u) := by
  rw [step_busy hs]
  simp [sequencerStep, commandSteps, initSteps, afterStep, initConfigure]

/-- Any other sequencer step, at the head of what is left of the step list: the command ends with its last primitive. -/
theorem step_at {c : Instr} {k : Nat} {m : Prim} {l : List Prim} {s : State} (hs : s.seq = .busy c k)
    (hl : (commandSteps Config.board c).drop k = m :: l) (hk : ¬ (c = .init ∧ k = 0)) :
    step s = andThen (perform Config.world m s) fun u =>
      .next (if l = [] then complete (answerOf u c) (advance u) else advance u) := by
  have hm : (commandSteps Config.board c)[k]? = some m := by
    rw [← List.head?_drop, hl, List.head?_cons]
  have hn : k + 1 = (commandSteps Config.board c).length ↔ l = [] := by
    have := congrArg List.length hl
    rw [List.length_drop, List.length_cons] at this
    rw [← List.length_eq_zero_iff]
    omega
  rw [step_busy hs]
  simp only [sequencerStep, Config.world_board, hm, afterStep]
  congr 1
  funext u
  rw [if_neg fun h => hk ⟨h.1, h.2.1⟩]
  simp only [hn]

theorem drop_succ_of_drop_cons {α : Type} {l r : List α} {k : Nat} {x : α} (h : l.drop k = x :: r) :
    l.drop (k + 1) = r := by
  rw [← List.tail_drop, h, List.tail_cons]

theorem answerOf_advance (c : Instr) (s : State) : answerOf (advance s) c = answerOf s c := by
  cases c <;> simp [answerOf]

/-! ### Big step and small steps -/

/-- What is left of a command, run one sequencer step at a time, is what is left of its step list and then its answer. -/
theorem runSteps_eq_performAll {c : Instr} {l : List Prim} {k : Nat} {s : State} (hs : s.seq = .busy c k)
    (hl : (commandSteps Config.board c).drop k = l) (hne : l ≠ []) (hk : ¬ (c = .init ∧ k = 0)) :
    runSteps l.length s = andThen (performAll Config.world l s) fun t => .next (complete (answerOf t c) t) := by
  induction l generalizing s k with
  | nil => exact absurd rfl hne
  | cons m l ih =>
    simp only [List.length_cons, runSteps, step_at hs hl hk, performAll, andThen_assoc]
    cases hp : perform Config.world m s with
    | fault r => rfl
    | refused r => rfl
    | next u =>
      obtain ⟨-, -, -, rfl⟩ := perform_eq_next.1 hp
      simp only [andThen_next]
      cases l with
      | nil => simp [runSteps, performAll, answerOf_advance]
      | cons m' l' =>
        exact ih (k := k + 1) (by simp [hs, Seq.plus]) (drop_succ_of_drop_cons hl) (by simp) (by simp)

/-- `open()` acquires the peripheral exactly when it succeeds. -/
theorem effect_acquire_released {w : World} {s : State} (ha : s.acq = .released) :
    (effect w .acquire s).acq = .released ↔ w.openOk s.trace.length = false := by
  rw [effect_acq, writeOf, ha]
  cases w.openOk s.trace.length <;> simp

theorem commandSteps_ne_nil (b : Board) (c : Instr) : commandSteps b c ≠ [] := by
  cases c <;> simp [commandSteps, initSteps, shutdownSteps, readbSteps, writebSteps]

theorem initConfigure_ne_nil (b : Board) : initConfigure b ≠ [] := by simp [initConfigure]

theorem length_initConfigure (b : Board) : (initConfigure b).length = 23 := by simp [initConfigure]

theorem stepCount_init (w : World) (s : State) :
    stepCount w s .init = (if w.openOk s.trace.length = false then 0 else 23) + 1 := by
  cases h : w.openOk s.trace.length <;> simp [stepCount, h]

theorem stepCount_of_ne_init (w : World) (b : Board) (s : State) {i : Instr} (hi : i ≠ .init) :
    stepCount w s i = (commandSteps b i).length := by
  cases i with
  | init => exact absurd rfl hi
  | shutdown => rfl
  | readb a => exact (length_readbSteps b a).symm
  | writeb a v => exact (length_writebSteps b a v).symm

/-- INIT, whose first step alone decides how many follow. -/
theorem runSteps_init {s : State} (hs : s.seq = .idle) (ha : s.acq = .released) :
    runSteps (stepCount Config.world s .init) (accept .init s) = exec .init s := by
  rw [exec_init_of_admitted hs ha, stepCount_init, runSteps, step_acquire (accept_seq s .init), andThen_assoc]
  cases hp : perform Config.world .acquire (accept .init s) with
  | fault r => rfl
  | refused r => rfl
  | next u =>
    obtain ⟨-, -, -, rfl⟩ := perform_eq_next.1 hp
    have hr := effect_acquire_released (w := Config.world) (s := accept .init s) ha
    simp only [andThen_next]
    by_cases ho : Config.world.openOk s.trace.length = false
    · rw [if_pos (hr.2 ho), if_pos (hr.2 ho), if_pos ho]
      rfl
    · rw [if_neg (mt hr.1 ho), if_neg (mt hr.1 ho), if_neg ho, ← length_initConfigure Config.board]
      exact runSteps_eq_performAll (c := .init) (k := 1) (by simp [Seq.plus]) rfl (initConfigure_ne_nil _) (by simp)

/-- Settles O34: the whole step list from acceptance on, INIT's first step apart because only it can end a command
early. -/
theorem bigStepEqualsSmallSteps : Obligations.BigStepEqualsSmallSteps := by
  unfold Obligations.BigStepEqualsSmallSteps
  intro i s hs ha
  by_cases hi : i = .init
  · subst hi
    exact runSteps_init hs ha
  · rw [exec_of_admitted hi hs ha, stepCount_of_ne_init _ Config.board s hi]
    exact runSteps_eq_performAll (k := 0) (accept_seq s i) rfl (commandSteps_ne_nil _ i) (fun h => hi h.1)

/-! ### What every sequencer step keeps, a command keeps -/

/-- A predicate that every step of a command in progress keeps. -/
def KeptBySequencer (P : State → Prop) : Prop :=
  ∀ (c : Instr) (k : Nat) (s t : State), s.seq = .busy c k → P s → step s = .next t → P t

theorem KeptBySequencer.performAll {P : State → Prop} (hP : KeptBySequencer P) {c : Instr} {l : List Prim} {k : Nat}
    {s t : State} (hs : s.seq = .busy c k) (hl : (commandSteps Config.board c).drop k = l) (hne : l ≠ [])
    (hk : ¬ (c = .init ∧ k = 0)) (h0 : P s) (h : performAll Config.world l s = .next t) :
    P (complete (answerOf t c) t) := by
  induction l generalizing s k with
  | nil => exact absurd rfl hne
  | cons m l ih =>
    obtain ⟨u, hu, h⟩ := andThen_eq_next.1 h
    have h1 := hP c k s _ hs h0 (by rw [step_at hs hl hk, hu, andThen_next])
    cases l with
    | nil =>
      cases h
      simpa [answerOf_advance] using h1
    | cons m' l' =>
      obtain ⟨-, -, -, rfl⟩ := perform_eq_next.1 hu
      exact ih (k := k + 1) (by simp [hs, Seq.plus]) (drop_succ_of_drop_cons hl) (by simp) (by simp)
        (by simpa using h1) h

/-- From its acceptance on, a command keeps what every step of a command in progress keeps. -/
theorem KeptBySequencer.exec {P : State → Prop} (hP : KeptBySequencer P) {i : Instr} {s t : State}
    (h0 : P (accept i s)) (h : exec i s = .next t) : P t := by
  obtain ⟨hs, ha⟩ := exec_admitted h
  by_cases hi : i = .init
  · subst hi
    rw [exec_init_of_admitted hs ha] at h
    obtain ⟨u, hu, h⟩ := andThen_eq_next.1 h
    have h1 := hP .init 0 _ _ (accept_seq s .init) h0 (by rw [step_acquire (accept_seq s .init), hu, andThen_next])
    split at h
    · rename_i hr
      cases h
      simpa [hr] using h1
    · rename_i hr
      obtain ⟨x, hx, h⟩ := andThen_eq_next.1 h
      cases h
      obtain ⟨-, -, -, rfl⟩ := perform_eq_next.1 hu
      exact hP.performAll (c := .init) (k := 1) (by simp [Seq.plus]) rfl (initConfigure_ne_nil _) (by simp)
        (by simpa [hr] using h1) hx
  · rw [exec_of_admitted hi hs ha] at h
    obtain ⟨x, hx, h⟩ := andThen_eq_next.1 h
    cases h
    exact hP.performAll (k := 0) (accept_seq s i) rfl (commandSteps_ne_nil _ i) (fun e => hi e.1) h0 hx

/-- A machine step keeps what acceptance and every step of a command in progress keep. -/
theorem KeptBySequencer.step {P : State → Prop} (hP : KeptBySequencer P)
    (hacc : ∀ (i : Instr) (s : State) (rest : List Word), s.seq = .idle → s.acq = needs i → P s →
      P (accept i { s with pending := rest }))
    {s t : State} (h0 : P s) (h : step s = .next t) : P t := by
  rcases step_eq_next h with ⟨-, -, rfl⟩ | ⟨w, rest, hs, -, hx⟩ | ⟨c, k, hs, -⟩
  · exact h0
  · exact hP.exec (hacc _ s rest hs (exec_admitted hx).2 h0) hx
  · exact hP c k s t hs h0 h

/-! ### What follows a primitive in a step leaves the pins alone -/

theorem afterStep_cases (n : Nat) (c : Instr) (k : Nat) (s : State) :
    afterStep n c k s = advance s ∨ ∃ a, afterStep n c k s = complete a (advance s) := by
  unfold afterStep
  split
  · exact .inr ⟨_, rfl⟩
  · split
    · exact .inr ⟨_, rfl⟩
    · exact .inl rfl

@[simp] theorem afterStep_acq (n : Nat) (c : Instr) (k : Nat) (s : State) : (afterStep n c k s).acq = s.acq := by
  rcases afterStep_cases n c k s with e | ⟨a, e⟩ <;> simp [e]

@[simp] theorem dirOf_afterStep (n : Nat) (c : Instr) (k : Nat) (s : State) (p : Pin) :
    (afterStep n c k s).dirOf p = s.dirOf p := by
  rcases afterStep_cases n c k s with e | ⟨a, e⟩ <;> simp [e]

@[simp] theorem latOf_afterStep (n : Nat) (c : Instr) (k : Nat) (s : State) (p : Pin) :
    (afterStep n c k s).latOf p = s.latOf p := by
  rcases afterStep_cases n c k s with e | ⟨a, e⟩ <;> simp [e]

/-- A step of a command in progress performs the primitive at its position, with the effect of that primitive. -/
theorem step_busy_eq_next {c : Instr} {k : Nat} {s t : State} (hs : s.seq = .busy c k) (h : step s = .next t) :
    ∃ m, (commandSteps Config.board c)[k]? = some m ∧ (m.needsPeripheral = true → s.acq = .acquired) ∧
      t = afterStep (commandSteps Config.board c).length c k (effect Config.world m s) := by
  obtain ⟨m, u, hm, hu, rfl⟩ := sequencerStep_eq_next.1 ((step_busy hs).symm.trans h)
  obtain ⟨hn, -, -, rfl⟩ := perform_eq_next.1 hu
  exact ⟨m, hm, hn, rfl⟩

/-! ### Invariants -/

/-- A primitive that leaves the peripheral Released took no pin out of `⊥`: it wrote no pin, or it is `close()`. -/
theorem effect_releasedPinsUnset {w : World} {m : Prim} {s : State} (hn : m.needsPeripheral = true → s.acq = .acquired)
    (h : ReleasedPinsUnset s) : ReleasedPinsUnset (effect w m s) := by
  intro hr
  by_cases hm : m = .close
  · subst hm
    exact effect_close_pinsUnset w s
  · have quiet : s.acq = .released ∧ ∀ p, m.setsDir p = none ∧ m.setsLevel p = none := by
      rw [effect_acq] at hr
      cases m with
      | acquire =>
        refine ⟨?_, fun p => ⟨rfl, rfl⟩⟩
        cases ho : w.openOk s.trace.length <;> simp [writeOf, ho] at hr
        exact hr
      | close => exact absurd rfl hm
      | inform n => exact ⟨hr, fun p => ⟨rfl, rfl⟩⟩
      | _ => exact absurd ((hn rfl).symm.trans hr) (by decide)
    obtain ⟨ha, hw⟩ := quiet
    intro p
    rw [dirOf_effect w hm, latOf_effect w hm, (hw p).1, (hw p).2]
    exact h ha p

/-- Settles O40: only the operations that need the peripheral give a pin a value, and `close()` takes every value away. -/
theorem stepKeepsReleasedPinsUnset : Obligations.StepKeepsReleasedPinsUnset := by
  unfold Obligations.StepKeepsReleasedPinsUnset
  intro s t h0 h
  refine KeptBySequencer.step (P := ReleasedPinsUnset) (fun c k s t hs hP ht => ?_)
    (fun i s rest _ _ hP => hP) h0 h
  obtain ⟨m, -, hn, rfl⟩ := step_busy_eq_next hs ht
  have hu := effect_releasedPinsUnset (w := Config.world) hn hP
  exact fun hr p => by simpa using hu (by simpa using hr) p

/-- No pin outside the PinAssignment has a direction or a level. -/
def OthersUnset (b : Board) (s : State) : Prop := ∀ p, p ∉ b.pins → s.dirOf p = none ∧ s.latOf p = none

theorem effect_othersUnset {w : World} {b : Board} {m : Prim} {s : State} (hm : m.Within b) (h : OthersUnset b s) :
    OthersUnset b (effect w m s) := by
  intro p hp
  by_cases hc : m = .close
  · subst hc
    exact effect_close_pinsUnset w s p
  · rw [dirOf_effect w hc, latOf_effect w hc, (hm p hp).1, (hm p hp).2]
    exact h p hp

/-- Settles O42: every primitive of every step list names pins of the PinAssignment alone. -/
theorem otherPinsNeverTouched : Obligations.OtherPinsNeverTouched := by
  unfold Obligations.OtherPinsNeverTouched
  intro s t h0 h
  refine KeptBySequencer.step (P := OthersUnset Config.board) (fun c k s t hs hP ht => ?_)
    (fun i s rest _ _ hP => hP) h0 h
  obtain ⟨m, hm, -, rfl⟩ := step_busy_eq_next hs ht
  have hu := effect_othersUnset (w := Config.world) (commandSteps_within hm) hP
  exact fun p hp => by simpa using hu p hp

/-- The trace and the answers of `s₀` stand at the head of those of `s`. -/
def Extends (s₀ s : State) : Prop := (∃ ev, s.trace = s₀.trace ++ ev) ∧ ∃ ans, s.answers = s₀.answers ++ ans

theorem Extends.effect {w : World} {m : Prim} {s₀ s : State} (h : Extends s₀ s) : Extends s₀ (effect w m s) := by
  obtain ⟨⟨ev, he⟩, ans, ha⟩ := h
  exact ⟨⟨ev ++ [eventOf w s m], by rw [effect_trace, he, List.append_assoc]⟩, ans, by rw [effect_answers, ha]⟩

theorem Extends.complete {s₀ s : State} (h : Extends s₀ s) (a : Answer) : Extends s₀ (complete a s) := by
  obtain ⟨⟨ev, he⟩, ans, ha⟩ := h
  exact ⟨⟨ev, he⟩, ans ++ [a], by rw [complete_answers, ha, List.append_assoc]⟩

theorem Extends.advance {s₀ s : State} (h : Extends s₀ s) : Extends s₀ (advance s) := by
  simpa [Extends] using h

/-- Settles O43: a primitive appends its event, the end of a command its answer, and nothing else writes either list. -/
theorem traceOnlyGrows : Obligations.TraceOnlyGrows := by
  unfold Obligations.TraceOnlyGrows
  intro s₀ t h
  refine KeptBySequencer.step (P := Extends s₀) (fun c k s t hs hP ht => ?_) (fun i s rest _ _ hP => hP)
    ⟨⟨[], by simp⟩, [], by simp⟩ h
  obtain ⟨m, -, -, rfl⟩ := step_busy_eq_next hs ht
  have hu := (hP.effect (w := Config.world) (m := m)).advance
  rcases afterStep_cases (commandSteps Config.board c).length c k (effect Config.world m s) with e | ⟨a, e⟩
  · rwa [e]
  · rw [e]
    exact hu.complete a

/-- Settles O38. -/
theorem resetMeetsInvariants : Obligations.ResetMeetsInvariants := by
  unfold Obligations.ResetMeetsInvariants
  have h : PinsUnset State.reset := fun p => ⟨dirOf_reset p, latOf_reset p⟩
  exact ⟨rfl, fun _ => h, h, fun p _ => h p⟩

/-! ### Frames of whole commands -/

/-- Settles O22: no primitive writes `pending` or `chip`, and the end of a command empties the samples. -/
theorem commandsLeaveOwnFields : Obligations.CommandsLeaveOwnFields := by
  unfold Obligations.CommandsLeaveOwnFields
  intro i s t h
  obtain ⟨-, -, ⟨u, hu, rfl⟩ | ⟨-, u, hu, -, rfl⟩⟩ := exec_eq_next h
  · obtain ⟨-, hp, hc, -⟩ := performAll_keeps hu
    exact ⟨rfl, hp, hc⟩
  · obtain ⟨-, -, -, rfl⟩ := perform_eq_next.1 hu
    exact ⟨rfl, by simp [raiseInitError], by simp [raiseInitError]⟩

/-- After a list of primitives that gives pin `p` no direction but `d` and does not close, `p` has the direction `d` if it
had it before or the list gives it. -/
theorem performAll_dirOf {w : World} {l : List Prim} {s t : State} {p : Pin} {d : PinDir}
    (h : performAll w l s = .next t) (hc : .close ∉ l) (hl : ∀ d', .setPinDirection p d' ∈ l → d' = d)
    (hd : s.dirOf p = some d ∨ .setPinDirection p d ∈ l) : t.dirOf p = some d := by
  induction l generalizing s with
  | nil =>
    cases h
    simpa using hd
  | cons m l ih =>
    obtain ⟨u, hu, h⟩ := andThen_eq_next.1 h
    obtain ⟨-, -, -, rfl⟩ := perform_eq_next.1 hu
    have hm : m ≠ .close := fun e => hc (by simp [e])
    refine ih h (fun hm => hc (by simp [hm])) (fun d' hm => hl d' (by simp [hm])) ?_
    rw [dirOf_advance, dirOf_effect w hm]
    cases e : m.setsDir p with
    | some d' => exact .inl (congrArg some (hl d' (by simp [setsDir_eq_some.1 e])))
    | none =>
      refine hd.imp id fun hd => (List.mem_cons.1 hd).resolve_left fun hm => ?_
      rw [← hm, setsDir_eq_some.2 rfl] at e
      cases e

/-- The direction steps of READB. -/
theorem setPinDirection_mem_readbSteps {b : Board} {a : HostAddr} {p : Pin} {d : PinDir} :
    .setPinDirection p d ∈ readbSteps b a ↔ p ∈ b.data.toList ∧ d = .input := by
  simp [readbSteps, encAddr, eq_comm (a := PinDir.input)]

/-- The direction steps of WRITEB. -/
theorem setPinDirection_mem_writebSteps {b : Board} {a : HostAddr} {v : Byte} {p : Pin} {d : PinDir} :
    .setPinDirection p d ∈ writebSteps b a v ↔ p ∈ b.data.toList ∧ d = .output := by
  simp [writebSteps, encAddr, eq_comm (a := PinDir.output)]

/-- Settles O25: the only direction steps of READB are to Input, those of WRITEB to Output, one for each data pin. -/
theorem directionAfterCommand : Obligations.DirectionAfterCommand := by
  unfold Obligations.DirectionAfterCommand
  refine ⟨fun a s t h i => ?_, fun a v s t h i => ?_⟩
  · obtain ⟨-, -, ⟨u, hu, rfl⟩ | ⟨hi, -⟩⟩ := exec_eq_next h
    · exact performAll_dirOf (t := u) hu (by simp [commandSteps, readbSteps, encAddr])
        (fun d' hm => (setPinDirection_mem_readbSteps.1 hm).2)
        (.inr (setPinDirection_mem_readbSteps.2 ⟨Vector.get_mem_toList _ i, rfl⟩))
    · cases hi
  · obtain ⟨-, -, ⟨u, hu, rfl⟩ | ⟨hi, -⟩⟩ := exec_eq_next h
    · exact performAll_dirOf (t := u) hu (by simp [commandSteps, writebSteps, encAddr])
        (fun d' hm => (setPinDirection_mem_writebSteps.1 hm).2)
        (.inr (setPinDirection_mem_writebSteps.2 ⟨Vector.get_mem_toList _ i, rfl⟩))
    · cases hi

end Sys2Proof.Machine
end

section
/-! PROOFS. The points of a run: what each sequencer step and each acceptance makes of the pins (10_state.md rule R28). -/

namespace Sys2Proof.Machine

/-! ### One pin across one primitive -/

/-- A primitive other than `close()` that gives pin `p` no direction keeps the one it has. -/
theorem dirOf_effect_same (w : World) {m : Prim} {s : State} {p : Pin} (hm : m ≠ .close) (h : m.setsDir p = none) :
    (effect w m s).dirOf p = s.dirOf p := by
  rw [dirOf_effect w hm, h]; rfl

theorem latOf_effect_same (w : World) {m : Prim} {s : State} {p : Pin} (hm : m ≠ .close) (h : m.setsLevel p = none) :
    (effect w m s).latOf p = s.latOf p := by
  rw [latOf_effect w hm, h]; rfl

theorem dirOf_effect_set (w : World) {m : Prim} {s : State} {p : Pin} {d : PinDir} (h : m.setsDir p = some d) :
    (effect w m s).dirOf p = some d := by
  rw [dirOf_effect w (by rintro rfl; cases h), h]; rfl

theorem latOf_effect_set (w : World) {m : Prim} {s : State} {p : Pin} {b : Bool} (h : m.setsLevel p = some b) :
    (effect w m s).latOf p = some b := by
  rw [latOf_effect w (by rintro rfl; cases h), h]; rfl

/-! ### A value applied to a pin sequence by a bulk set and a bulk clear -/

/-- The latches of a pin sequence when `k` of the two steps that apply `v` to it have run (42_address_encoder.md rule R92,
43_byte_writer.md rule R103). -/
def Applied {n : Nat} (pins : Vector Pin n) (v : BitVec n) (k : Nat) (s : State) : Prop :=
  (1 ≤ k → ∀ i : Fin n, v.getLsbD i.val = true → s.latOf (pins.get i) = some true) ∧
  (2 ≤ k → ∀ i : Fin n, s.latOf (pins.get i) = some (v.getLsbD i.val))

theorem Applied.zero {n : Nat} (pins : Vector Pin n) (v : BitVec n) (s : State) : Applied pins v 0 s :=
  ⟨fun h => by omega, fun h => by omega⟩

theorem Applied.raise {n : Nat} {pins : Vector Pin n} (hp : pins.toList.Nodup) (v : BitVec n) (w : World) (s : State) :
    Applied pins v 1 (effect w (.setPinsHigh (setGroup pins v)) s) := by
  refine ⟨fun _ i hi => latOf_effect_set w ?_, fun h => by omega⟩
  exact setsLevel_eq_true.2 (.inr ⟨_, rfl, (maskHas_maskFrom_get pins hp _ i).trans hi⟩)

theorem Applied.clear {n : Nat} {pins : Vector Pin n} (hp : pins.toList.Nodup) {v : BitVec n} (w : World) {s : State}
    (h : Applied pins v 1 s) : Applied pins v 2 (effect w (.setPinsLow (clearGroup pins v)) s) := by
  have holds : ∀ i : Fin n, (effect w (.setPinsLow (clearGroup pins v)) s).latOf (pins.get i) = some (v.getLsbD i.val) := by
    intro i
    have hm : maskHas (clearGroup pins v) (pins.get i) = !v.getLsbD i.val := maskHas_maskFrom_get pins hp _ i
    cases hv : v.getLsbD i.val with
    | false => exact latOf_effect_set w (setsLevel_eq_false.2 (.inr ⟨_, rfl, by rw [hm, hv]; rfl⟩))
    | true =>
      rw [latOf_effect_same w (by simp) (by simp [Prim.setsLevel, hm, hv])]
      exact h.1 (le_refl 1) i hv
  exact ⟨fun _ i hi => by rw [holds, hi], fun _ => holds⟩

/-- A step that changes none of the sequence's latches keeps what is applied, once all of it is or before any of it. -/
theorem Applied.keep {n : Nat} {pins : Vector Pin n} {v : BitVec n} {k k' : Nat} {s t : State} (h : Applied pins v k s)
    (ht : ∀ i, t.latOf (pins.get i) = s.latOf (pins.get i)) (hk : 2 ≤ k ∨ k' = 0) : Applied pins v k' t := by
  rcases hk with hk | rfl
  · exact ⟨fun _ i hi => (ht i).trans (h.1 (by omega) i hi), fun _ i => (ht i).trans (h.2 hk i)⟩
  · exact Applied.zero pins v t

/-- A single-pin step at a pin outside the sequence keeps what has been applied to it. -/
theorem Applied.keep_pin {n : Nat} {pins : Vector Pin n} {v : BitVec n} {k k' : Nat} {s t : State} {c : Pin} {x : Bool}
    (h : Applied pins v k s) (hk : 2 ≤ k) (hc : ∀ i, pins.get i ≠ c)
    (ht : ∀ p, t.latOf p = if p = c then some x else s.latOf p) : Applied pins v k' t :=
  h.keep (fun i => (ht _).trans (if_neg (hc i))) (.inl hk)

/-! ### The control latches, one at a time -/

theorem latOf_effect_setPinHigh (w : World) (s : State) (p q : Pin) :
    (effect w (.setPinHigh q) s).latOf p = if p = q then some true else s.latOf p := by
  rw [latOf_congr (effect_lat w _ s)]
  exact latOf_setLat s q p true

theorem latOf_effect_setPinLow (w : World) (s : State) (p q : Pin) :
    (effect w (.setPinLow q) s).latOf p = if p = q then some false else s.latOf p := by
  rw [latOf_congr (effect_lat w _ s)]
  exact latOf_setLat s q p false

section
variable {b : Board} {s t : State} {ce oe we x : Bool} (hb : b.Wf) (h : ControlLatches b s ce oe we)
include h

theorem ControlLatches.keep (ht : ∀ c ∈ [b.ce, b.oe, b.we], t.latOf c = s.latOf c) : ControlLatches b t ce oe we :=
  ⟨(ht _ (by simp)).trans h.1, (ht _ (by simp)).trans h.2.1, (ht _ (by simp)).trans h.2.2⟩

include hb

theorem ControlLatches.setCe (ht : ∀ p, t.latOf p = if p = b.ce then some x else s.latOf p) :
    ControlLatches b t x oe we := by
  obtain ⟨-, hoe, hwe⟩ := h
  exact ⟨by simp [ht], by simp [ht, hb.ce_ne_oe.symm, hoe], by simp [ht, hb.ce_ne_we.symm, hwe]⟩

theorem ControlLatches.setOe (ht : ∀ p, t.latOf p = if p = b.oe then some x else s.latOf p) :
    ControlLatches b t ce x we := by
  obtain ⟨hce, -, hwe⟩ := h
  exact ⟨by simp [ht, hb.ce_ne_oe, hce], by simp [ht], by simp [ht, hb.oe_ne_we.symm, hwe]⟩

theorem ControlLatches.setWe (ht : ∀ p, t.latOf p = if p = b.we then some x else s.latOf p) :
    ControlLatches b t ce oe x := by
  obtain ⟨hce, hoe, -⟩ := h
  exact ⟨by simp [ht, hb.ce_ne_we, hce], by simp [ht, hb.oe_ne_we, hoe], by simp [ht]⟩

end

/-! ### The directions inside READB and WRITEB -/

/-- The directions when `k` steps of READB (`d` Input) or WRITEB (`d` Output) have run: the data pins turn one after
another in steps 2 to 9, and no other pin turns. -/
def DirsAt (b : Board) (d : PinDir) (k : Nat) (s : State) : Prop :=
  ControlsOutput b s ∧ AddressOutput b s ∧ DataTurned b s (k - 2) d

theorem DirsAt.keep {b : Board} {d : PinDir} {k : Nat} {m : Prim} {s : State} (h : DirsAt b d k s) (w : World)
    (hm : m ≠ .close) (hn : ∀ p, m.setsDir p = none) (hk : k < 2 ∨ 10 ≤ k) : DirsAt b d (k + 1) (effect w m s) := by
  have ht : ∀ p, (effect w m s).dirOf p = s.dirOf p := fun p => dirOf_effect_same w hm (hn p)
  obtain ⟨⟨hce, hoe, hwe⟩, ha, before, hd⟩ := h
  refine ⟨⟨(ht _).trans hce, (ht _).trans hoe, (ht _).trans hwe⟩, fun i => (ht _).trans (ha i), before, fun i => ?_⟩
  rw [ht, hd]
  have : i.val < k - 2 ↔ i.val < k + 1 - 2 := by omega
  simp only [this]

theorem DirsAt.turn {b : Board} (hb : b.Wf) {d : PinDir} {s : State} {i : Fin 8} (w : World)
    (h : DirsAt b d (2 + i.val) s) : DirsAt b d (2 + i.val + 1) (effect w (.setPinDirection (b.data.get i) d) s) := by
  have other : ∀ p, b.data.get i ≠ p → (effect w (.setPinDirection (b.data.get i) d) s).dirOf p = s.dirOf p :=
    fun p hp => dirOf_effect_same w (by simp) (if_neg hp.symm)
  obtain ⟨⟨hce, hoe, hwe⟩, ha, before, hd⟩ := h
  refine ⟨⟨(other _ (hb.data_ne_ce i)).trans hce, (other _ (hb.data_ne_oe i)).trans hoe,
    (other _ (hb.data_ne_we i)).trans hwe⟩, fun j => (other _ (hb.addr_ne_data j i).symm).trans (ha j), before, fun j => ?_⟩
  by_cases e : j = i
  · subst e
    rw [dirOf_effect_set w (setsDir_eq_some.2 rfl), if_pos (by omega)]
  · rw [other _ fun q => e (Vector.get_inj_of_nodup hb.data_nodup q.symm), hd]
    have : j.val < 2 + i.val - 2 ↔ j.val < 2 + i.val + 1 - 2 := by
      have := Fin.val_ne_of_ne e
      omega
    simp only [this]

/-- The data pins are settled when none of them has turned yet. -/
theorem DataSettled.turned_zero {b : Board} {s : State} (h : DataSettled b s) (d : PinDir) : DataTurned b s 0 d := by
  rcases h with h | ⟨h | h, -⟩
  · exact ⟨none, fun i => (h i).trans (by simp)⟩
  · exact ⟨some .input, fun i => (h i).trans (by simp)⟩
  · exact ⟨some .output, fun i => (h i).trans (by simp)⟩

/-- Once all eight have turned they have one direction. -/
theorem DataTurned.all {b : Board} {s : State} {n : Nat} {d : PinDir} (h : DataTurned b s n d) (hn : 8 ≤ n) :
    DataDirection b s (some d) := by
  obtain ⟨before, hd⟩ := h
  exact fun i => (hd i).trans (if_pos (by omega))

/-! ### READB -/

/-- The pins and the samples when `k` steps of a READB have run (44_byte_reader.md rule R110), its end included. -/
def ReadPins (b : Board) (a : HostAddr) (k : Nat) (s : State) : Prop :=
  DirsAt b .input k s ∧
  ControlLatches b s (!(decide (11 ≤ k) && decide (k ≤ 21))) (!(decide (12 ≤ k) && decide (k ≤ 20))) true ∧
  Applied b.addr (effective a) k s ∧ s.samples.length = min (k - 12) 8

theorem readPoint_iff {b : Board} {a : HostAddr} {k : Nat} {s : State} :
    ReadPoint b a k s ↔ k < 22 ∧ ReadPins b a k s := by
  constructor
  · rintro ⟨hk, hc, ha, hl, h1, h2, hd, hn⟩
    exact ⟨hk, ⟨hc, ha, hd⟩, hl, ⟨h1, h2⟩, hn⟩
  · rintro ⟨hk, ⟨hc, ha, hd⟩, hl, ⟨h1, h2⟩, hn⟩
    exact ⟨hk, hc, ha, hl, h1, h2, hd, hn⟩

theorem effect_samples_of_not_read (w : World) {m : Prim} (hm : ∀ p, m ≠ .readPinLevel p) (s : State) :
    (effect w m s).samples = s.samples := by
  rw [effect_samples]
  cases m with
  | readPinLevel p => exact absurd rfl (hm p)
  | _ => rfl

theorem effect_samples_of_read (w : World) (p : Pin) (s : State) :
    (effect w (.readPinLevel p) s).samples = s.samples ++ [sense w s p] := by
  rw [effect_samples]; rfl

/-- The two bulk steps that apply a value to a pin sequence name no pin outside it. -/
theorem Prim.setsLevel_group {n : Nat} {pins : Vector Pin n} {v : BitVec n} {p : Pin} (h : ∀ i, pins.get i ≠ p) :
    (Prim.setPinsHigh (setGroup pins v)).setsLevel p = none ∧ (Prim.setPinsLow (clearGroup pins v)).setsLevel p = none :=
  ⟨if_neg (by simp [setGroup, maskHas_maskFrom_of_not_mem pins _ p h]),
    if_neg (by simp [clearGroup, maskHas_maskFrom_of_not_mem pins _ p h])⟩

/-- A window of positions has the same answer at two neighbours neither of which is its edge. -/
theorem window_succ {lo hi k : Nat} (hlo : k + 1 ≠ lo) (hhi : k ≠ hi) :
    (!(decide (lo ≤ k + 1) && decide (k + 1 ≤ hi))) = !(decide (lo ≤ k) && decide (k ≤ hi)) := by
  have h1 : lo ≤ k + 1 ↔ lo ≤ k := by omega
  have h2 : k + 1 ≤ hi ↔ k ≤ hi := by omega
  simp only [h1, h2]

/-- Every step of READB, at its position, takes the pins of that position to those of the next. -/
theorem ReadPins.step {b : Board} (hb : b.Wf) {a : HostAddr} {k : Nat} {m : Prim} {s : State} (w : World)
    (hm : (readbSteps b a)[k]? = some m) (h : ReadPins b a k s) : ReadPins b a (k + 1) (effect w m s) := by
  obtain ⟨hd, hl, ha, hn⟩ := h
  have ctl : ∀ c ∈ [b.ce, b.oe, b.we], ∀ i, b.addr.get i ≠ c := hb.parts.2.2.2.2.1
  rcases readbSteps_at hm with ⟨rfl, rfl⟩ | ⟨rfl, rfl⟩ | ⟨i, rfl, rfl⟩ | ⟨rfl, rfl⟩ | ⟨rfl, rfl⟩ | ⟨i, rfl, rfl⟩ |
    ⟨rfl, rfl⟩ | ⟨rfl, rfl⟩
  · refine ⟨hd.keep w (by simp) (fun _ => rfl) (by omega), ?_, Applied.raise hb.addr_nodup _ w s, ?_⟩
    · exact hl.keep fun c hc => latOf_effect_same w (by simp) (Prim.setsLevel_group (ctl c hc)).1
    · rw [effect_samples_of_not_read w (by simp), hn]
  · refine ⟨hd.keep w (by simp) (fun _ => rfl) (by omega), ?_, ha.clear hb.addr_nodup w, ?_⟩
    · exact hl.keep fun c hc => latOf_effect_same w (by simp) (Prim.setsLevel_group (ctl c hc)).2
    · rw [effect_samples_of_not_read w (by simp), hn]
  · have hlat : ∀ p, (effect w (.setPinDirection (b.data.get i) .input) s).latOf p = s.latOf p :=
      fun p => latOf_effect_same w (by simp) rfl
    refine ⟨hd.turn hb w, ?_, ha.keep (fun j => hlat _) (.inl (by omega)), ?_⟩
    · rw [window_succ (by omega) (by omega), window_succ (by omega) (by omega)]
      exact hl.keep fun c _ => hlat c
    · rw [effect_samples_of_not_read w (by simp), hn]
      omega
  · refine ⟨hd.keep w (by simp) (fun _ => rfl) (by omega), hl.setCe hb (latOf_effect_setPinLow w s · b.ce),
      ha.keep_pin (by omega) hb.addr_ne_ce (latOf_effect_setPinLow w s · b.ce), ?_⟩
    rw [effect_samples_of_not_read w (by simp), hn]
  · refine ⟨hd.keep w (by simp) (fun _ => rfl) (by omega), hl.setOe hb (latOf_effect_setPinLow w s · b.oe),
      ha.keep_pin (by omega) hb.addr_ne_oe (latOf_effect_setPinLow w s · b.oe), ?_⟩
    rw [effect_samples_of_not_read w (by simp), hn]
  · have hlat : ∀ p, (effect w (.readPinLevel (b.data.get i)) s).latOf p = s.latOf p :=
      fun p => latOf_effect_same w (by simp) rfl
    refine ⟨hd.keep w (by simp) (fun _ => rfl) (by omega), ?_, ha.keep (fun j => hlat _) (by omega), ?_⟩
    · rw [window_succ (by omega) (by omega), window_succ (by omega) (by omega)]
      exact hl.keep fun c _ => hlat c
    · rw [effect_samples_of_read, List.length_append, hn, List.length_singleton]
      omega
  · refine ⟨hd.keep w (by simp) (fun _ => rfl) (by omega), hl.setOe hb (latOf_effect_setPinHigh w s · b.oe),
      ha.keep_pin (by omega) hb.addr_ne_oe (latOf_effect_setPinHigh w s · b.oe), ?_⟩
    rw [effect_samples_of_not_read w (by simp), hn]
    omega
  · refine ⟨hd.keep w (by simp) (fun _ => rfl) (by omega), hl.setCe hb (latOf_effect_setPinHigh w s · b.ce),
      ha.keep_pin (by omega) hb.addr_ne_ce (latOf_effect_setPinHigh w s · b.ce), ?_⟩
    rw [effect_samples_of_not_read w (by simp), hn]
    omega

/-- READB accepted from the pins of a session. -/
theorem ReadPins.start {b : Board} (a : HostAddr) {s : State} (hp : SessionPins b s) (hd : DataSettled b s) :
    ReadPins b a 0 (accept (.readb a) s) := by
  obtain ⟨hc, hl, ha⟩ := hp
  exact ⟨⟨hc, ha, hd.turned_zero .input⟩, hl, Applied.zero _ _ _, rfl⟩

/-- READB ends on the pins of a session. -/
theorem ReadPins.finish {b : Board} {a : HostAddr} {s : State} (h : ReadPins b a 22 s) :
    SessionPins b s ∧ DataSettled b s := by
  obtain ⟨⟨hc, ha, hd⟩, hl, hap, -⟩ := h
  exact ⟨⟨hc, hl, ha⟩, .inr ⟨.inl (hd.all (by omega)), effective a, hap.2 (by omega)⟩⟩

/-! ### WRITEB -/

/-- The pins when `k` steps of a WRITEB have run (43_byte_writer.md rule R100), its end included. -/
def WritePins (b : Board) (a : HostAddr) (v : Byte) (k : Nat) (s : State) : Prop :=
  DirsAt b .output k s ∧
  ControlLatches b s (!(decide (13 ≤ k) && decide (k ≤ 15))) true (!decide (k = 14)) ∧
  Applied b.addr (effective a) k s ∧ Applied b.data v (k - 10) s

theorem writePoint_iff {b : Board} {a : HostAddr} {v : Byte} {k : Nat} {s : State} :
    WritePoint b a v k s ↔ k < 16 ∧ WritePins b a v k s := by
  constructor
  · rintro ⟨hk, hc, ha, hl, h1, h2, hd, h3, h4⟩
    exact ⟨hk, ⟨hc, ha, hd⟩, hl, ⟨h1, h2⟩, fun e => h3 (by omega), fun e => h4 (by omega)⟩
  · rintro ⟨hk, ⟨hc, ha, hd⟩, hl, ⟨h1, h2⟩, h3, h4⟩
    exact ⟨hk, hc, ha, hl, h1, h2, hd, fun e => h3 (by omega), fun e => h4 (by omega)⟩

/-- Every step of WRITEB, at its position, takes the pins of that position to those of the next. -/
theorem WritePins.step {b : Board} (hb : b.Wf) {a : HostAddr} {v : Byte} {k : Nat} {m : Prim} {s : State} (w : World)
    (hm : (writebSteps b a v)[k]? = some m) (h : WritePins b a v k s) : WritePins b a v (k + 1) (effect w m s) := by
  obtain ⟨hd, hl, ha, hv⟩ := h
  have ctlA : ∀ c ∈ [b.ce, b.oe, b.we], ∀ i, b.addr.get i ≠ c := hb.parts.2.2.2.2.1
  have ctlD : ∀ c ∈ [b.ce, b.oe, b.we], ∀ i, b.data.get i ≠ c := hb.parts.2.2.2.1
  rcases writebSteps_at hm with ⟨rfl, rfl⟩ | ⟨rfl, rfl⟩ | ⟨i, rfl, rfl⟩ | ⟨rfl, rfl⟩ | ⟨rfl, rfl⟩ | ⟨rfl, rfl⟩ |
    ⟨rfl, rfl⟩ | ⟨rfl, rfl⟩ | ⟨rfl, rfl⟩
  · refine ⟨hd.keep w (by simp) (fun _ => rfl) (by omega), ?_, Applied.raise hb.addr_nodup _ w s,
      Applied.zero _ _ _⟩
    exact hl.keep fun c hc => latOf_effect_same w (by simp) (Prim.setsLevel_group (ctlA c hc)).1
  · refine ⟨hd.keep w (by simp) (fun _ => rfl) (by omega), ?_, ha.clear hb.addr_nodup w,
      Applied.zero _ _ _⟩
    exact hl.keep fun c hc => latOf_effect_same w (by simp) (Prim.setsLevel_group (ctlA c hc)).2
  · have hlat : ∀ p, (effect w (.setPinDirection (b.data.get i) .output) s).latOf p = s.latOf p :=
      fun p => latOf_effect_same w (by simp) rfl
    refine ⟨hd.turn hb w, ?_, ha.keep (fun j => hlat _) (.inl (by omega)), hv.keep (fun j => hlat _) (.inr (by omega))⟩
    have we : (!decide (2 + i.val + 1 = 14)) = !decide (2 + i.val = 14) := by simp; omega
    rw [window_succ (by omega) (by omega), we]
    exact hl.keep fun c _ => hlat c
  · refine ⟨hd.keep w (by simp) (fun _ => rfl) (by omega), ?_, ha.keep (fun j => ?_) (by omega),
      Applied.raise hb.data_nodup _ w s⟩
    · exact hl.keep fun c hc => latOf_effect_same w (by simp) (Prim.setsLevel_group (ctlD c hc)).1
    · exact latOf_effect_same w (by simp) (Prim.setsLevel_group fun i => (hb.addr_ne_data j i).symm).1
  · refine ⟨hd.keep w (by simp) (fun _ => rfl) (by omega), ?_, ha.keep (fun j => ?_) (by omega),
      hv.clear hb.data_nodup w⟩
    · exact hl.keep fun c hc => latOf_effect_same w (by simp) (Prim.setsLevel_group (ctlD c hc)).2
    · exact latOf_effect_same w (by simp) (Prim.setsLevel_group fun i => (hb.addr_ne_data j i).symm).2
  · exact ⟨hd.keep w (by simp) (fun _ => rfl) (by omega),
      hl.setCe hb (latOf_effect_setPinLow w s · b.ce),
      ha.keep_pin (by omega) hb.addr_ne_ce (latOf_effect_setPinLow w s · b.ce),
      hv.keep_pin (by omega) hb.data_ne_ce (latOf_effect_setPinLow w s · b.ce)⟩
  · exact ⟨hd.keep w (by simp) (fun _ => rfl) (by omega),
      hl.setWe hb (latOf_effect_setPinLow w s · b.we),
      ha.keep_pin (by omega) hb.addr_ne_we (latOf_effect_setPinLow w s · b.we),
      hv.keep_pin (by omega) hb.data_ne_we (latOf_effect_setPinLow w s · b.we)⟩
  · exact ⟨hd.keep w (by simp) (fun _ => rfl) (by omega),
      hl.setWe hb (latOf_effect_setPinHigh w s · b.we),
      ha.keep_pin (by omega) hb.addr_ne_we (latOf_effect_setPinHigh w s · b.we),
      hv.keep_pin (by omega) hb.data_ne_we (latOf_effect_setPinHigh w s · b.we)⟩
  · exact ⟨hd.keep w (by simp) (fun _ => rfl) (by omega),
      hl.setCe hb (latOf_effect_setPinHigh w s · b.ce),
      ha.keep_pin (by omega) hb.addr_ne_ce (latOf_effect_setPinHigh w s · b.ce),
      hv.keep_pin (by omega) hb.data_ne_ce (latOf_effect_setPinHigh w s · b.ce)⟩

/-- WRITEB accepted from the pins of a session. -/
theorem WritePins.start {b : Board} (a : HostAddr) (v : Byte) {s : State} (hp : SessionPins b s) (hd : DataSettled b s) :
    WritePins b a v 0 (accept (.writeb a v) s) := by
  obtain ⟨hc, hl, ha⟩ := hp
  exact ⟨⟨hc, ha, hd.turned_zero .output⟩, hl, Applied.zero _ _ _, Applied.zero _ _ _⟩

/-- WRITEB ends on the pins of a session. -/
theorem WritePins.finish {b : Board} {a : HostAddr} {v : Byte} {s : State} (h : WritePins b a v 16 s) :
    SessionPins b s ∧ DataSettled b s := by
  obtain ⟨⟨hc, ha, hd⟩, hl, hap, -⟩ := h
  exact ⟨⟨hc, hl, ha⟩, .inr ⟨.inr (hd.all (by omega)), effective a, hap.2 (by omega)⟩⟩

/-! ### INIT -/

/-- The pins that INIT turns to Output, in its order. -/
def initOrder (b : Board) : List Pin := [b.ce, b.oe, b.we] ++ b.addr.toList

theorem initOrder_addr (b : Board) (i : Fin 17) : (initOrder b)[3 + i.val]? = some (b.addr.get i) := by
  simp [initOrder, Vector.get_eq_getElem, Nat.add_comm 3]

theorem initOrder_cases {b : Board} {j : Nat} {p : Pin} (h : (initOrder b)[j]? = some p) :
    (j = 0 ∧ p = b.ce) ∨ (j = 1 ∧ p = b.oe) ∨ (j = 2 ∧ p = b.we) ∨ ∃ i : Fin 17, j = 3 + i.val ∧ p = b.addr.get i := by
  match j, h with
  | 0, h => exact .inl ⟨rfl, (Option.some.inj h).symm⟩
  | 1, h => exact .inr (.inl ⟨rfl, (Option.some.inj h).symm⟩)
  | 2, h => exact .inr (.inr (.inl ⟨rfl, (Option.some.inj h).symm⟩))
  | j + 3, h =>
    obtain ⟨hj, e⟩ := List.getElem?_eq_some_iff.1 (show b.addr.toList[j]? = some p from h)
    exact .inr (.inr (.inr ⟨⟨j, by simpa using hj⟩, Nat.add_comm j 3, by simpa [Vector.get_eq_getElem] using e.symm⟩))

theorem initOrder_nodup {b : Board} (hb : b.Wf) : (initOrder b).Nodup := by
  obtain ⟨hc, -, ha, -, hca, -⟩ := hb.parts
  refine List.nodup_append.2 ⟨hc, ha, fun c hc p hp e => ?_⟩
  obtain ⟨i, hi⟩ := Vector.exists_get_of_mem hp
  exact hca c hc i (hi.trans e.symm)

/-- INIT turns no data pin (rule R83). -/
theorem data_not_initOrder {b : Board} (hb : b.Wf) (i : Fin 8) : b.data.get i ∉ initOrder b := by
  intro h
  rcases List.mem_append.1 h with h | h
  · exact hb.parts.2.2.2.1 _ h i rfl
  · obtain ⟨j, hj⟩ := Vector.exists_get_of_mem h
    exact hb.addr_ne_data j i hj

/-- The pins when `k` steps of an INIT that acquired the peripheral have run (41_lifecycle.md rule R80), its end
included: the `j`-th pin turns in step `2 + j`. -/
def InitPins (b : Board) (k : Nat) (s : State) : Prop :=
  (∀ p ∈ [b.ce, b.oe, b.we], s.latOf p = if 2 ≤ k then some true else none) ∧
  (∀ j p, (initOrder b)[j]? = some p → s.dirOf p = if 3 + j ≤ k then some .output else none) ∧
  DataDirection b s none

theorem initPoint_iff {b : Board} {k : Nat} {s : State} : InitPoint b k s ↔ 1 ≤ k ∧ k < 24 ∧ InitPins b k s := by
  constructor
  · rintro ⟨h1, h2, hl, hce, hoe, hwe, ha, hd⟩
    refine ⟨h1, h2, hl, fun j p hj => ?_, hd⟩
    rcases initOrder_cases hj with ⟨rfl, rfl⟩ | ⟨rfl, rfl⟩ | ⟨rfl, rfl⟩ | ⟨i, rfl, rfl⟩
    · exact hce
    · exact hoe
    · exact hwe
    · rw [ha, ← Nat.add_assoc]
  · rintro ⟨h1, h2, hl, ht, hd⟩
    refine ⟨h1, h2, hl, ht 0 _ rfl, ht 1 _ rfl, ht 2 _ rfl, fun i => ?_, hd⟩
    rw [ht _ _ (initOrder_addr b i), ← Nat.add_assoc]

/-- A step of INIT that turns no pin. -/
theorem InitPins.keep {b : Board} {k : Nat} {m : Prim} {s : State} (w : World) (hm : m ≠ .close)
    (hn : ∀ p, m.setsDir p = none) (hk : k < 2 ∨ 22 ≤ k)
    (hl : ∀ p ∈ [b.ce, b.oe, b.we], (effect w m s).latOf p = if 2 ≤ k + 1 then some true else none)
    (h : InitPins b k s) : InitPins b (k + 1) (effect w m s) := by
  obtain ⟨-, ht, hd⟩ := h
  have same : ∀ p, (effect w m s).dirOf p = s.dirOf p := fun p => dirOf_effect_same w hm (hn p)
  refine ⟨hl, fun j p hj => ?_, fun i => (same _).trans (hd i)⟩
  have hlt : j < 20 := by simpa [initOrder] using (List.getElem?_eq_some_iff.1 hj).1
  have : 3 + j ≤ k + 1 ↔ 3 + j ≤ k := by omega
  rw [same, ht j p hj]
  simp only [this]

/-- The step of INIT that turns its `j`-th pin. -/
theorem InitPins.turn {b : Board} (hb : b.Wf) {j : Nat} {q : Pin} {s : State} (w : World)
    (hq : (initOrder b)[j]? = some q) (h : InitPins b (2 + j) s) :
    InitPins b (2 + j + 1) (effect w (.setPinDirection q .output) s) := by
  obtain ⟨hl, ht, hd⟩ := h
  have other : ∀ p, p ≠ q → (effect w (.setPinDirection q .output) s).dirOf p = s.dirOf p :=
    fun p hp => dirOf_effect_same w (by simp) (if_neg hp)
  refine ⟨fun p hp => ?_, fun i p hi => ?_, fun i => ?_⟩
  · rw [latOf_effect_same w (by simp) rfl, hl p hp, if_pos (by omega), if_pos (by omega)]
  · by_cases e : p = q
    · subst e
      have : i = j := (List.getElem?_inj (List.getElem?_eq_some_iff.1 hi).1 (initOrder_nodup hb)).1 (hi.trans hq.symm)
      rw [dirOf_effect_set w (setsDir_eq_some.2 rfl), if_pos (by omega)]
    · have hij : i ≠ j := by
        rintro rfl
        exact e (Option.some.inj (hi.symm.trans hq))
      have : 3 + i ≤ 2 + j + 1 ↔ 3 + i ≤ 2 + j := by omega
      rw [other p e, ht i p hi]
      simp only [this]
  · refine (other _ ?_).trans (hd i)
    rintro rfl
    exact data_not_initOrder hb i (List.mem_of_getElem? hq)

/-- Every step of INIT after `open()`, at its position, takes the pins of that position to those of the next. -/
theorem InitPins.step {b : Board} (hb : b.Wf) {k : Nat} {m : Prim} {s : State} (w : World) (hk : 1 ≤ k)
    (hm : (initSteps b)[k]? = some m) (h : InitPins b k s) : InitPins b (k + 1) (effect w m s) := by
  rcases initSteps_at hm with ⟨rfl, rfl⟩ | ⟨rfl, rfl⟩ | ⟨rfl, rfl⟩ | ⟨rfl, rfl⟩ | ⟨rfl, rfl⟩ | ⟨i, rfl, rfl⟩ |
    ⟨rfl, rfl⟩ | ⟨rfl, rfl⟩
  · omega
  · refine h.keep w (by simp) (fun _ => rfl) (by omega) fun p hp => ?_
    have hc : maskHas (ctrlAll b) p = true := by simpa [maskHas_ctrlAll, eq_comm (a := p), or_assoc] using hp
    exact latOf_effect_set w (setsLevel_eq_true.2 (.inr ⟨_, rfl, hc⟩))
  · exact h.turn hb w (j := 0) rfl
  · exact h.turn hb w (j := 1) rfl
  · exact h.turn hb w (j := 2) rfl
  · rw [show 5 + i.val = 2 + (3 + i.val) by omega] at h ⊢
    exact h.turn hb w (initOrder_addr b i)
  · exact h.keep w (by simp) (fun _ => rfl) (by omega) fun p hp => (latOf_effect_same w (by simp) rfl).trans (h.1 p hp)
  · exact h.keep w (by simp) (fun _ => rfl) (by omega) fun p hp => (latOf_effect_same w (by simp) rfl).trans (h.1 p hp)

/-- `open()` acquires the peripheral and moves no pin. -/
theorem InitPins.start {b : Board} {s : State} (w : World) (h : PinsUnset s) : InitPins b 1 (effect w .acquire s) := by
  have hd : ∀ p, (effect w .acquire s).dirOf p = none := fun p => (dirOf_effect_same w (by simp) rfl).trans (h p).1
  refine ⟨fun p _ => ?_, fun j p _ => ?_, fun i => hd _⟩
  · exact (latOf_effect_same w (by simp) rfl).trans (h p).2
  · rw [hd, if_neg (by omega)]

/-- INIT ends on the pins of a session. -/
theorem InitPins.finish {b : Board} {s : State} (h : InitPins b 24 s) : SessionPins b s ∧ DataSettled b s := by
  obtain ⟨hl, ht, hd⟩ := h
  refine ⟨⟨⟨ht 0 _ rfl, ht 1 _ rfl, ht 2 _ rfl⟩, ⟨hl _ (by simp), hl _ (by simp), hl _ (by simp)⟩, fun i => ?_⟩, .inl hd⟩
  exact (ht _ _ (initOrder_addr b i)).trans (if_pos (by omega))

/-! ### The points of a run -/

/-- The pins when `k` steps of a command that holds the peripheral have run, its end included but for SHUTDOWN's. -/
def CommandPins (b : Board) : Instr → Nat → State → Prop
  | .init, k, s       => InitPins b k s
  | .shutdown, _, s   => SessionPins b s ∧ DataSettled b s
  | .readb a, k, s    => ReadPins b a k s
  | .writeb a v, k, s => WritePins b a v k s

section
variable {b : Board} {s : State}

theorem runPoint_released_idle (ha : s.acq = .released) (hs : s.seq = .idle) : RunPoint b s ↔ PinsUnset s := by
  simp only [RunPoint, ha, hs]

theorem runPoint_acquired_idle (ha : s.acq = .acquired) (hs : s.seq = .idle) :
    RunPoint b s ↔ SessionPins b s ∧ DataSettled b s := by
  simp only [RunPoint, ha, hs]

theorem runPoint_released_busy {c : Instr} {k : Nat} (ha : s.acq = .released) (hs : s.seq = .busy c k) :
    RunPoint b s ↔ c = .init ∧ k = 0 ∧ PinsUnset s := by
  cases c <;> simp [RunPoint, ha, hs]

theorem runPoint_acquired_busy {c : Instr} {k : Nat} (ha : s.acq = .acquired) (hs : s.seq = .busy c k) :
    RunPoint b s ↔ (c = .init → 1 ≤ k) ∧ k < (commandSteps b c).length ∧ CommandPins b c k s := by
  cases c with
  | init => simp [RunPoint, ha, hs, initPoint_iff, CommandPins, commandSteps, length_initSteps]
  | shutdown => simp [RunPoint, ha, hs, CommandPins, commandSteps, length_shutdownSteps]
  | readb a => simp [RunPoint, ha, hs, readPoint_iff, CommandPins, commandSteps, length_readbSteps]
  | writeb a v => simp [RunPoint, ha, hs, writePoint_iff, CommandPins, commandSteps, length_writebSteps]

end

/-- Neither the position nor the answers are pins. -/
theorem commandPins_advance {b : Board} {c : Instr} {k : Nat} {s : State} :
    CommandPins b c k (advance s) ↔ CommandPins b c k s := by
  rw [advance_eq]
  cases c <;> exact Iff.rfl

theorem sessionPins_complete_advance {b : Board} {a : Answer} {s : State} :
    SessionPins b (complete a (advance s)) ∧ DataSettled b (complete a (advance s)) ↔ SessionPins b s ∧ DataSettled b s := by
  rw [advance_eq]
  exact Iff.rfl

/-- Every step of a command that holds the peripheral and keeps it. -/
theorem CommandPins.step {b : Board} (hb : b.Wf) {c : Instr} {k : Nat} {m : Prim} {s : State} (w : World)
    (hc : c ≠ .shutdown) (hk : c = .init → 1 ≤ k) (hm : (commandSteps b c)[k]? = some m) (h : CommandPins b c k s) :
    CommandPins b c (k + 1) (effect w m s) := by
  cases c with
  | init => exact InitPins.step hb w (hk rfl) hm h
  | shutdown => exact absurd rfl hc
  | readb a => exact ReadPins.step hb w hm h
  | writeb a v => exact WritePins.step hb w hm h

/-- Every command that keeps the peripheral ends on the pins of a session. -/
theorem CommandPins.finish {b : Board} {c : Instr} {k : Nat} {s : State} (hk : k = (commandSteps b c).length)
    (h : CommandPins b c k s) : SessionPins b s ∧ DataSettled b s := by
  subst hk
  cases c with
  | init => exact InitPins.finish (by rwa [commandSteps, CommandPins, length_initSteps] at h)
  | shutdown => exact h
  | readb a => exact ReadPins.finish (a := a) (by rwa [commandSteps, CommandPins, length_readbSteps] at h)
  | writeb a v => exact WritePins.finish (a := a) (v := v) (by rwa [commandSteps, CommandPins, length_writebSteps] at h)

/-- Acceptance enters the points inside a command. -/
theorem runPoint_accept {b : Board} {i : Instr} {s : State} (h : RunPoint b s) (hs : s.seq = .idle)
    (ha : s.acq = needs i) : RunPoint b (accept i s) := by
  cases i with
  | init => exact (runPoint_released_busy (s := accept .init s) ha rfl).2 ⟨rfl, rfl, (runPoint_released_idle ha hs).1 h⟩
  | shutdown =>
    exact (runPoint_acquired_busy (s := accept .shutdown s) ha rfl).2
      ⟨by simp, by simp [commandSteps, shutdownSteps], (runPoint_acquired_idle ha hs).1 h⟩
  | readb a =>
    obtain ⟨hp, hd⟩ := (runPoint_acquired_idle ha hs).1 h
    exact (runPoint_acquired_busy (s := accept (.readb a) s) ha rfl).2
      ⟨by simp, by simp [commandSteps, length_readbSteps], ReadPins.start a hp hd⟩
  | writeb a v =>
    obtain ⟨hp, hd⟩ := (runPoint_acquired_idle ha hs).1 h
    exact (runPoint_acquired_busy (s := accept (.writeb a v) s) ha rfl).2
      ⟨by simp, by simp [commandSteps, length_writebSteps], WritePins.start a v hp hd⟩

theorem effect_acquired (w : World) {m : Prim} {s : State} (hm : m ≠ .close) (ha : s.acq = .acquired) :
    (effect w m s).acq = .acquired := by
  rw [effect_acq]
  cases m with
  | close => exact absurd rfl hm
  | acquire => simp [writeOf, ha]
  | _ => exact ha

theorem commandSteps_ne_close {b : Board} {c : Instr} {k : Nat} {m : Prim} (hc : c ≠ .shutdown)
    (hm : (commandSteps b c)[k]? = some m) : m ≠ .close := by
  rintro rfl
  have h := List.mem_of_getElem? hm
  cases c with
  | init => simp [commandSteps, initSteps, initConfigure] at h
  | shutdown => exact hc rfl
  | readb a => simp [commandSteps, readbSteps, encAddr] at h
  | writeb a v => simp [commandSteps, writebSteps, encAddr] at h

/-- The one step of SHUTDOWN leads back to a Released state. -/
theorem runPoint_after_close {b : Board} (w : World) (s : State) :
    RunPoint b (afterStep (commandSteps b .shutdown).length .shutdown 0 (effect w .close s)) := by
  have hr : (effect w .close s).acq = .released := effect_acq w .close s
  have e : afterStep (commandSteps b .shutdown).length .shutdown 0 (effect w .close s) =
      complete .nothing (advance (effect w .close s)) := by
    simp [afterStep, commandSteps, shutdownSteps, answerOf]
  rw [e]
  refine (runPoint_released_idle (by simpa using hr) rfl).2 fun p => ?_
  simpa using effect_close_pinsUnset w s p

/-- A step of a command that holds the peripheral and keeps it leads to the next point of the command, or to its end. -/
theorem runPoint_after_step {b : Board} (hb : b.Wf) {c : Instr} {k : Nat} {m : Prim} {s : State} (w : World)
    (hc : c ≠ .shutdown) (hs : s.seq = .busy c k) (ha : s.acq = .acquired) (hm : (commandSteps b c)[k]? = some m)
    (h : RunPoint b s) : RunPoint b (afterStep (commandSteps b c).length c k (effect w m s)) := by
  obtain ⟨h1, hk, hp⟩ := (runPoint_acquired_busy ha hs).1 h
  have hu := CommandPins.step hb w hc h1 hm hp
  have hacq : (effect w m s).acq = .acquired := effect_acquired w (commandSteps_ne_close hc hm) ha
  unfold afterStep
  rw [if_neg (by simp [hacq])]
  split
  · rename_i hend
    exact (runPoint_acquired_idle (by simpa using hacq) rfl).2 (sessionPins_complete_advance.2 (hu.finish hend))
  · exact (runPoint_acquired_busy (by simpa using hacq) (by simp [hs, Seq.plus])).2
      ⟨fun _ => by omega, by omega, commandPins_advance.2 hu⟩

/-- The first step of INIT leads to the next point of INIT, or back to a Released state. -/
theorem runPoint_after_acquire {b : Board} {s : State} (w : World) (hs : s.seq = .busy .init 0) (h : PinsUnset s) :
    RunPoint b (afterStep (commandSteps b .init).length .init 0 (effect w .acquire s)) := by
  have hu : InitPins b 1 (effect w .acquire s) := InitPins.start w h
  unfold afterStep
  cases ha : (effect w .acquire s).acq with
  | released =>
    rw [if_pos ⟨rfl, rfl, rfl⟩]
    refine (runPoint_released_idle (by simpa [raiseInitError] using ha) rfl).2 fun p => ?_
    simpa [raiseInitError, dirOf_effect, latOf_effect, Prim.setsDir, Prim.setsLevel] using h p
  | acquired =>
    rw [if_neg (by simp), if_neg (by simp [commandSteps, length_initSteps])]
    exact (runPoint_acquired_busy (c := .init) (k := 1) (by simpa using ha) (by simp [hs, Seq.plus])).2
      ⟨fun _ => le_refl 1, by simp [commandSteps, length_initSteps], commandPins_advance.2 hu⟩

/-- Every step of a command in progress keeps the points of a run. -/
theorem runPoint_keptBySequencer : KeptBySequencer (RunPoint Config.board) := by
  intro c k s t hs h ht
  obtain ⟨m, hm, -, rfl⟩ := step_busy_eq_next hs ht
  cases ha : s.acq with
  | released =>
    obtain ⟨rfl, rfl, hp⟩ := (runPoint_released_busy ha hs).1 h
    obtain rfl : m = .acquire := (Option.some.inj hm).symm
    exact runPoint_after_acquire _ hs hp
  | acquired =>
    by_cases hc : c = .shutdown
    · subst hc
      obtain rfl : m = .close := List.mem_singleton.1 (List.mem_of_getElem? hm)
      obtain ⟨-, hk, -⟩ := (runPoint_acquired_busy ha hs).1 h
      obtain rfl : k = 0 := Nat.lt_one_iff.1 hk
      exact runPoint_after_close _ s
    · exact runPoint_after_step Config.board_wf _ hc hs ha hm h

/-- Settles O41: step by step inside a command, and from there for whole commands, which are their steps. -/
theorem stepKeepsRunPoint : Obligations.StepKeepsRunPoint := by
  unfold Obligations.StepKeepsRunPoint
  refine ⟨fun s t h0 h => runPoint_keptBySequencer.step (fun i s rest hs ha hP => ?_) h0 h, fun i s => runPoint_accept⟩
  exact runPoint_accept (s := { s with pending := rest }) hP hs ha

end Sys2Proof.Machine
end

section
/-! PROOFS. Lines and buses (10_state.md rule R14), and what READB and WRITEB take from the state they start in. -/

namespace Sys2Proof.Machine

/-! ### Lines -/

theorem line_of_input {w : World} {s : State} {p : Pin} (h : s.dirOf p = some .input) :
    line w s p = (chipBit w s p).elim .draw .level := by
  simp only [line, drive_of_input h]
  cases chipBit w s p <;> rfl

theorem chipBit_of_not_drives {w : World} {s : State} (h : chipDrives w.board s = false) (p : Pin) :
    chipBit w s p = none := by
  simp [chipBit, h]

/-- The chip drives data pins alone. -/
theorem chipBit_of_not_data {w : World} {s : State} {p : Pin} (h : ∀ i : Fin 8, w.board.data.get i ≠ p) :
    chipBit w s p = none := by
  have hp : w.board.data.toList.idxOf? p = none := by
    rw [List.idxOf?_eq_none_iff]
    intro hm
    obtain ⟨i, hi⟩ := Vector.exists_get_of_mem hm
    exact h i hi
  unfold chipBit
  split
  · split
    · rfl
    · rw [hp]
  · rfl

theorem idxOf?_get {n : Nat} {pins : Vector Pin n} (h : pins.toList.Nodup) (i : Fin n) :
    pins.toList.idxOf? (pins.get i) = some i.val := by
  rw [List.idxOf?_eq_some_iff]
  refine ⟨by simp, by simp [Vector.get_eq_getElem], fun j hj e => ?_⟩
  have hjn : j < n := hj.trans i.isLt
  have : (⟨j, hjn⟩ : Fin n) = i := Vector.get_inj_of_nodup h (by simpa [Vector.get_eq_getElem] using e)
  exact absurd (congrArg Fin.val this) (Nat.ne_of_lt hj)

/-- The echo chip drives bit `i` of the byte at its address on data pin `i` (20_memory.md rule R36). -/
theorem chipBit_echo {w : World} (hb : w.board.Wf) {s : State} (hd : chipDrives w.board s = true) (hc : s.chip = .echo)
    (i : Fin 8) :
    chipBit w s (w.board.data.get i) = (Memory.read s.mem (chipAddress w s).toNat).map (·.getLsbD i.val) := by
  simp only [chipBit, hd, hc, if_true, idxOf?_get hb.data_nodup]
  cases Memory.read s.mem (chipAddress w s).toNat <;> rfl

/-! ### Bus values -/

theorem busValue_eq_none {w : World} {s : State} {n : Nat} {pins : Vector Pin n} :
    busValue w s pins.toList = none ↔ ∃ i : Fin n, line w s (pins.get i) = .unset := by
  rw [busValue, Option.map_eq_none_iff, mapM_eq_none]
  constructor
  · rintro ⟨p, hp, h⟩
    obtain ⟨i, rfl⟩ := Vector.exists_get_of_mem hp
    exact ⟨i, busLevel_eq_none.1 h⟩
  · rintro ⟨i, h⟩
    exact ⟨_, Vector.get_mem_toList pins i, busLevel_eq_none.2 h⟩

/-- A bus value has the level read on line `i` as its bit `i`. -/
theorem busValue_eq_some {w : World} {s : State} {n : Nat} {pins : Vector Pin n} {v : Nat}
    (h : busValue w s pins.toList = some v) :
    v < 2 ^ n ∧ ∀ i : Fin n, line w s (pins.get i) ≠ .unset ∧ v.testBit i.val = sense w s (pins.get i) := by
  obtain ⟨l, hl, rfl⟩ := Option.map_eq_some_iff.1 h
  obtain ⟨hlen, hget⟩ := getElem?_of_mapM _ _ _ hl
  refine ⟨?_, fun i => ?_⟩
  · have := valueOfLevels_lt l
    rwa [hlen, Vector.length_toList] at this
  · have hi : busLevel w s (pins.get i) = some (l.getD i.val false) := by
      have hp : pins.toList[i.val]? = some (pins.get i) := by simp [Vector.get_eq_getElem]
      have hlt : i.val < l.length := by rw [hlen, Vector.length_toList]; exact i.isLt
      have e := hget i.val
      rw [hp, Option.bind_some, List.getElem?_eq_getElem hlt] at e
      rw [← e, List.getD_eq_getElem _ _ hlt]
    obtain ⟨hne, hs⟩ := busLevel_eq_some.1 hi
    exact ⟨hne, (testBit_valueOfLevels l i.val).trans hs.symm⟩

/-- A bus none of whose lines is `⊥` has a value. -/
theorem exists_busValue {w : World} {s : State} {n : Nat} {pins : Vector Pin n}
    (h : ∀ i : Fin n, line w s (pins.get i) ≠ .unset) : ∃ v, busValue w s pins.toList = some v := by
  cases e : busValue w s pins.toList with
  | none =>
    obtain ⟨i, hi⟩ := busValue_eq_none.1 e
    exact absurd hi (h i)
  | some v => exact ⟨v, rfl⟩

theorem sense_of_level {w : World} {s : State} {p : Pin} {b : Bool} (h : line w s p = .level b) : sense w s p = b := by
  simp only [sense, h]

/-- A value below `2 ^ n` is a bit vector's when it has its bits. -/
theorem eq_toNat_of_testBit {n v : Nat} {x : BitVec n} (hv : v < 2 ^ n)
    (h : ∀ i : Fin n, v.testBit i.val = x.getLsbD i.val) : v = x.toNat := by
  have e : BitVec.ofNat n v = x := BitVec.eq_of_getLsbD_eq fun i hi => by
    rw [BitVec.getLsbD_ofNat, h ⟨i, hi⟩]
    simp [hi]
  rw [← e, BitVec.toNat_ofNat, Nat.mod_eq_of_lt hv]

theorem getLsbD_chipAddress (w : World) (s : State) (i : Fin 17) :
    (chipAddress w s).getLsbD i.val = seen w s (w.board.addr.get i) := by
  rw [chipAddress, BitVec.getLsbD_ofNat, testBit_valueOfLevels]
  simp [Vector.get_eq_getElem]

/-- The line of an Output that is not `⊥` is read as the chip sees it. -/
theorem sense_eq_seen {w : World} {s : State} {p : Pin} (ho : s.dirOf p = some .output) (hl : line w s p ≠ .unset) :
    sense w s p = seen w s p := by
  cases e : s.latOf p with
  | none => exact absurd (line_of_unset (by simp [drive, ho, e])) hl
  | some b =>
    have hd : drive s p = .level b := drive_eq_level.2 ⟨ho, e⟩
    rw [sense_of_level (line_of_level hd), seen_of_level hd]

/-- While the address pins are Outputs, `A_bus`, where it has a value, is the address the chip takes. -/
theorem aBus_eq_chipAddress {w : World} {s : State} {v : Nat} (ho : AddressOutput w.board s) (h : aBus w s = some v) :
    v = (chipAddress w s).toNat := by
  obtain ⟨hv, hbit⟩ := busValue_eq_some h
  refine eq_toNat_of_testBit hv fun i => ?_
  obtain ⟨hne, hs⟩ := hbit i
  rw [hs, getLsbD_chipAddress, sense_eq_seen (ho i) hne]

/-- While the address pins are Outputs that hold `ea`, `A_bus` is `ea`. -/
theorem aBus_of_holds {w : World} {s : State} {ea : EffAddr} (ho : AddressOutput w.board s)
    (hl : AddressHolds w.board s ea) : aBus w s = some ea.toNat := by
  obtain ⟨v, hv⟩ := exists_busValue (w := w) (s := s) (pins := w.board.addr) fun i => by
    rw [line_of_level (drive_eq_level.2 ⟨ho i, hl i⟩)]
    simp
  rw [← chipAddress_of_holds ho hl, ← aBus_eq_chipAddress ho hv]
  exact hv

/-- While the data pins are Inputs, `D_bus` has a value. -/
theorem exists_dBus_of_input {w : World} {s : State} (h : DataDirection w.board s (some .input)) :
    ∃ v, dBus w s = some v := exists_busValue fun i => line_ne_unset_of_input (h i)

/-- Settles O47: the line by its direction and the chip's bit, the bus values bit by bit, and contention as `perform`
refuses it. -/
theorem linesAndBuses : Obligations.LinesAndBuses := by
  unfold Obligations.LinesAndBuses
  intro w s hb
  refine ⟨fun p => ⟨fun ho => ?_, fun hn => line_of_unset (drive_of_none hn), fun hi hd => ?_, fun hi hp => ?_⟩,
    fun i hi hd hc => ?_, ⟨busValue_eq_none, fun v hv => ?_⟩, ⟨busValue_eq_none, fun v hv => ?_⟩, ?_⟩
  · cases hl : s.latOf p with
    | none => exact line_of_unset (by simp [drive, ho, hl])
    | some b => exact line_of_level (drive_eq_level.2 ⟨ho, hl⟩)
  · rw [line_of_input hi, chipBit_of_not_drives hd]; rfl
  · rw [line_of_input hi, chipBit_of_not_data hp]; rfl
  · rw [line_of_input hi, chipBit_echo hb hd hc]
    cases Memory.read s.mem (chipAddress w s).toNat <;> rfl
  · obtain ⟨hlt, hbit⟩ := busValue_eq_some hv
    exact ⟨hlt, fun ho => aBus_eq_chipAddress ho hv, fun i b hl => (hbit i).2.trans (sense_of_level hl)⟩
  · obtain ⟨hlt, hbit⟩ := busValue_eq_some hv
    exact ⟨hlt, fun i b hl => (hbit i).2.trans (sense_of_level hl)⟩
  · rintro m t h ⟨hce, hoe, i, hi⟩
    obtain ⟨-, -, hc, rfl⟩ := perform_eq_next.1 h
    have hany : w.board.data.toList.any (fun p => (effect w m s).dirOf p == some .output) = true :=
      List.any_eq_true.2 ⟨_, Vector.get_mem_toList w.board.data i, by simp [hi]⟩
    rw [contended, hany, chipDrives_eq_true.2 ⟨hce, hoe⟩] at hc
    cases hc

/-! ### The buses in and after a READB -/

/-- After a READB from the pins of a session the address is held on Outputs and CE is high. -/
theorem readbIn_pins {w : World} (hb : w.board.Wf) {a : HostAddr} {s : State} (h : SessionReady w.board s) :
    ∃ t, readbIn w a s = .next t ∧ AddressOutput w.board t ∧ AddressHolds w.board t (effective a) ∧
      drive t w.board.ce = .level true := by
  obtain ⟨-, -, ⟨hce, -, -⟩, -, hao⟩ := id h
  refine ⟨_, readbIn_eq hb h, fun i => ?_, fun i => ?_, drive_eq_level.2 ⟨?_, ?_⟩⟩
  · exact (get_setDirs ..).trans ((if_neg (hb.addr_not_data i)).trans (hao i))
  · simp only [State.latOf, get_set, hb.addr_ne_ce, hb.addr_ne_oe, if_false]
    exact get_writeGroups w.board.addr hb.addr_nodup (effective a) s.lat i
  · exact (get_setDirs ..).trans ((if_neg hb.data_not_control.1).trans hce)
  · simp only [State.latOf, get_set, if_true]

/-- Inside the read window of an address at which the echo chip holds `x`, `D_bus` is `x`. -/
theorem dBus_of_echo {w : World} (hb : w.board.Wf) {ea : EffAddr} {x : Byte} {s : State} {v : Nat}
    (hao : AddressOutput w.board s) (hah : AddressHolds w.board s ea) (hd : DataDirection w.board s (some .input))
    (hdr : chipDrives w.board s = true) (hc : s.chip = .echo) (hx : Memory.read s.mem ea.toNat = some x)
    (hv : dBus w s = some v) : v = x.toNat := by
  obtain ⟨hlt, hbit⟩ := busValue_eq_some hv
  refine eq_toNat_of_testBit hlt fun i => (hbit i).2.trans (sense_of_level ?_)
  rw [line_of_input (hd i), chipBit_echo hb hdr hc, chipAddress_of_holds hao hah, hx]
  rfl

/-- Settles O48: the completed READB by its equation and the direction it leaves, a point inside one by the pins of its
position. -/
theorem readBusesDefined : Obligations.ReadBusesDefined := by
  unfold Obligations.ReadBusesDefined
  have hb := Config.board_wf
  refine ⟨fun a s h => ?_, fun a k s h ha hs hk => ?_⟩
  · obtain ⟨t, ht, hao, hah, hce⟩ := readbIn_pins (w := Config.world) (a := a) hb h
    have hd := directionAfterCommand.1 a s t ht
    obtain ⟨v, hv⟩ := exists_dBus_of_input (w := Config.world) hd
    refine ⟨t, ht, aBus_of_holds hao hah, ⟨v, hv, (busValue_eq_some hv).1⟩, fun i => ?_⟩
    have hoff : ChipOff Config.world.board t := .inl hce
    rw [line_of_input (hd i), chipBit_of_not_drives hoff.not_drives]; rfl
  · obtain ⟨-, -, ⟨hc, hao, hturn⟩, hl, hap, -⟩ := (runPoint_acquired_busy ha hs).1 h
    have hah : AddressHolds Config.board s (effective a) := hap.2 (by omega)
    have hd := hturn.all (by omega)
    obtain ⟨v, hv⟩ := exists_dBus_of_input (w := Config.world) hd
    refine ⟨aBus_of_holds (w := Config.world) hao hah, v, hv, (busValue_eq_some hv).1, fun h1 h2 hecho x hx => ?_⟩
    have hce : drive s Config.board.ce = .level false := drive_eq_level.2 ⟨hc.1, hl.1.trans (by simp; omega)⟩
    have hoe : drive s Config.board.oe = .level false := drive_eq_level.2 ⟨hc.2.1, hl.2.1.trans (by simp; omega)⟩
    exact dBus_of_echo (w := Config.world) hb hao hah hd (chipDrives_eq_true.2 ⟨hce, hoe⟩) hecho hx hv

/-! ### Pin history -/

/-- The levels a READB samples depend on the chip, its memory and the moment alone. -/
theorem readbLevels_congr {w : World} (hb : w.board.Wf) {a : HostAddr} {s s' : State} (h : SessionPins w.board s)
    (h' : SessionPins w.board s') (hc : s.chip = s'.chip) (hm : s.mem = s'.mem)
    (ht : s.trace.length = s'.trace.length) : readbLevels w a s = readbLevels w a s' := by
  refine List.ext_getElem (by simp [readbLevels]) fun i hi _ => ?_
  have hi8 : i < 8 := by simpa [readbLevels] using hi
  have hp : w.board.data.toList[i]? = some (w.board.data.get ⟨i, hi8⟩) := by simp [Vector.get_eq_getElem, hi8]
  obtain ⟨u, hd, hl, hcu, hmu, htu, e⟩ := sampledLevels_get (w := w) _ (readbWindow w.board a s) i _ hp
  obtain ⟨u', hd', hl', hcu', hmu', htu', e'⟩ := sampledLevels_get (w := w) _ (readbWindow w.board a s') i _ hp
  have hu : u.trace.length = u'.trace.length := by rw [htu, htu']; simp [readbWindow, ht]
  have hsense : sense w u (w.board.data.get ⟨i, hi8⟩) = sense w u' (w.board.data.get ⟨i, hi8⟩) := by
    rw [sense_inWindow hb h hd hl hcu hmu, sense_inWindow hb h' hd' hl' hcu' hmu', hc, hm, hu]
  refine Option.some.inj ?_
  rw [← List.getElem?_eq_getElem, ← List.getElem?_eq_getElem]
  exact e.trans ((congrArg some hsense).trans e'.symm)

/-- Settles O30: the events of WRITEB depend on its operands alone, those of READB on the levels it samples besides. -/
theorem commandsIgnorePinHistory : Obligations.CommandsIgnorePinHistory := by
  unfold Obligations.CommandsIgnorePinHistory
  rintro i s s' (⟨a, rfl⟩ | ⟨a, v, rfl⟩) h h' hc hm ht
  · refine ⟨_, _, _, _, readbIn_eq (w := Config.world) Config.board_wf h,
      readbIn_eq (w := Config.world) Config.board_wf h', rfl, ?_, rfl, ?_⟩
    · rw [readbLevels_congr (w := Config.world) Config.board_wf h.2.2 h'.2.2 hc hm ht]
    · rw [readbLevels_congr (w := Config.world) Config.board_wf h.2.2 h'.2.2 hc hm ht]
  · exact ⟨_, _, _, _, writebIn_eq (w := Config.world) Config.board_wf h,
      writebIn_eq (w := Config.world) Config.board_wf h', rfl, rfl, rfl, rfl⟩

end Sys2Proof.Machine
end

section
/-! PROOFS. The chip's memory (20_memory.md): its form, what stores a byte, what reads it back, and the addresses that
are one address. -/

namespace Sys2Proof.Machine

/-! ### The form of the memory -/

@[simp] theorem afterStep_mem (n : Nat) (c : Instr) (k : Nat) (s : State) : (afterStep n c k s).mem = s.mem := by
  rcases afterStep_cases n c k s with e | ⟨a, e⟩ <;> simp [e]

/-- Settles O39: every primitive keeps the form, and nothing else in a step touches the memory. -/
theorem stepKeepsMemoryForm : Obligations.StepKeepsMemoryForm := by
  unfold Obligations.StepKeepsMemoryForm
  intro s t h0 h
  refine KeptBySequencer.step (P := fun s => Memory.wf s.mem = true) (fun c k s t hs hP ht => ?_)
    (fun i s rest _ _ hP => hP) h0 h
  obtain ⟨m, -, -, rfl⟩ := step_busy_eq_next hs ht
  rw [afterStep_mem]
  exact effect_mem_wf _ m s hP

/-! ### A byte read back -/

/-- Where the echo chip holds `x` at the effective address, READB samples the bits of `x`. -/
theorem readbLevels_of_echo {w : World} (hb : w.board.Wf) {a : HostAddr} {x : Byte} {s : State}
    (h : SessionPins w.board s) (hc : s.chip = .echo) (hx : Memory.read s.mem (effective a).toNat = some x) (i : Fin 8) :
    (readbLevels w a s)[i.val]? = some (x.getLsbD i.val) := by
  have hp : w.board.data.toList[i.val]? = some (w.board.data.get i) := by simp [Vector.get_eq_getElem]
  obtain ⟨u, hd, hl, hcu, hmu, -, e⟩ := sampledLevels_get (w := w) _ (readbWindow w.board a s) i.val _ hp
  have hsense := sense_inWindow hb h hd hl hcu hmu i
  rw [if_pos hc, hx] at hsense
  exact e.trans (congrArg some hsense)

/-- The byte assembled from the bits of `x` is `x` (44_byte_reader.md rule R111). -/
theorem byteOfSamples_of_bits {l : List Bool} {x : Byte} (h : ∀ i : Fin 8, l[i.val]? = some (x.getLsbD i.val)) :
    byteOfSamples l = x :=
  ofNat_valueOfLevels l x fun i hi => by rw [List.getD_eq_getElem?_getD, h ⟨i, hi⟩, Option.getD_some]

/-- WRITEB leaves the latches of the control pins high or as they were. -/
theorem get_writebLatches_control {b : Board} (hb : b.Wf) (a : HostAddr) (v : Byte) (f : Vector (Option Bool) 32) :
    (writebLatches b a v f).get b.ce = some true ∧ (writebLatches b a v f).get b.oe = f.get b.oe ∧
    (writebLatches b a v f).get b.we = some true := by
  have groups : ∀ c ∈ [b.ce, b.oe, b.we], (writeLatches (writeLatches (writeLatches (writeLatches f (addrSet b a) true)
      (addrClr b a) false) (dataSet b v) true) (dataClr b v) false).get c = f.get c := fun c hc =>
    (get_writeGroups_of_not_mem b.data v _ c (hb.parts.2.2.2.1 c hc)).trans
      (get_writeGroups_of_not_mem b.addr (effective a) f c (hb.parts.2.2.2.2.1 c hc))
  simp only [writebLatches, get_set, hb.ce_ne_oe.symm, hb.ce_ne_we.symm, hb.oe_ne_we, if_true, if_false, true_and,
    and_true]
  exact groups b.oe (by simp)

/-- WRITEB leads from the pins of a session to the pins of a session, with its byte stored. -/
theorem writebIn_ready {w : World} (hb : w.board.Wf) {a : HostAddr} {v : Byte} {s : State} (h : SessionReady w.board s) :
    ∃ t, writebIn w a v s = .next t ∧ SessionReady w.board t ∧ t.chip = s.chip ∧
      t.answers = s.answers ++ [.nothing] ∧ t.mem = Memory.write s.mem (effective a).toNat v := by
  obtain ⟨hs, ha, ⟨hce, hoe, hwe⟩, ⟨-, loe, -⟩, hao⟩ := id h
  obtain ⟨nce, noe, nwe⟩ := hb.data_not_control
  obtain ⟨lce, loe', lwe⟩ := get_writebLatches_control hb a v s.lat
  have keep : ∀ p, p ∉ w.board.data.toList → s.dirOf p = some .output →
      (setDirs s.dir w.board.data.toList .output).get p = some .output := fun p hp ho =>
    (get_setDirs ..).trans ((if_neg hp).trans ho)
  refine ⟨_, writebIn_eq hb h, ⟨hs, ha, ⟨keep _ nce hce, keep _ noe hoe, keep _ nwe hwe⟩, ⟨lce, ?_, lwe⟩, fun i => ?_⟩,
    rfl, rfl, rfl⟩
  · exact loe'.trans loe
  · exact keep _ (hb.addr_not_data i) (hao i)

/-- Settles O23: WRITEB stores the byte and leaves a session, in which READB samples its bits. -/
theorem readAfterWrite : Obligations.ReadAfterWrite := by
  unfold Obligations.ReadAfterWrite
  intro a a' v s h hecho hea
  obtain ⟨t, ht, hready, hchip, hans, hmem⟩ := writebIn_ready (w := Config.world) Config.board_wf (a := a) (v := v) h
  have stored : Memory.read t.mem (effective a').toNat = some v := by
    rw [hmem, hea, Memory.read_write, if_pos rfl]
  have answered : byteOfSamples (readbLevels Config.world a' t) = v :=
    byteOfSamples_of_bits
      (readbLevels_of_echo (w := Config.world) Config.board_wf hready.2.2 (hchip.trans hecho) stored)
  refine ⟨t, _, ht, readbIn_eq (w := Config.world) Config.board_wf hready, ?_⟩
  rw [hans, answered, List.append_assoc]
  rfl

/-! ### Addresses that are one address -/

theorem andThen_ne_fault {o : Result} {f : State → Result} (ho : ∀ r, o ≠ .fault r) (hf : ∀ s r, f s ≠ .fault r)
    (r : Fault) : andThen o f ≠ .fault r := by
  cases o with
  | next s => exact hf s r
  | fault r' => exact absurd rfl (ho r')
  | refused r' => simp

theorem admission_ne_fault (need : Ownership) (why : Refusal) (c : Instr) (s : State) (r : Fault) :
    admission need why c s ≠ .fault r := by
  unfold admission
  split
  · simp
  · split <;> simp

theorem performAll_ne_fault (w : World) (l : List Prim) (s : State) (r : Fault) : performAll w l s ≠ .fault r := by
  induction l generalizing s r with
  | nil => simp [performAll]
  | cons m l ih => exact andThen_ne_fault (perform_ne_fault w m s) (fun t => ih (advance t)) r

/-- No command faults: neither admission nor a primitive does. -/
theorem exec_ne_fault (i : Instr) (s : State) (r : Fault) : exec i s ≠ .fault r := by
  have steps : ∀ (l : List Prim) (f : State → Answer) (u : State) (r : Fault),
      andThen (performAll Config.world l u) (fun t => .next (complete (f t) t)) ≠ .fault r := fun l f u =>
    andThen_ne_fault (performAll_ne_fault _ l u) fun t r => by simp
  cases i with
  | init =>
    refine andThen_ne_fault (admission_ne_fault _ _ _ s) (fun u => andThen_ne_fault (perform_ne_fault _ _ u) ?_) r
    intro x r'
    split
    · simp
    · exact steps _ (fun _ => .ok) _ r'
  | shutdown => exact andThen_ne_fault (admission_ne_fault _ _ _ s) (steps _ fun _ => .nothing) r
  | readb a => exact andThen_ne_fault (admission_ne_fault _ _ _ s) (steps _ fun t => .byte (byteOfSamples t.samples)) r
  | writeb a v => exact andThen_ne_fault (admission_ne_fault _ _ _ s) (steps _ fun _ => .nothing) r

/-- An accepted command's outcome depends on its step list and its answer, not on its name in `seq`. -/
theorem andThen_admission_congr {need : Ownership} {why : Refusal} (c c' : Instr) (s : State) {f : State → Result}
    (hf : ∀ (t : State) (q : Seq), f { t with seq := q } = f t) :
    andThen (admission need why c s) f = andThen (admission need why c' s) f := by
  have e : f (accept c s) = f (accept c' s) := hf (accept c' s) (.busy c 0)
  unfold admission
  split
  · rfl
  · split
    · exact e
    · rfl

/-- The steps of an address encode are those of its effective address (20_memory.md rule R31). -/
theorem encAddr_congr {b : Board} {a a' : HostAddr} (h : effective a = effective a') : encAddr b a = encAddr b a' := by
  simp only [encAddr, addrSet, addrClr, h]

theorem readbIn_congr {w : World} {a a' : HostAddr} (h : effective a = effective a') (s : State) :
    readbIn w a s = readbIn w a' s := by
  have e : readbSteps w.board a = readbSteps w.board a' := by simp only [readbSteps, encAddr_congr h]
  rw [readbIn, readbIn, e]
  exact andThen_admission_congr _ _ s fun t q => performAll_at w _ t q _ fun u r => rfl

theorem writebIn_congr {w : World} {a a' : HostAddr} (h : effective a = effective a') (v : Byte) (s : State) :
    writebIn w a v s = writebIn w a' v s := by
  have e : writebSteps w.board a v = writebSteps w.board a' v := by simp only [writebSteps, encAddr_congr h]
  rw [writebIn, writebIn, e]
  exact andThen_admission_congr _ _ s fun t q => performAll_at w _ t q _ fun u r => rfl

/-- Settles O24: the step lists name the effective address alone, and `seq`, which names the whole one, is read by no
primitive and gone at the end. -/
theorem upperAddressBitsIgnored : Obligations.UpperAddressBitsIgnored := by
  unfold Obligations.UpperAddressBitsIgnored
  exact ⟨fun a => by simp [effective, BitVec.extractLsb'_toNat], by decide, by decide, exec_ne_fault,
    fun a a' v s h => ⟨writebIn_congr h v s, readbIn_congr h s⟩⟩

/-! ### What stores a byte -/

/-- While WE's latch is not low no primitive stores anything: WE's line cannot rise. -/
theorem effect_mem_of_we_not_low {w : World} {m : Prim} {s : State} (h : s.latOf w.board.we ≠ some false) :
    (effect w m s).mem = s.mem := by
  rw [effect, chipReact_of_noRise (NoRise.of_latch h), State.emit_mem, writeOf_mem]

/-- A primitive that takes WE's line from low to high while CE is low stores the byte held by the data pins at the
address held by the address pins (20_memory.md rule R35.3). -/
theorem effect_mem_of_rise {w : World} {m : Prim} {s : State} {ea : EffAddr} {v : Byte}
    (h1 : drive s w.board.we = .level false) (h2 : drive (effect w m s) w.board.we = .level true)
    (h3 : drive (effect w m s) w.board.ce = .level false) (hao : AddressOutput w.board (effect w m s))
    (hah : AddressHolds w.board (effect w m s) ea) (hdo : DataDirection w.board (effect w m s) (some .output))
    (hdh : DataHolds w.board (effect w m s) v) : (effect w m s).mem = Memory.write s.mem ea.toNat v := by
  simp only [effect, drive_chipReact, AddressOutput, AddressHolds, DataDirection, DataHolds, dirOf_chipReact,
    latOf_chipReact] at h2 h3 hao hah hdo hdh
  rw [effect, chipReact_of_rise h1 h2 h3, chipAddress_of_holds hao hah, chipData_of_holds hdo hdh]
  simp

/-- Step k = 14 of WRITEB stores its byte at its effective address. -/
theorem WritePins.stores {w : World} (hb : w.board.Wf) {a : HostAddr} {v : Byte} {m : Prim} {s : State}
    (hm : (writebSteps w.board a v)[14]? = some m) (h : WritePins w.board a v 14 s) :
    (effect w m s).mem = Memory.write s.mem (effective a).toNat v := by
  obtain ⟨⟨⟨hce, -, hwe⟩, hao, hturn⟩, ⟨lce, -, lwe⟩, hap, hdp⟩ := h.step hb w hm
  obtain ⟨⟨⟨-, -, hwe0⟩, -⟩, ⟨-, -, lwe0⟩, -⟩ := h
  exact effect_mem_of_rise (drive_eq_level.2 ⟨hwe0, lwe0⟩) (drive_eq_level.2 ⟨hwe, lwe⟩) (drive_eq_level.2 ⟨hce, lce⟩)
    hao (hap.2 (by omega)) (hturn.all (by omega)) (hdp.2 (by omega))

/-- At the points of a run inside a command WE's latch is low at position 14 of a WRITEB alone. -/
theorem runPoint_we_low {b : Board} {c : Instr} {k : Nat} {s : State} (h : RunPoint b s) (hs : s.seq = .busy c k)
    (hl : s.latOf b.we = some false) : ∃ a v, c = .writeb a v ∧ k = 14 ∧ WritePins b a v 14 s := by
  cases ha : s.acq with
  | released =>
    obtain ⟨-, -, hp⟩ := (runPoint_released_busy ha hs).1 h
    exact absurd (hl.symm.trans (hp b.we).2) (by simp)
  | acquired =>
    obtain ⟨-, -, hp⟩ := (runPoint_acquired_busy ha hs).1 h
    cases c with
    | init =>
      obtain ⟨hlat, -⟩ := hp
      have e := hl.symm.trans (hlat b.we (by simp))
      split at e <;> simp at e
    | shutdown =>
      obtain ⟨⟨-, ⟨-, -, lwe⟩, -⟩, -⟩ := hp
      exact absurd (hl.symm.trans lwe) (by simp)
    | readb a =>
      obtain ⟨-, ⟨-, -, lwe⟩, -⟩ := hp
      exact absurd (hl.symm.trans lwe) (by simp)
    | writeb a v =>
      obtain ⟨-, ⟨-, -, lwe⟩, -⟩ := id hp
      obtain rfl : k = 14 := by simpa using hl.symm.trans lwe
      exact ⟨a, v, rfl, rfl, hp⟩

/-- An Idle point of a run inside a session has the pins of a session (10_state.md rule R28). -/
theorem sessionReady_of_runPoint {b : Board} {s : State} (h : RunPoint b s) (hs : s.seq = .idle)
    (ha : s.acq = .acquired) : SessionReady b s := ⟨hs, ha, ((runPoint_acquired_idle ha hs).1 h).1⟩

/-- A whole command from a point of a run stores nothing, or is a WRITEB and stores its byte. -/
theorem exec_mem {i : Instr} {s t : State} (h : RunPoint Config.board s) (ht : exec i s = .next t) :
    t.mem = s.mem ∨ ∃ a v, i = .writeb a v ∧ t.mem = Memory.write s.mem (effective a).toNat v := by
  have hb : Config.world.board.Wf := Config.board_wf
  obtain ⟨hs, ha⟩ := exec_admitted ht
  cases i with
  | init =>
    have hp := (runPoint_released_idle ha hs).1 h
    left
    cases ho : Config.world.openOk s.trace.length with
    | false => cases (initIn_failed hs ha hp ho).symm.trans ht; rfl
    | true => cases (initIn_ok hb hs ha hp ho).symm.trans ht; rfl
  | shutdown => cases (shutdownIn_eq hs ha).symm.trans ht; exact .inl rfl
  | readb a => cases (readbIn_eq hb (sessionReady_of_runPoint h hs ha)).symm.trans ht; exact .inl rfl
  | writeb a v =>
    cases (writebIn_eq hb (sessionReady_of_runPoint h hs ha)).symm.trans ht
    exact .inr ⟨a, v, rfl, rfl⟩

/-- Settles O46: inside a command only the rise of WE stores, and WE is low at position 14 of a WRITEB alone. -/
theorem onlyWritebStores : Obligations.OnlyWritebStores := by
  unfold Obligations.OnlyWritebStores
  intro s t h0 h
  rcases step_eq_next h with ⟨-, -, rfl⟩ | ⟨w, rest, hs, hp, hx⟩ | ⟨c, k, hs, -⟩
  · exact .inl fun _ => rfl
  · rcases exec_mem (s := { s with pending := rest }) h0 hx with e | ⟨a, v, hd, e⟩
    · exact .inl fun x => by rw [e]
    · exact .inr ⟨a, v, .inr ⟨w, rest, hs, hp, hd⟩, fun x => by rw [e, Memory.read_write]⟩
  · obtain ⟨m, hm, -, rfl⟩ := step_busy_eq_next hs h
    simp only [afterStep_mem]
    by_cases hl : s.latOf Config.board.we = some false
    · obtain ⟨a, v, rfl, rfl, hw⟩ := runPoint_we_low h0 hs hl
      refine .inr ⟨a, v, .inl hs, fun x => ?_⟩
      rw [WritePins.stores (w := Config.world) Config.board_wf hm hw, Memory.read_write]
    · exact .inl fun x => by rw [effect_mem_of_we_not_low (w := Config.world) hl]

end Sys2Proof.Machine
end

section
/-! PROOFS. The command word (30_encoding.md rules R50 to R54 and R64): a word is its three fields, and every command's
word is written as such. -/

namespace Sys2Proof

/-! ### A word and its fields -/

/-- The word with the given fields (rule R50). -/
def Word.ofFields (o : BitVec 2) (v : Byte) (a : HostAddr) : Word := (o ++ v) ++ a

@[simp] theorem Word.op_ofFields (o : BitVec 2) (v : Byte) (a : HostAddr) : (Word.ofFields o v a).op = o :=
  (BitVec.extractLsb'_append_eq_of_le (by decide)).trans BitVec.extractLsb'_append_eq_left

@[simp] theorem Word.val_ofFields (o : BitVec 2) (v : Byte) (a : HostAddr) : (Word.ofFields o v a).val = v :=
  (BitVec.extractLsb'_append_eq_of_le (by decide)).trans BitVec.extractLsb'_append_eq_right

@[simp] theorem Word.addr_ofFields (o : BitVec 2) (v : Byte) (a : HostAddr) : (Word.ofFields o v a).addr = a :=
  BitVec.extractLsb'_append_eq_right

theorem Word.ofFields_fields (w : Word) : Word.ofFields w.op w.val w.addr = w := by
  have hi : w.op ++ w.val = w.extractLsb' 32 10 := BitVec.extractLsb'_append_extractLsb'_eq_extractLsb' rfl
  calc Word.ofFields w.op w.val w.addr
      = w.extractLsb' 32 10 ++ w.extractLsb' 0 32 := congrArg (· ++ w.addr) hi
    _ = w.extractLsb' 0 42 := BitVec.extractLsb'_append_extractLsb'_eq_extractLsb' rfl
    _ = w := BitVec.extractLsb'_eq_self

theorem Word.ofFields_eq {o : BitVec 2} {v : Byte} {a : HostAddr} {w : Word} (ho : w.op = o) (hv : w.val = v)
    (ha : w.addr = a) : Word.ofFields o v a = w := by
  rw [← ho, ← hv, ← ha, Word.ofFields_fields]

/-! ### Decoding by `op` alone -/

theorem Word.op_cases (w : Word) : w.op = 0#2 ∨ w.op = 1#2 ∨ w.op = 2#2 ∨ w.op = 3#2 := by
  have four : ∀ o : BitVec 2, o = 0#2 ∨ o = 1#2 ∨ o = 2#2 ∨ o = 3#2 := by decide
  exact four w.op

section
variable {w : Word}

theorem decode_of_op_zero (h : w.op = 0#2) : decode w = .init := by simp [decode, h]

theorem decode_of_op_one (h : w.op = 1#2) : decode w = .shutdown := by simp [decode, h]

theorem decode_of_op_two (h : w.op = 2#2) : decode w = .readb w.addr := by simp [decode, h]

theorem decode_of_op_three (h : w.op = 3#2) : decode w = .writeb w.addr w.val := by simp [decode, h]

end

/-! ### The word of each command -/

theorem encode_init : encode .init = Word.ofFields 0#2 0#8 0#32 := by decide

theorem encode_shutdown : encode .shutdown = Word.ofFields 1#2 0#8 0#32 := by decide

/-- Two fields side by side are the `or` of the upper one shifted and the lower one, as rule R64 writes words. -/
theorem append_eq_or {m n : Nat} (x : BitVec m) (y : BitVec n) :
    x ++ y = x.setWidth (m + n) <<< n ||| y.setWidth (m + n) := by
  rw [BitVec.append_def, BitVec.shiftLeftZeroExtend_eq, BitVec.setWidth'_eq]

theorem encode_readb (a : HostAddr) : encode (.readb a) = Word.ofFields 2#2 0#8 a := by
  rw [Word.ofFields, append_eq_or]
  rfl

theorem encode_writeb (a : HostAddr) (v : Byte) : encode (.writeb a v) = Word.ofFields 3#2 v a := by
  have upper : (3#2 ++ v).setWidth 42 = 0x300#42 ||| v.setWidth 42 := by
    rw [append_eq_or, BitVec.setWidth_or, BitVec.setWidth_setWidth (by decide)]
    rfl
  rw [Word.ofFields, append_eq_or, upper, BitVec.shiftLeft_or_distrib]
  rfl

/-! ### The round trip -/

theorem decode_encode (c : Instr) : decode (encode c) = c := by
  cases c with
  | init => rw [encode_init, decode_of_op_zero (by simp)]
  | shutdown => rw [encode_shutdown, decode_of_op_one (by simp)]
  | readb a => rw [encode_readb, decode_of_op_two (by simp), Word.addr_ofFields]
  | writeb a v => rw [encode_writeb, decode_of_op_three (by simp), Word.addr_ofFields, Word.val_ofFields]

theorem encode_canonical (c : Instr) : (encode c).Canonical := by
  cases c with
  | init => exact Laws.EncodeCanonical.init.2.1
  | shutdown => exact Laws.EncodeCanonical.shutdown.2.1
  | readb a => exact (Laws.EncodeCanonical.readb a).2.1
  | writeb a v => exact (Laws.EncodeCanonical.writeb a v).2.1

theorem Word.canonical_iff (w : Word) :
    w.Canonical ↔ (w.op ≠ 3#2 → w.val = 0#8) ∧ (w.op = 0#2 ∨ w.op = 1#2 → w.addr = 0#32) := by
  rcases w.op_cases with ho | ho | ho | ho <;> simp [Word.Canonical, ho]

theorem encode_decode_of_canonical {w : Word} (h : w.Canonical) : encode (decode w) = w := by
  obtain ⟨hv, ha⟩ := w.canonical_iff.1 h
  rcases w.op_cases with ho | ho | ho | ho
  · rw [decode_of_op_zero ho, encode_init, Word.ofFields_eq ho (hv (by simp [ho])) (ha (.inl ho))]
  · rw [decode_of_op_one ho, encode_shutdown, Word.ofFields_eq ho (hv (by simp [ho])) (ha (.inr ho))]
  · rw [decode_of_op_two ho, encode_readb, Word.ofFields_eq ho (hv (by simp [ho])) rfl]
  · rw [decode_of_op_three ho, encode_writeb, Word.ofFields_eq ho rfl rfl]

theorem encode_decode_iff (w : Word) : encode (decode w) = w ↔ w.Canonical :=
  ⟨fun h => h ▸ encode_canonical (decode w), encode_decode_of_canonical⟩

/-- Settles O2: a word is the concatenation of its fields, and so is the word of every command. -/
theorem commandWordRoundTrip : Obligations.CommandWordRoundTrip := by
  unfold Obligations.CommandWordRoundTrip
  exact ⟨fun w => ⟨decode_of_op_zero, decode_of_op_one, decode_of_op_two, decode_of_op_three⟩,
    ⟨rfl, rfl, fun _ => rfl, fun _ _ => rfl⟩, fun c _ => decode_encode c, encode_decode_iff⟩

/-- Settles O1. -/
theorem commandWordsOfTheSpec : Obligations.CommandWordsOfTheSpec := by
  unfold Obligations.CommandWordsOfTheSpec
  decide

theorem Instr.wellFormed (c : Instr) : c.WellFormed = true := by cases c <;> rfl

/-- Settles O3: `decode` reads `op`, and of the other fields those alone that the command of that `op` uses. -/
theorem unusedFieldsIgnored : Obligations.UnusedFieldsIgnored := by
  unfold Obligations.UnusedFieldsIgnored
  refine ⟨fun w => (decode w).wellFormed, fun w w' (hop : w.op = w'.op) => ⟨?_, ?_⟩⟩
  · rintro (h | h)
    · rw [decode_of_op_zero h, decode_of_op_zero (hop.symm.trans h)]
    · rw [decode_of_op_one h, decode_of_op_one (hop.symm.trans h)]
  · intro h (ha : w.addr = w'.addr)
    rw [decode_of_op_two h, decode_of_op_two (hop.symm.trans h), ha]

end Sys2Proof
end

section
/-! PROOFS. The set and clear group of a value over a pin sequence (30_encoding.md rules R58 and R59), for sequences of any
length, and then for the address and the data pins. -/

namespace Sys2Proof.Machine

/-! ### Masks as sets of pins -/

@[simp] theorem maskHas_and (m n : Mask) (q : Pin) : maskHas (m &&& n) q = (maskHas m q && maskHas n q) :=
  BitVec.getLsbD_and

@[simp] theorem maskHas_not (m : Mask) (q : Pin) : maskHas (~~~m) q = !maskHas m q := by
  simp [maskHas, q.isLt]

theorem mask_ext {m n : Mask} (h : ∀ q, maskHas m q = maskHas n q) : m = n :=
  BitVec.eq_of_getLsbD_eq fun i hi => h ⟨i, hi⟩

/-- Two masks that agree on the pins of a sequence and on the pins outside it are one mask. -/
theorem mask_ext_pins {n : Nat} (pins : Vector Pin n) {m m' : Mask}
    (hin : ∀ i, maskHas m (pins.get i) = maskHas m' (pins.get i))
    (hout : ∀ q, (∀ i, pins.get i ≠ q) → maskHas m q = maskHas m' q) : m = m' := by
  refine mask_ext fun q => ?_
  by_cases hq : ∃ i, pins.get i = q
  · obtain ⟨i, rfl⟩ := hq
    exact hin i
  · exact hout q fun i hi => hq ⟨i, hi⟩

/-- A pin is in the mask of a kept index set exactly when it stands at a kept index. -/
theorem maskHas_maskFrom_iff {n : Nat} (pins : Vector Pin n) (keep : Nat → Bool) (q : Pin) :
    maskHas (maskFrom keep 0 pins.toList) q = true ↔ ∃ i : Fin n, pins.get i = q ∧ keep i.val = true := by
  rw [maskHas_maskFrom]
  constructor
  · rintro ⟨j, hj, hk⟩
    obtain ⟨hlt, e⟩ := List.getElem?_eq_some_iff.1 hj
    exact ⟨⟨j, by simpa using hlt⟩, by simpa [Vector.get_eq_getElem] using e, by simpa using hk⟩
  · rintro ⟨i, rfl, hk⟩
    exact ⟨i.val, by simp [Vector.get_eq_getElem], by simpa using hk⟩

/-! ### The two groups of a value -/

section
variable {n : Nat} {pins : Vector Pin n}

theorem maskHas_setGroup_iff (v : BitVec n) (q : Pin) :
    maskHas (setGroup pins v) q = true ↔ ∃ i : Fin n, pins.get i = q ∧ v.getLsbD i.val = true :=
  maskHas_maskFrom_iff pins v.getLsbD q

theorem maskHas_clearGroup_iff (v : BitVec n) (q : Pin) :
    maskHas (clearGroup pins v) q = true ↔ ∃ i : Fin n, pins.get i = q ∧ v.getLsbD i.val = false := by
  rw [clearGroup, maskHas_maskFrom_iff]
  simp only [Bool.not_eq_true']

variable (hp : pins.toList.Nodup)
include hp

theorem clearGroup_eq (v : BitVec n) :
    clearGroup pins v = maskFrom (fun _ => true) 0 pins.toList &&& ~~~(setGroup pins v) := by
  refine mask_ext_pins pins (fun i => ?_) fun q hq => ?_
  · simp [setGroup, clearGroup, maskHas_maskFrom_get pins hp]
  · simp [setGroup, clearGroup, maskHas_maskFrom_of_not_mem pins _ q hq]

theorem setGroup_and_clearGroup (v : BitVec n) : setGroup pins v &&& clearGroup pins v = 0#32 := by
  rw [clearGroup_eq hp, BitVec.and_comm, BitVec.and_assoc, BitVec.not_and_self]
  exact BitVec.and_zero

theorem setGroup_or_clearGroup (v : BitVec n) :
    setGroup pins v ||| clearGroup pins v = maskFrom (fun _ => true) 0 pins.toList := by
  refine mask_ext_pins pins (fun i => ?_) fun q hq => ?_
  · simp [setGroup, clearGroup, maskHas_maskFrom_get pins hp]
  · simp [setGroup, clearGroup, maskHas_maskFrom_of_not_mem pins _ q hq]

theorem setGroup_inj {v v' : BitVec n} (h : setGroup pins v = setGroup pins v') : v = v' := by
  refine BitVec.eq_of_getLsbD_eq fun i hi => ?_
  rw [← maskHas_maskFrom_get pins hp v.getLsbD ⟨i, hi⟩, ← maskHas_maskFrom_get pins hp v'.getLsbD ⟨i, hi⟩]
  exact congrArg (maskHas · _) h

/-- A mask of pins of the sequence is the set group of the value read from it pin by pin. -/
theorem setGroup_ofFnLE {m : Mask} (h : m &&& maskFrom (fun _ => true) 0 pins.toList = m) :
    setGroup pins (BitVec.ofFnLE fun i => maskHas m (pins.get i)) = m := by
  refine mask_ext_pins pins (fun i => ?_) fun q hq => ?_
  · simp [setGroup, maskHas_maskFrom_get pins hp]
  · rw [← h]
    simp [setGroup, maskHas_maskFrom_of_not_mem pins _ q hq]

end

/-! ### The address pins and the data pins -/

/-- The bits above 16 of an address are free: every effective address is that of some address (20_memory.md rule R31). -/
theorem effective_zeroExtend (ea : EffAddr) : effective (ea.zeroExtend 32) = ea :=
  (BitVec.extractLsb'_setWidth_of_le (by decide)).trans BitVec.extractLsb'_eq_self

/-- Settles O4: the two groups over the address pins, which a well-formed map keeps apart. -/
theorem addressGroups : Obligations.AddressGroups := by
  unfold Obligations.AddressGroups
  refine ⟨fun b hb a => ?_, by decide, by decide⟩
  have hp := hb.addr_nodup
  refine ⟨maskHas_setGroup_iff _, maskHas_clearGroup_iff _, setGroup_and_clearGroup hp _, setGroup_or_clearGroup hp _,
    clearGroup_eq hp _, fun a' h => ?_, fun a' h => setGroup_inj hp h, fun m hm => ?_⟩
  · simp only [addrSet, addrClr, h, and_self]
  · refine ⟨(BitVec.ofFnLE fun i => maskHas m (b.addr.get i)).zeroExtend 32, ?_⟩
    rw [addrSet, effective_zeroExtend]
    exact setGroup_ofFnLE hp hm

/-- Settles O5: the two groups over the data pins, and the bits of the assembled number. -/
theorem dataGroups : Obligations.DataGroups := by
  unfold Obligations.DataGroups
  refine ⟨fun b hb v => ⟨maskHas_setGroup_iff _, maskHas_clearGroup_iff _, setGroup_and_clearGroup hb.data_nodup _,
    setGroup_or_clearGroup hb.data_nodup _⟩, fun l hl i => ?_, by decide, by decide⟩
  have hi : i.val < l.length := by omega
  rw [getLsbD_byteOfSamples l i.val i.isLt, List.getD_eq_getElem l false hi, List.getElem?_eq_getElem hi]

end Sys2Proof.Machine
end

section
/-! PROOFS. The machine's PinAssignment among those over the default address and data pins (30_encoding.md rule R62). -/

namespace Sys2Proof

theorem Config.board_addr : Config.board.addr = Config.addrPins := rfl

theorem Config.board_data : Config.board.data = Config.dataPins := rfl

/-- A pin that is no default address or data pin is one of the spare ones. -/
theorem Config.mem_sparePins {p : Pin} (ha : p ∉ Config.addrPins.toList) (hd : p ∉ Config.dataPins.toList) :
    p ∈ Config.sparePins.toList := by
  have every : ∀ p : Pin, p ∈ Config.addrPins.toList ∨ p ∈ Config.dataPins.toList ∨ p ∈ Config.sparePins.toList := by
    decide
  exact ((every p).resolve_left ha).resolve_left hd

/-- Taking out one element leaves every other one in. -/
theorem Vector.mem_eraseIdx_of_ne {n : Nat} {α : Type} {v : Vector α n} {x : α} (i : Fin n) (hx : x ∈ v.toList)
    (hne : x ≠ v.get i) : x ∈ (v.eraseIdx i).toList := by
  obtain ⟨j, rfl⟩ := Vector.exists_get_of_mem hx
  refine Vector.mem_toList_iff.2 (Vector.mem_eraseIdx_iff_getElem.2 ⟨j, j.isLt, fun e => hne ?_, rfl⟩)
  rw [Fin.ext e]

/-- A control pin of a well-formed map over the default address and data pins is a spare pin. -/
theorem Board.Wf.control_mem_sparePins {b : Board} (h : b.Wf) (ha : b.addr = Config.addrPins)
    (hd : b.data = Config.dataPins) {c : Pin} (hc : c ∈ [b.ce, b.oe, b.we]) : c ∈ Config.sparePins.toList := by
  obtain ⟨-, -, -, notData, notAddr, -⟩ := h.parts
  refine Config.mem_sparePins (fun m => ?_) fun m => ?_
  · obtain ⟨i, hi⟩ := Vector.exists_get_of_mem (ha ▸ m)
    exact notAddr c hc i hi
  · obtain ⟨i, hi⟩ := Vector.exists_get_of_mem (hd ▸ m)
    exact notData c hc i hi

/-- The three control pins of such a map are chosen one after another among the spare pins. -/
theorem Board.Wf.eq_ofChoices {b : Board} (h : b.Wf) (ha : b.addr = Config.addrPins) (hd : b.data = Config.dataPins) :
    ∃ i j k, b = Board.ofChoices i j k := by
  have spare : ∀ c ∈ [b.ce, b.oe, b.we], c ∈ Config.sparePins.toList := fun c => h.control_mem_sparePins ha hd
  obtain ⟨i, hi⟩ := Vector.exists_get_of_mem (spare b.ce (by simp))
  have oeLeft := Vector.mem_eraseIdx_of_ne i (spare b.oe (by simp)) (hi ▸ h.ce_ne_oe.symm)
  obtain ⟨j, hj⟩ := Vector.exists_get_of_mem oeLeft
  have weLeft := Vector.mem_eraseIdx_of_ne j (Vector.mem_eraseIdx_of_ne i (spare b.we (by simp)) (hi ▸ h.ce_ne_we.symm))
    (hj ▸ h.oe_ne_we.symm)
  obtain ⟨k, hk⟩ := Vector.exists_get_of_mem weLeft
  refine ⟨i, j, k, ?_⟩
  obtain ⟨ce, oe, we, data, addr⟩ := b
  simp only [Board.ofChoices, Board.mk.injEq]
  exact ⟨hi.symm, hj.symm, hk.symm, hd, ha⟩

/-- Settles O6. -/
theorem boardIsAnyWellFormedDefault : Obligations.BoardIsAnyWellFormedDefault := by
  unfold Obligations.BoardIsAnyWellFormedDefault
  exact ⟨Config.board_wf, Config.board_addr, Config.board_data, fun b h ha hd => h.eq_ofChoices ha hd⟩

end Sys2Proof
end

section
/-! PROOFS. What a command answers to the host (30_encoding.md rule R55). -/

namespace Sys2Proof.Machine

/-- A command that completes adds the answer of its kind, or InitError if it is INIT. -/
theorem exec_answers {i : Instr} {s t : State} (h : exec i s = .next t) :
    (∃ u, t.answers = s.answers ++ [answerOf u i]) ∨ (i = .init ∧ t.answers = s.answers ++ [.initError]) := by
  obtain ⟨-, -, ⟨u, hu, rfl⟩ | ⟨rfl, u, hu, -, rfl⟩⟩ := exec_eq_next h
  · obtain ⟨ha, -⟩ := performAll_keeps hu
    exact .inl ⟨u, by rw [complete_answers, ha, accept_answers]⟩
  · obtain ⟨-, -, -, rfl⟩ := perform_eq_next.1 hu
    exact .inr ⟨rfl, by simp [raiseInitError]⟩

theorem exec_seq {i : Instr} {s t : State} (h : exec i s = .next t) : t.seq = .idle := by
  obtain ⟨-, -, ⟨u, -, rfl⟩ | ⟨-, u, -, -, rfl⟩⟩ := exec_eq_next h <;> rfl

theorem Answer.status_word (ans : Answer) : ans.word.getLsbD 8 = true ↔ ans = .initError := by
  cases ans with
  | byte v => simp [Answer.word]
  | _ => decide

/-- Settles O32: every path of a command ends in `complete`, with the answer of its kind or, in INIT alone, InitError. -/
theorem oneAnswerEach : Obligations.OneAnswerEach := by
  unfold Obligations.OneAnswerEach
  refine ⟨fun i s t h => ⟨exec_seq h, ?_⟩, fun ans => ⟨ans.status_word, ?_⟩⟩
  · rcases exec_answers h with ⟨u, hu⟩ | ⟨rfl, hu⟩
    · refine ⟨_, hu, ?_⟩
      cases i with
      | init => exact .inl rfl
      | shutdown => rfl
      | readb a => exact ⟨_, rfl⟩
      | writeb a v => rfl
    · exact ⟨_, hu, .inr rfl⟩
  · cases ans with
    | byte v => simp [Answer.word]
    | _ => rfl

end Sys2Proof.Machine
end

section
/-! PROOFS. When one GPIO primitive is refused, and what it does otherwise (40_pin_primitives.md). -/

namespace Sys2Proof.Machine

/-! ### The refusals -/

/-- The ownership test comes first, so it decides whatever the operand and the pins are (rule R65 (c)). -/
theorem perform_of_released {m : Prim} {s : State} (w : World) (hm : m.needsPeripheral = true)
    (hs : s.acq = .released) : perform w m s = .refused .peripheralNotHeld := by
  unfold perform
  exact if_pos (by simp [hm, hs])

/-- Settles O11: none of the listed operations is `open()` or a notification, so each needs the peripheral. -/
theorem pinOperationsNeedThePeripheral : Obligations.PinOperationsNeedThePeripheral := by
  unfold Obligations.PinOperationsNeedThePeripheral
  intro w s hs m hm
  have needs : m.needsPeripheral = true := by
    rcases List.mem_append.1 hm with hclose | hpin
    · rw [List.mem_singleton.1 hclose]; rfl
    · obtain ⟨p, -, hp⟩ := List.mem_flatMap.1 hpin
      simp only [List.mem_cons, List.not_mem_nil, or_false] at hp
      rcases hp with rfl | rfl | rfl | rfl | rfl <;> rfl
  exact ⟨perform_of_released w needs hs, fun k => ⟨perform_of_released w rfl hs, perform_of_released w rfl hs⟩⟩

/-- A pin that is not an Input has no level to answer (rule R72, 93_implementation_defined.md U7). -/
theorem perform_readPinLevel_of_not_input {s : State} {p : Pin} (w : World) (ha : s.acq = .acquired)
    (hd : s.dirOf p ≠ some .input) : perform w (.readPinLevel p) s = .refused .pinNotInput := by
  unfold perform
  rw [if_neg (by simp [ha]), if_pos (by simpa [Prim.readsNonInput] using hd)]

/-! ### `readPinLevel` of an Input -/

theorem sense_of_draw {w : World} {s : State} {p : Pin} (h : line w s p = .draw) :
    sense w s p = w.ext s.trace.length p := by
  simp only [sense, h]

/-- A sample moves no line, so neither the chip nor the contention test has anything new to see. -/
theorem perform_readPinLevel_of_input {w : World} {s : State} {p : Pin} (ha : s.acq = .acquired)
    (hc : contended w.board s = false) (hd : s.dirOf p = some .input) :
    perform w (.readPinLevel p) s =
      .next { s with trace := s.trace ++ [.sample p (sense w s p)], samples := s.samples ++ [sense w s p] } :=
  perform_quiet ha (by simp [Prim.readsNonInput, hd]) (NoRise.of_eq rfl) ((contended_congr rfl rfl).trans hc)

/-- Settles O10: the level answered is the one `sense` reads on the line at that moment. -/
theorem readPinLevelAnswersTheLine : Obligations.ReadPinLevelAnswersTheLine := by
  unfold Obligations.ReadPinLevelAnswersTheLine
  exact fun w p s ha hc => ⟨perform_readPinLevel_of_not_input w ha, fun hd =>
    ⟨sense w s p, perform_readPinLevel_of_input ha hc hd, fun _ => sense_of_level, sense_of_draw⟩⟩

/-! ### The bulk operations -/

/-- A primitive whose register writes are level `b` in the latches of mask `k` leaves every other latch and every
direction, and the chip's reaction to its event does not reach them. -/
theorem perform_writes_mask {w : World} {m : Prim} {k : Mask} {b : Bool} {s t : State}
    (hm : writeOf w s m = s.setLats k b) (h : perform w m s = .next t) :
    t.trace = s.trace ++ [eventOf w s m] ∧ t.dir = s.dir ∧
      ∀ p, t.latOf p = if maskHas k p then some b else s.latOf p := by
  obtain ⟨-, -, -, rfl⟩ := perform_eq_next.1 h
  refine ⟨effect_trace w m s, ?_, fun p => ?_⟩
  · rw [effect_dir, hm, State.setLats_dir]
  · rw [latOf_congr (effect_lat w m s), hm, latOf_setLats]

/-- Settles O9: the two bulk operations are the two levels of one write of a mask. -/
theorem bulkOperationsWriteTheirMask : Obligations.BulkOperationsWriteTheirMask := by
  unfold Obligations.BulkOperationsWriteTheirMask
  exact fun w m s t => ⟨perform_writes_mask rfl, perform_writes_mask rfl⟩

end Sys2Proof.Machine
end

section
/-! PROOFS. INIT and SHUTDOWN (41_lifecycle.md): when they are refused, what each leaves, and the control lines at every
point of INIT. -/

namespace Sys2Proof.Machine

/-- A command neither faults nor completes where it is not admitted (60_exceptions.md rule R126). -/
theorem exec_refused_of_not_admitted {i : Instr} {s : State} (h : ¬ (s.seq = .idle ∧ s.acq = needs i)) :
    ∃ r, exec i s = .refused r := by
  cases e : exec i s with
  | next t => exact absurd (exec_admitted e) h
  | fault r => exact absurd e (exec_ne_fault i s r)
  | refused r => exact ⟨r, rfl⟩

/-! ### The state a successful INIT leaves -/

/-- The post-state of rule R80 over the state INIT was issued in. -/
def sessionOpened (b : Board) (s : State) : State :=
  { s with
    acq := .acquired
    dir := setDirs s.dir (initOrder b) .output
    lat := writeLatches s.lat (ctrlAll b) true
    trace := s.trace ++ initEvents b
    samples := []
    answers := s.answers ++ [.ok] }

theorem initIn_eq_sessionOpened {w : World} (hb : w.board.Wf) {s : State} (hs : s.seq = .idle) (ha : s.acq = .released)
    (hp : PinsUnset s) (ho : w.openOk s.trace.length = true) : initIn w s = .next (sessionOpened w.board s) :=
  initIn_ok hb hs ha hp ho

theorem length_initEvents (b : Board) : (initEvents b).length = 24 := by simp [initEvents]

theorem maskHas_ctrlAll_iff {b : Board} {p : Pin} : maskHas (ctrlAll b) p = true ↔ p ∈ [b.ce, b.oe, b.we] := by
  simp [maskHas_ctrlAll, eq_comm (a := p), or_assoc]

section
variable (b : Board) (s : State)

theorem dirOf_sessionOpened (p : Pin) :
    (sessionOpened b s).dirOf p = if p ∈ initOrder b then some .output else s.dirOf p :=
  get_setDirs s.dir (initOrder b) .output p

theorem latOf_sessionOpened (p : Pin) :
    (sessionOpened b s).latOf p = if p ∈ [b.ce, b.oe, b.we] then some true else s.latOf p := by
  simp only [← maskHas_ctrlAll_iff]
  exact get_writeLatches s.lat (ctrlAll b) true p

theorem sessionPins_sessionOpened : SessionPins b (sessionOpened b s) := by
  have out : ∀ p ∈ initOrder b, (sessionOpened b s).dirOf p = some .output := fun p hp =>
    (dirOf_sessionOpened b s p).trans (if_pos hp)
  have high : ∀ p ∈ [b.ce, b.oe, b.we], (sessionOpened b s).latOf p = some true := fun p hp =>
    (latOf_sessionOpened b s p).trans (if_pos hp)
  exact ⟨⟨out _ (by simp [initOrder]), out _ (by simp [initOrder]), out _ (by simp [initOrder])⟩,
    ⟨high _ (by simp), high _ (by simp), high _ (by simp)⟩,
    fun i => out _ (List.mem_of_getElem? (initOrder_addr b i))⟩

end

section
variable {b : Board} (hb : b.Wf) {s : State} (hp : PinsUnset s)
include hb hp

/-- INIT gives no data pin a direction (rule R83). -/
theorem dataDirection_sessionOpened : DataDirection b (sessionOpened b s) none := fun i => by
  rw [dirOf_sessionOpened, if_neg (data_not_initOrder hb i)]
  exact (hp _).1

/-- INIT writes no address latch (rule R83). -/
theorem latOf_addr_sessionOpened (i : Fin 17) : (sessionOpened b s).latOf (b.addr.get i) = none := by
  rw [latOf_sessionOpened, if_neg fun h => hb.parts.2.2.2.2.1 _ h i rfl]
  exact (hp _).2

end

/-- The line of an Output whose latch was never written is `⊥`. -/
theorem drive_of_output_without_level {s : State} {p : Pin} (hd : s.dirOf p = some .output) (hl : s.latOf p = none) :
    drive s p = .unset := by
  simp only [drive, hd, hl]

theorem aBus_eq_none {w : World} {s : State} (ho : AddressOutput w.board s)
    (hl : ∀ i : Fin 17, s.latOf (w.board.addr.get i) = none) : aBus w s = none :=
  busValue_eq_none.2 ⟨0, line_of_unset (drive_of_output_without_level (ho 0) (hl 0))⟩

theorem dBus_eq_none {w : World} {s : State} (hd : DataDirection w.board s none) : dBus w s = none :=
  busValue_eq_none.2 ⟨0, line_of_unset (drive_of_none (hd 0))⟩

/-- Settles O17: INIT touches the control and address pins alone, and of the latches those of the control pins alone. -/
theorem initOpensASession : Obligations.InitOpensASession := by
  unfold Obligations.InitOpensASession
  intro w s hb hs ha hp ho
  have pins := sessionPins_sessionOpened w.board s
  have data := dataDirection_sessionOpened hb hp
  have levels := latOf_addr_sessionOpened hb hp
  exact ⟨sessionOpened w.board s, initIn_eq_sessionOpened hb hs ha hp ho, rfl, length_initEvents _, rfl,
    ⟨hs, rfl, pins⟩, data, levels, aBus_eq_none pins.2.2 levels, dBus_eq_none data⟩

/-- Settles O15: the two answers of `open()` are the two equations of INIT. -/
theorem initCompletes : Obligations.InitCompletes := by
  unfold Obligations.InitCompletes
  refine ⟨fun w h => decode_of_op_zero h, by decide, fun s h => exec_refused_of_not_admitted h, fun s hs ha hp => ?_⟩
  cases ho : Config.openOk s.trace.length with
  | true =>
    exact ⟨_, initIn_eq_sessionOpened (w := Config.world) Config.board_wf hs ha hp ho, hs, rfl, fun _ => rfl,
      fun _ => ⟨rfl, rfl, rfl, length_initEvents _, dirOf_sessionOpened _ s, latOf_sessionOpened _ s⟩, nofun⟩
  | false =>
    exact ⟨_, initIn_failed (w := Config.world) hs ha hp ho, hs, rfl, fun _ => rfl, nofun,
      fun _ => ⟨ha, rfl, rfl, fun _ => ⟨rfl, rfl⟩⟩⟩

/-- Settles O19: SHUTDOWN is `close()`, which takes the value of every pin (40_pin_primitives.md rule R75). -/
theorem shutdownCompletes : Obligations.ShutdownCompletes := by
  unfold Obligations.ShutdownCompletes
  refine ⟨fun w h => decode_of_op_one h, by decide, fun s h => exec_refused_of_not_admitted h, fun s hs ha => ?_⟩
  exact ⟨_, shutdownIn_eq (w := Config.world) hs ha, rfl, fun p => ⟨dirOf_clearPins s p, latOf_clearPins s p⟩, hs, rfl,
    rfl, rfl, fun _ => rfl⟩

/-! ### The control lines inside INIT -/

/-- A pin that is an Output only with a high latch. -/
def OutputOnlyHigh (s : State) (p : Pin) : Prop := s.dirOf p = some .output → s.latOf p = some true

theorem OutputOnlyHigh.not_low {s : State} {p : Pin} (h : OutputOnlyHigh s p) : drive s p ≠ .level false := by
  intro hlow
  obtain ⟨hd, hl⟩ := drive_eq_level.1 hlow
  exact absurd ((h hd).symm.trans hl) (by decide)

/-- The levels of the control pins come before their directions (rule R84). -/
theorem InitPins.outputOnlyHigh {b : Board} {k : Nat} {s : State} (h : InitPins b k s) {c : Pin}
    (hc : c ∈ [b.ce, b.oe, b.we]) : OutputOnlyHigh s c := by
  intro hout
  obtain ⟨hl, ht, -⟩ := h
  obtain ⟨j, hj⟩ := List.mem_iff_getElem?.1 (List.mem_append_left b.addr.toList hc)
  have hk : 3 + j ≤ k := by
    by_contra hlt
    rw [ht j c hj, if_neg hlt] at hout
    cases hout
  rw [hl c hc, if_pos (by omega)]

/-- Any stretch of INIT's step list after `open()` leads from the pins of one position to those of a later one. -/
theorem InitPins.performAll {w : World} (hb : w.board.Wf) {l : List Prim} {k : Nat} {s t : State} (hk : 1 ≤ k)
    (hl : l <+: (initSteps w.board).drop k) (h : InitPins w.board k s) (ht : performAll w l s = .next t) :
    ∃ k', InitPins w.board k' t := by
  induction l generalizing k s with
  | nil =>
    cases ht
    exact ⟨k, h⟩
  | cons m l ih =>
    obtain ⟨r, hr⟩ := hl
    have hm : (initSteps w.board)[k]? = some m := by rw [← List.head?_drop, ← hr]; rfl
    obtain ⟨u, hu, ht⟩ := andThen_eq_next.1 ht
    obtain ⟨-, -, -, rfl⟩ := perform_eq_next.1 hu
    exact ih (k := k + 1) (by omega) ⟨r, (drop_succ_of_drop_cons hr.symm).symm⟩
      ((commandPins_advance (c := .init)).2 (h.step hb w hk hm)) ht

/-- Settles O18: before `open()` no pin is an Output, and after it every point has the pins of its position. -/
theorem initDrivesNoControlLow : Obligations.InitDrivesNoControlLow := by
  unfold Obligations.InitDrivesNoControlLow
  intro w s t k hb hs ha hp ht c hc
  have high : OutputOnlyHigh t c := by
    cases k with
    | zero =>
      cases ht
      exact fun hout => absurd ((hp c).1.symm.trans hout) (by simp)
    | succ k =>
      obtain ⟨u, hu, ht⟩ := andThen_eq_next.1 ht
      obtain ⟨-, -, -, rfl⟩ := perform_eq_next.1 hu
      have start : InitPins w.board 1 (advance (effect w .acquire (accept .init s))) :=
        (commandPins_advance (c := .init)).2 (InitPins.start w hp)
      obtain ⟨k', hk'⟩ := start.performAll hb (le_refl 1) (List.take_prefix k _) ht
      exact hk'.outputOnlyHigh hc
  exact ⟨high.not_low, high⟩

end Sys2Proof.Machine
end

section
/-! PROOFS. The Address Encoder (42_address_encoder.md): the two steps of ENCADDR, the address between them and after them,
and the latches they and the data phase leave alone. -/

namespace Sys2Proof.Machine

/-! ### The two steps of ENCADDR -/

section
variable {w : World} {b : Board} {a : HostAddr} {s t : State}

/-- ENCADDR is its bulk set and then its bulk clear, each followed by the advance of the position. -/
theorem encAddr_eq_next (h : performAll w (encAddr b a) s = .next t) :
    ∃ u v, perform w (.setPinsHigh (addrSet b a)) s = .next u ∧
      perform w (.setPinsLow (addrClr b a)) (advance u) = .next v ∧ t = advance v := by
  obtain ⟨u, hu, h⟩ := andThen_eq_next.1 h
  obtain ⟨v, hv, h⟩ := andThen_eq_next.1 h
  cases h
  exact ⟨u, v, hu, hv, rfl⟩

theorem maskHas_addrSet_get (hb : b.Wf) (i : Fin 17) :
    maskHas (addrSet b a) (b.addr.get i) = (effective a).getLsbD i.val :=
  maskHas_maskFrom_get b.addr hb.addr_nodup _ i

theorem maskHas_addrClr_get (hb : b.Wf) (i : Fin 17) :
    maskHas (addrClr b a) (b.addr.get i) = !(effective a).getLsbD i.val :=
  maskHas_maskFrom_get b.addr hb.addr_nodup _ i

/-- Step 0 raises the bits that are 1 and leaves the others as they were, `⊥` included (rule R92). -/
theorem latOf_addr_after_set (hb : b.Wf) (h : perform w (.setPinsHigh (addrSet b a)) s = .next t) (i : Fin 17) :
    t.latOf (b.addr.get i) = if (effective a).getLsbD i.val then some true else s.latOf (b.addr.get i) := by
  obtain ⟨-, -, hlat⟩ := perform_writes_mask (b := true) rfl h
  rw [hlat, maskHas_addrSet_get hb]

theorem addressRaised_after_set (hb : b.Wf) (h : perform w (.setPinsHigh (addrSet b a)) s = .next t) :
    AddressRaised b t (effective a) := fun i hi => by rw [latOf_addr_after_set hb h, if_pos hi]

/-- Step 1 writes every latch that step 0 did not, so the two leave no latch of what was held before (rule R91). -/
theorem addressHolds_after_clear (hb : b.Wf) (hs : AddressRaised b s (effective a))
    (h : perform w (.setPinsLow (addrClr b a)) s = .next t) : AddressHolds b t (effective a) := by
  obtain ⟨-, -, -, rfl⟩ := perform_eq_next.1 h
  have applied : Applied b.addr (effective a) 1 s := ⟨fun _ => hs, fun h => by omega⟩
  exact (applied.clear hb.addr_nodup w).2 (le_refl 2)

theorem addressHolds_after_encAddr (hb : b.Wf) (h : performAll w (encAddr b a) s = .next t) :
    AddressHolds b t (effective a) := by
  obtain ⟨u, v, hu, hv, rfl⟩ := encAddr_eq_next h
  have raised : AddressRaised b (advance u) (effective a) := fun i hi =>
    (latOf_advance u _).trans (addressRaised_after_set hb hu i hi)
  exact fun i => (latOf_advance v _).trans (addressHolds_after_clear hb raised hv i)

end

/-! ### Decoding the address latches -/

/-- The address read bit by bit from the latches that hold it (rule R91). -/
theorem valueOfLevels_addressLatches {b : Board} {s : State} {ea : EffAddr} (h : AddressHolds b s ea) :
    (b.addr.toList.mapM s.latOf).map valueOfLevels = some ea.toNat := by
  cases e : b.addr.toList.mapM s.latOf with
  | none =>
    obtain ⟨p, hp, hnone⟩ := (mapM_eq_none _ _).1 e
    obtain ⟨i, rfl⟩ := Vector.exists_get_of_mem hp
    exact absurd ((h i).symm.trans hnone) (by simp)
  | some l =>
    obtain ⟨hlen, hget⟩ := getElem?_of_mapM _ _ _ e
    rw [Vector.length_toList] at hlen
    refine congrArg some (eq_toNat_of_testBit (hlen ▸ valueOfLevels_lt l) fun i => ?_)
    have hi : l[i.val]? = some (ea.getLsbD i.val) := by
      rw [hget, ← h i]
      simp [Vector.get_eq_getElem]
    rw [testBit_valueOfLevels, List.getD_eq_getElem?_getD, hi, Option.getD_some]

/-- Settles O12: the masks split the address pins by the bits of the address, and their two writes make the latches those
bits. -/
theorem encoderRoundTrip : Obligations.EncoderRoundTrip := by
  unfold Obligations.EncoderRoundTrip
  have hb := Config.board_wf
  refine fun a => ⟨fun i => ?_, fun s t h => ?_⟩
  · rw [maskHas_addrSet_get hb, maskHas_addrClr_get hb, Bool.not_not]
  · have holds := addressHolds_after_encAddr hb h
    exact ⟨holds, valueOfLevels_addressLatches holds⟩

/-! ### Between the two steps -/

/-- A value or-ed with another differs from it exactly when the other brings in a bit. -/
theorem or_ne_left_iff {n : Nat} {x y : BitVec n} :
    x ||| y ≠ x ↔ ∃ i : Fin n, x.getLsbD i.val = false ∧ y.getLsbD i.val = true := by
  constructor
  · intro hne
    by_contra hno
    refine hne (BitVec.eq_of_getLsbD_eq fun i hi => ?_)
    rw [BitVec.getLsbD_or]
    cases hx : x.getLsbD i with
    | true => rfl
    | false => exact Bool.eq_false_iff.2 fun hy => hno ⟨⟨i, hi⟩, hx, hy⟩
  · rintro ⟨i, hx, hy⟩ e
    have bit : (x ||| y).getLsbD i.val = x.getLsbD i.val := by rw [e]
    rw [BitVec.getLsbD_or, hx, hy] at bit
    cases bit

/-- Settles O13: step 0 adds the bits of the address to those held, the chip sees what Outputs hold, and step 1 takes away
the rest. -/
theorem addressTransient : Obligations.AddressTransient := by
  unfold Obligations.AddressTransient
  have hb := Config.board_wf
  intro a s t ht
  have lat := latOf_addr_after_set hb ht
  refine ⟨lat, fun old hold => ?_, fun u hu => addressHolds_after_clear hb (addressRaised_after_set hb ht) hu⟩
  have transient : AddressHolds Config.board t (old ||| effective a) := fun i => by
    rw [lat, hold i, BitVec.getLsbD_or]
    cases (effective a).getLsbD i.val <;> simp
  obtain ⟨-, hdir, -⟩ := perform_writes_mask (b := true) rfl ht
  refine ⟨transient, fun ho => aBus_of_holds (fun i => (dirOf_congr hdir _).trans (ho i)) transient, ?_⟩
  have fall : old ||| effective a ≠ effective a ↔
      ∃ i : Fin 17, old.getLsbD i.val = true ∧ (effective a).getLsbD i.val = false := by
    rw [BitVec.or_comm, or_ne_left_iff]
    simp only [and_comm]
  rw [and_comm, fall, or_ne_left_iff]

/-! ### What ENCADDR and the data phase leave alone -/

/-- ENCADDR writes no direction, and of the latches those of the address pins alone (rule R94). -/
theorem encAddr_frame {w : World} {b : Board} {a : HostAddr} {s t : State}
    (h : performAll w (encAddr b a) s = .next t) :
    t.dir = s.dir ∧ ∀ p, (∀ i, b.addr.get i ≠ p) → t.latOf p = s.latOf p := by
  obtain ⟨u, v, hu, hv, rfl⟩ := encAddr_eq_next h
  obtain ⟨-, hdirU, hlatU⟩ := perform_writes_mask (b := true) rfl hu
  obtain ⟨-, hdirV, hlatV⟩ := perform_writes_mask (b := false) rfl hv
  refine ⟨by rw [advance_dir, hdirV, advance_dir, hdirU], fun p hp => ?_⟩
  have outside : ∀ keep, maskHas (maskFrom keep 0 b.addr.toList) p = false :=
    fun keep => maskHas_maskFrom_of_not_mem b.addr keep p hp
  rw [latOf_advance, hlatV, addrClr, clearGroup, outside, latOf_advance, hlatU, addrSet, setGroup, outside]
  rfl

theorem Prim.setsLevel_of_other_pin {p q : Pin} (h : p ≠ q) :
    (Prim.setPinHigh q).setsLevel p = none ∧ (Prim.setPinLow q).setsLevel p = none :=
  ⟨if_neg h, if_neg h⟩

/-- The steps of READB and WRITEB after ENCADDR's two: directions, data latches, controls and samples. -/
theorem dataPhase_setsLevel_addr {b : Board} (hb : b.Wf) {c : Instr} {k : Nat} {m : Prim} (hi : c ≠ .init)
    (hs : c ≠ .shutdown) (hk : 2 ≤ k) (hm : (commandSteps b c)[k]? = some m) (i : Fin 17) :
    m.setsLevel (b.addr.get i) = none := by
  have ce := Prim.setsLevel_of_other_pin (hb.addr_ne_ce i)
  have oe := Prim.setsLevel_of_other_pin (hb.addr_ne_oe i)
  have we := Prim.setsLevel_of_other_pin (hb.addr_ne_we i)
  have data : ∀ j, b.data.get j ≠ b.addr.get i := fun j => (hb.addr_ne_data i j).symm
  cases c with
  | init => exact absurd rfl hi
  | shutdown => exact absurd rfl hs
  | readb a =>
    rcases readbSteps_at hm with ⟨rfl, -⟩ | ⟨rfl, -⟩ | ⟨j, -, rfl⟩ | ⟨-, rfl⟩ | ⟨-, rfl⟩ | ⟨j, -, rfl⟩ | ⟨-, rfl⟩ | ⟨-, rfl⟩
    · omega
    · omega
    · rfl
    · exact ce.2
    · exact oe.2
    · rfl
    · exact oe.1
    · exact ce.1
  | writeb a v =>
    rcases writebSteps_at hm with
      ⟨rfl, -⟩ | ⟨rfl, -⟩ | ⟨j, -, rfl⟩ | ⟨-, rfl⟩ | ⟨-, rfl⟩ | ⟨-, rfl⟩ | ⟨-, rfl⟩ | ⟨-, rfl⟩ | ⟨-, rfl⟩
    · omega
    · omega
    · rfl
    · exact (Prim.setsLevel_group data).1
    · exact (Prim.setsLevel_group data).2
    · exact ce.2
    · exact we.2
    · exact we.1
    · exact ce.1

/-- Settles O14: ENCADDR's two masks name address pins alone, and no later step of READB or WRITEB writes the latch of
one. -/
theorem dataPhaseLeavesAddressPins : Obligations.DataPhaseLeavesAddressPins := by
  unfold Obligations.DataPhaseLeavesAddressPins
  refine ⟨fun a s t h => encAddr_frame h, fun s t c k hs hinit hshut hk h i => ?_⟩
  obtain ⟨m, hm, -, rfl⟩ := step_busy_eq_next hs h
  rw [latOf_afterStep]
  exact latOf_effect_same _ (commandSteps_ne_close hshut hm)
    (dataPhase_setsLevel_addr Config.board_wf hinit hshut hk hm i)

end Sys2Proof.Machine
end

section
/-! PROOFS. The Byte Writer (43_byte_writer.md): the state a WRITEB leaves, what its pins show on the
way, and its events. -/

namespace Sys2Proof.Machine

/-! ### The state a WRITEB leaves -/

/-- The post-state of rule R100 over the state WRITEB was issued in. -/
def byteWritten (b : Board) (a : HostAddr) (v : Byte) (s : State) : State :=
  { s with
    dir := setDirs s.dir b.data.toList .output
    lat := writebLatches b a v s.lat
    trace := s.trace ++ (writebPrepare b a v ++ writebStrobe b)
    samples := []
    answers := s.answers ++ [.nothing]
    mem := Memory.write s.mem (effective a).toNat v }

theorem writebIn_eq_byteWritten {w : World} (hb : w.board.Wf) {a : HostAddr} {v : Byte} {s : State}
    (h : SessionReady w.board s) : writebIn w a v s = .next (byteWritten w.board a v s) :=
  writebIn_eq hb h

/-- The four strobe steps write no latch but those of CE and WE. -/
theorem get_writebLatches {b : Board} (a : HostAddr) (v : Byte) (f : Vector (Option Bool) 32) {p : Pin}
    (hce : p ≠ b.ce) (hwe : p ≠ b.we) :
    (writebLatches b a v f).get p = (writeLatches (writeLatches (writeLatches (writeLatches f (addrSet b a) true)
      (addrClr b a) false) (dataSet b v) true) (dataClr b v) false).get p := by
  simp only [writebLatches, get_set, hce, hwe, if_false]

section
variable (b : Board) (a : HostAddr) (v : Byte) (s : State)

theorem dirOf_byteWritten (p : Pin) :
    (byteWritten b a v s).dirOf p = if p ∈ b.data.toList then some .output else s.dirOf p :=
  get_setDirs s.dir b.data.toList .output p

theorem dataDirection_byteWritten : DataDirection b (byteWritten b a v s) (some .output) := fun i =>
  (dirOf_byteWritten b a v s _).trans (if_pos (Vector.get_mem_toList b.data i))

/-- A pin outside the PinAssignment is in no mask of WRITEB and is neither CE nor WE. -/
theorem latOf_byteWritten_of_not_mem {p : Pin} (hp : p ∉ b.pins) : (byteWritten b a v s).latOf p = s.latOf p := by
  have notControl : ∀ c ∈ [b.ce, b.oe, b.we], p ≠ c := fun c hc e => hp (e ▸ control_mem_pins hc)
  have notAddr : ∀ i, b.addr.get i ≠ p := fun i e => hp (e ▸ addr_mem_pins (Vector.get_mem_toList b.addr i))
  have notData : ∀ i, b.data.get i ≠ p := fun i e => hp (e ▸ data_mem_pins (Vector.get_mem_toList b.data i))
  calc (writebLatches b a v s.lat).get p
      = _ := get_writebLatches a v s.lat (notControl _ (by simp)) (notControl _ (by simp))
    _ = _ := get_writeGroups_of_not_mem b.data v _ p notData
    _ = s.lat.get p := get_writeGroups_of_not_mem b.addr (effective a) s.lat p notAddr

variable {b} (hb : b.Wf)
include hb

theorem dataHolds_byteWritten : DataHolds b (byteWritten b a v s) v := fun i =>
  (get_writebLatches a v s.lat (hb.data_ne_ce i) (hb.data_ne_we i)).trans (get_writeGroups b.data hb.data_nodup v _ i)

/-- The data phase leaves the address latches as ENCADDR wrote them (42_address_encoder.md rule R94). -/
theorem addressHolds_byteWritten : AddressHolds b (byteWritten b a v s) (effective a) := fun i =>
  calc (writebLatches b a v s.lat).get (b.addr.get i)
      = _ := get_writebLatches a v s.lat (hb.addr_ne_ce i) (hb.addr_ne_we i)
    _ = _ := get_writeGroups_of_not_mem b.data v _ _ fun j => (hb.addr_ne_data i j).symm
    _ = some ((effective a).getLsbD i.val) := get_writeGroups b.addr hb.addr_nodup (effective a) s.lat i

variable {s}

/-- The strobe ends with CE and WE high, and OE is untouched. -/
theorem controlLatches_byteWritten (h : s.latOf b.oe = some true) :
    ControlLatches b (byteWritten b a v s) true true true := by
  obtain ⟨hce, hoe, hwe⟩ := get_writebLatches_control hb a v s.lat
  exact ⟨hce, hoe.trans h, hwe⟩

theorem addressOutput_byteWritten (h : AddressOutput b s) : AddressOutput b (byteWritten b a v s) := fun i =>
  (dirOf_byteWritten b a v s _).trans ((if_neg (hb.addr_not_data i)).trans (h i))

end

/-- Settles O20: the equation of WRITEB, with the pins of the state it leaves read off one group at a time. -/
theorem writebCompletes : Obligations.WritebCompletes := by
  unfold Obligations.WritebCompletes
  have hb := Config.board_wf
  refine ⟨fun w h => decode_of_op_three h, fun a v => rfl, fun a v s h => exec_refused_of_not_admitted h,
    fun a v s h => ?_⟩
  obtain ⟨hs, -, -, ⟨-, hoe, -⟩, -⟩ := id h
  exact ⟨byteWritten Config.board a v s, writebIn_eq_byteWritten (w := Config.world) hb h, rfl,
    addressHolds_byteWritten a v s hb, dataHolds_byteWritten a v s hb, controlLatches_byteWritten a v hb hoe,
    fun p => latOf_byteWritten_of_not_mem Config.board a v s, dirOf_byteWritten Config.board a v s,
    fun x => Memory.read_write s.mem (effective a).toNat x v, rfl, hs, rfl, rfl⟩

/-! ### The buses -/

/-- A bus whose lines are driven at the bits of a value has that value. -/
theorem busValue_of_levels {w : World} {s : State} {n : Nat} {pins : Vector Pin n} {x : BitVec n}
    (h : ∀ i : Fin n, drive s (pins.get i) = .level (x.getLsbD i.val)) : busValue w s pins.toList = some x.toNat := by
  obtain ⟨v, hv⟩ := exists_busValue (w := w) (s := s) (pins := pins) fun i => by
    rw [line_of_level (h i)]
    simp
  obtain ⟨hlt, hbit⟩ := busValue_eq_some hv
  rw [hv, eq_toNat_of_testBit hlt fun i => (hbit i).2.trans (sense_of_level (line_of_level (h i)))]

/-- While the data pins are Outputs that hold `v`, `D_bus` is `v`. -/
theorem dBus_of_holds {w : World} {s : State} {v : Byte} (ho : DataDirection w.board s (some .output))
    (hl : DataHolds w.board s v) : dBus w s = some v.toNat :=
  busValue_of_levels fun i => drive_eq_level.2 ⟨ho i, hl i⟩

/-- Data pins that turned to Output before their latches were ever written put nothing on the bus. -/
theorem dBus_eq_none_of_output {w : World} {s : State} (ho : DataDirection w.board s (some .output))
    (hl : ∀ i : Fin 8, s.latOf (w.board.data.get i) = none) : dBus w s = none :=
  busValue_eq_none.2 ⟨0, line_of_unset (drive_of_output_without_level (ho 0) (hl 0))⟩

theorem WritePins.dataOutput {b : Board} {a : HostAddr} {v : Byte} {k : Nat} {s : State} (h : WritePins b a v k s)
    (hk : 10 ≤ k) : DataDirection b s (some .output) := by
  obtain ⟨⟨-, -, turned⟩, -⟩ := h
  exact turned.all (by omega)

/-- From the second data step on, the pins of WRITEB show its address and its byte (rule R101). -/
theorem WritePins.buses {w : World} {a : HostAddr} {v : Byte} {k : Nat} {s : State} (h : WritePins w.board a v k s)
    (hk : 12 ≤ k) : aBus w s = some (effective a).toNat ∧ dBus w s = some v.toNat := by
  obtain ⟨⟨-, hao, -⟩, -, ⟨-, hah⟩, -, hdh⟩ := id h
  exact ⟨aBus_of_holds hao (hah (by omega)), dBus_of_holds (h.dataOutput (by omega)) (hdh (by omega))⟩

/-- The points of a run inside a WRITEB have the pins of their position. -/
theorem writePins_of_runPoint {b : Board} {a : HostAddr} {v : Byte} {k : Nat} {s : State} (h : RunPoint b s)
    (ha : s.acq = .acquired) (hs : s.seq = .busy (.writeb a v) k) : WritePins b a v k s := by
  obtain ⟨-, -, pins⟩ := (runPoint_acquired_busy ha hs).1 h
  exact pins

/-- Settles O27: inside WRITEB by the pins of its position, after it by those of the state it leaves. -/
theorem writeBusesStable : Obligations.WriteBusesStable := by
  unfold Obligations.WriteBusesStable
  have hb := Config.board_wf
  refine ⟨fun a v k s h ha hs hk => (writePins_of_runPoint h ha hs).buses (w := Config.world) hk, fun a v s h => ?_⟩
  obtain ⟨-, -, -, -, hao⟩ := id h
  exact ⟨_, writebIn_eq_byteWritten (w := Config.world) hb h,
    aBus_of_holds (addressOutput_byteWritten a v hb hao) (addressHolds_byteWritten a v s hb),
    dBus_of_holds (dataDirection_byteWritten _ a v s) (dataHolds_byteWritten a v s hb)⟩

/-! ### The two data steps -/

/-- A step of a WRITEB other than its last performs the primitive at its position and goes on to the next. -/
theorem step_inside_writeb {a : HostAddr} {v : Byte} {k : Nat} {s t : State} (hs : s.seq = .busy (.writeb a v) k)
    (hk : k + 1 < 16) (h : step s = .next t) :
    ∃ m, (writebSteps Config.board a v)[k]? = some m ∧ t = advance (effect Config.world m s) := by
  obtain ⟨m, hm, -, rfl⟩ := step_busy_eq_next hs h
  refine ⟨m, hm, ?_⟩
  unfold afterStep
  rw [if_neg (by simp), if_neg (by rw [commandSteps, length_writebSteps]; omega)]

/-- Such a step leads to the pins of the next position. -/
theorem WritePins.next {a : HostAddr} {v : Byte} {k : Nat} {s t : State} (hp : WritePins Config.board a v k s)
    (hs : s.seq = .busy (.writeb a v) k) (hk : k + 1 < 16) (h : Machine.step s = .next t) :
    t.seq = .busy (.writeb a v) (k + 1) ∧ WritePins Config.board a v (k + 1) t := by
  obtain ⟨m, hm, rfl⟩ := step_inside_writeb hs hk h
  exact ⟨by simp [hs, Seq.plus], (commandPins_advance (c := .writeb a v)).2 (hp.step Config.board_wf _ hm)⟩

/-- Step k = 10 of WRITEB raises the data latches whose bit is 1. -/
theorem writebSteps_ten {b : Board} {a : HostAddr} {v : Byte} :
    (writebSteps b a v)[10]? = some (.setPinsHigh (dataSet b v)) := by
  simp [writebSteps, encAddr]

/-- The first of the two data steps brings in the bits of `v` and leaves the other latches, `⊥` included (rule R103). -/
theorem latOf_data_after_raise {w : World} {b : Board} (hb : b.Wf) {v : Byte} {s : State} (i : Fin 8) :
    (effect w (.setPinsHigh (dataSet b v)) s).latOf (b.data.get i) =
      if v.getLsbD i.val then some true else s.latOf (b.data.get i) := by
  have bit : maskHas (dataSet b v) (b.data.get i) = v.getLsbD i.val := maskHas_maskFrom_get b.data hb.data_nodup _ i
  rw [latOf_congr (effect_lat w _ s), writeOf, latOf_setLats, bit]

/-- Settles O26: the data pins have turned, so the bus shows the latches: those held, those with the bits of `v` brought
in, and `v`. -/
theorem staleDriveAndDataTransient : Obligations.StaleDriveAndDataTransient := by
  unfold Obligations.StaleDriveAndDataTransient
  intro a v s t u h ha hs ht hu
  have pinsS := writePins_of_runPoint h ha hs
  obtain ⟨hsT, pinsT⟩ := pinsS.next hs (by omega) ht
  obtain ⟨-, pinsU⟩ := pinsT.next hsT (by omega) hu
  have outS := pinsS.dataOutput (by omega)
  have outT := pinsT.dataOutput (by omega)
  obtain ⟨m, hm, et⟩ := step_inside_writeb hs (by omega) ht
  obtain rfl : m = .setPinsHigh (dataSet Config.board v) := Option.some.inj (hm.symm.trans writebSteps_ten)
  have lat : ∀ i : Fin 8, t.latOf (Config.board.data.get i) =
      if v.getLsbD i.val then some true else s.latOf (Config.board.data.get i) := fun i => by
    rw [et, latOf_advance]
    exact latOf_data_after_raise Config.board_wf i
  have mixed : ∀ old, DataHolds Config.board s old → DataHolds Config.board t (old ||| v) := fun old hold i => by
    rw [lat, hold, BitVec.getLsbD_or]
    cases v.getLsbD i.val <;> simp
  exact ⟨fun old hold => ⟨dBus_of_holds outS hold, dBus_of_holds outT (mixed old hold)⟩,
    fun hnone => ⟨dBus_eq_none_of_output outS hnone, fun i => by rw [lat, hnone]⟩,
    (pinsU.buses (w := Config.world) (by omega)).2⟩

/-! ### The write pulse -/

/-- A list of primitives whose events do not depend on the state they run in appends those events. -/
theorem performAll_trace {w : World} {l : List Prim} {f : Prim → Event} {s t : State}
    (hf : ∀ m ∈ l, ∀ u, eventOf w u m = f m) (h : performAll w l s = .next t) : t.trace = s.trace ++ l.map f := by
  induction l generalizing s with
  | nil =>
    cases h
    simp
  | cons m l ih =>
    obtain ⟨u, hu, h⟩ := andThen_eq_next.1 h
    obtain ⟨-, -, -, rfl⟩ := perform_eq_next.1 hu
    rw [ih (fun m' hm' => hf m' (by simp [hm'])) h, advance_trace, effect_trace, hf m (by simp) s]
    simp

/-- Only `open()` and a sample answer something, so the event of any other primitive is the same in every state. -/
theorem eventOf_congr {w : World} {m : Prim} (ha : m ≠ .acquire) (hr : ∀ p, m ≠ .readPinLevel p) (s s' : State) :
    eventOf w s m = eventOf w s' m := by
  cases m with
  | acquire => exact absurd rfl ha
  | readPinLevel p => exact absurd rfl (hr p)
  | _ => rfl

/-- The events of WRITEB's step list (rule R100). -/
theorem map_eventOf_writebSteps (w : World) (b : Board) (a : HostAddr) (v : Byte) (s : State) :
    (writebSteps b a v).map (eventOf w s) = writebPrepare b a v ++ writebStrobe b := by
  simp [writebSteps, encAddr, writebPrepare, writebStrobe, eventOf]

/-- WRITEB appends the same 16 events from every state in which it completes. -/
theorem exec_writeb_trace {a : HostAddr} {v : Byte} {s t : State} (h : exec (.writeb a v) s = .next t) :
    t.trace = s.trace ++ (writebPrepare Config.board a v ++ writebStrobe Config.board) := by
  obtain ⟨-, -, ⟨u, hu, rfl⟩ | ⟨hi, -⟩⟩ := exec_eq_next h
  · have noOpen : .acquire ∉ writebSteps Config.board a v := by simp [writebSteps, encAddr]
    have noSample : ∀ p, .readPinLevel p ∉ writebSteps Config.board a v := by simp [writebSteps, encAddr]
    have fixed : ∀ m ∈ writebSteps Config.board a v, ∀ x, eventOf Config.world x m = eventOf Config.world s m :=
      fun m hm x => eventOf_congr (fun e => noOpen (e ▸ hm)) (fun p e => noSample p (e ▸ hm)) x s
    rw [complete_trace, performAll_trace fixed hu, map_eventOf_writebSteps, accept_trace]
  · cases hi

/-- The events before the strobe are bulk levels and directions. -/
theorem writebPrepare_no_pin_level (b : Board) (a : HostAddr) (v : Byte) (p : Pin) :
    Event.pinLow p ∉ writebPrepare b a v ∧ Event.pinHigh p ∉ writebPrepare b a v := by
  simp [writebPrepare]

/-- Settles O28: the strobe is the end of WRITEB's event list, and the control lines are the latches of its position. -/
theorem writePulseNested : Obligations.WritePulseNested := by
  unfold Obligations.WritePulseNested
  refine ⟨fun a v s t h => ⟨writebPrepare Config.board a v, exec_writeb_trace h, writebPrepare_no_pin_level _ a v⟩,
    fun a v k s h ha hs => ?_⟩
  obtain ⟨⟨⟨dce, doe, dwe⟩, -⟩, ⟨lce, loe, lwe⟩, -⟩ := writePins_of_runPoint h ha hs
  refine ⟨?_, ?_, drive_eq_level.2 ⟨doe, loe⟩⟩
  · rw [drive_eq_level, dwe, lwe]
    simp
  · rw [drive_eq_level, dce, lce]
    simp

end Sys2Proof.Machine
end

section
/-! PROOFS. The Byte Reader (44_byte_reader.md): the state a READB leaves, its events, and the read window. -/

namespace Sys2Proof.Machine

/-! ### The state a READB leaves -/

/-- The latch file after one READB. -/
def readbLatches (b : Board) (a : HostAddr) (f : Vector (Option Bool) 32) : Vector (Option Bool) 32 :=
  ((((writeLatches (writeLatches f (addrSet b a) true) (addrClr b a) false).set b.ce.val (some false)).set b.oe.val
    (some false)).set b.oe.val (some true)).set b.ce.val (some true)

/-- The post-state of rule R110 over the state READB was issued in, for the levels it sampled. -/
def byteRead (b : Board) (a : HostAddr) (levels : List Bool) (s : State) : State :=
  { s with
    dir := setDirs s.dir b.data.toList .input
    lat := readbLatches b a s.lat
    trace := s.trace ++ (readbPrepare b a ++ readbWindowEvents b levels)
    samples := []
    answers := s.answers ++ [.byte (byteOfSamples levels)] }

theorem readbIn_eq_byteRead {w : World} (hb : w.board.Wf) {a : HostAddr} {s : State} (h : SessionReady w.board s) :
    readbIn w a s = .next (byteRead w.board a (readbLevels w a s) s) :=
  readbIn_eq hb h

theorem length_readbLevels (w : World) (a : HostAddr) (s : State) : (readbLevels w a s).length = 8 := by
  simp [readbLevels]

/-- The window ends with CE and OE high and writes no other latch. -/
theorem get_readbLatches (b : Board) (a : HostAddr) (f : Vector (Option Bool) 32) (p : Pin) :
    (readbLatches b a f).get p = if p ∈ [b.ce, b.oe] then some true else
      (writeLatches (writeLatches f (addrSet b a) true) (addrClr b a) false).get p := by
  simp only [readbLatches, get_set]
  by_cases hce : p = b.ce
  · simp [hce]
  · by_cases hoe : p = b.oe <;> simp [hce, hoe]

section
variable (b : Board) (a : HostAddr) (levels : List Bool) (s : State)

theorem dirOf_byteRead (p : Pin) :
    (byteRead b a levels s).dirOf p = if p ∈ b.data.toList then some .input else s.dirOf p :=
  get_setDirs s.dir b.data.toList .input p

/-- Only CE, OE and the address pins are written; the data latches keep the last byte written (10_state.md rule R12). -/
theorem latOf_byteRead_of_not_mem {p : Pin} (hp : p ∉ [b.ce, b.oe] ++ b.addr.toList) :
    (byteRead b a levels s).latOf p = s.latOf p := by
  obtain ⟨notControl, notAddr⟩ := not_or.1 (mt List.mem_append.2 hp)
  calc (readbLatches b a s.lat).get p
      = _ := (get_readbLatches b a s.lat p).trans (if_neg notControl)
    _ = s.lat.get p := get_writeGroups_of_not_mem b.addr (effective a) s.lat p
        fun i e => notAddr (e ▸ Vector.get_mem_toList b.addr i)

variable {b} (hb : b.Wf)
include hb

theorem addressHolds_byteRead : AddressHolds b (byteRead b a levels s) (effective a) := fun i =>
  calc (readbLatches b a s.lat).get (b.addr.get i)
      = _ := (get_readbLatches b a s.lat _).trans (if_neg (by simp [hb.addr_ne_ce, hb.addr_ne_oe]))
    _ = some ((effective a).getLsbD i.val) := get_writeGroups b.addr hb.addr_nodup (effective a) s.lat i

variable {s}

/-- The window ends with OE and CE high, and WE is untouched. -/
theorem controlLatches_byteRead (h : s.latOf b.we = some true) :
    ControlLatches b (byteRead b a levels s) true true true := by
  have notAddr : b.we ∉ b.addr.toList := fun m => by
    obtain ⟨i, e⟩ := Vector.exists_get_of_mem m
    exact hb.addr_ne_we i e
  have untouched : b.we ∉ [b.ce, b.oe] ++ b.addr.toList := by
    simp [notAddr, hb.ce_ne_we.symm, hb.oe_ne_we.symm]
  exact ⟨(get_readbLatches b a s.lat _).trans (if_pos (by simp)),
    (get_readbLatches b a s.lat _).trans (if_pos (by simp)),
    (latOf_byteRead_of_not_mem b a levels s untouched).trans h⟩

end

/-- Settles O21: the equation of READB, with its sampled levels and the pins of the state it leaves read off one group at
a time. -/
theorem readbCompletes : Obligations.ReadbCompletes := by
  unfold Obligations.ReadbCompletes
  have hb := Config.board_wf
  refine ⟨fun w h => decode_of_op_two h, fun a => rfl, fun a s h => exec_refused_of_not_admitted h, fun a s h => ?_⟩
  obtain ⟨hs, -, pins⟩ := id h
  obtain ⟨-, ⟨-, -, hwe⟩, -⟩ := id pins
  obtain ⟨-, assembled, -⟩ := dataGroups
  have eight := length_readbLevels Config.world a s
  exact ⟨byteRead Config.board a (readbLevels Config.world a s) s, readbLevels Config.world a s,
    readbIn_eq_byteRead (w := Config.world) hb h, eight,
    fun hecho v hv => readbLevels_of_echo (w := Config.world) hb pins hecho hv, rfl, rfl, assembled _ eight,
    addressHolds_byteRead a _ s hb, controlLatches_byteRead a _ hb hwe,
    fun p => latOf_byteRead_of_not_mem Config.board a _ s, dirOf_byteRead Config.board a _ s, fun x => rfl, hs, rfl, rfl⟩

/-! ### The events of a READB, from every state -/

/-- A list of primitives that neither opens nor samples appends the same events from every state. -/
theorem performAll_trace_of_fixed {w : World} {l : List Prim} {s t : State} (ha : .acquire ∉ l)
    (hr : ∀ p, .readPinLevel p ∉ l) (h : performAll w l s = .next t) (u : State) :
    t.trace = s.trace ++ l.map (eventOf w u) :=
  performAll_trace (fun _ hm x => eventOf_congr (fun e => ha (e ▸ hm)) (fun p e => hr p (e ▸ hm)) x u) h

/-- Samples of a list of pins append one sample event for each, in the order of the list. -/
theorem performAll_readPinLevel_trace {w : World} {ps : List Pin} {s t : State}
    (h : performAll w (ps.map .readPinLevel) s = .next t) :
    ∃ levels, levels.length = ps.length ∧ t.trace = s.trace ++ List.zipWith .sample ps levels := by
  induction ps generalizing s with
  | nil =>
    cases h
    exact ⟨[], rfl, by simp⟩
  | cons p ps ih =>
    obtain ⟨u, hu, h⟩ := andThen_eq_next.1 h
    obtain ⟨-, -, -, rfl⟩ := perform_eq_next.1 hu
    obtain ⟨levels, hlen, htrace⟩ := ih h
    refine ⟨sense w s p :: levels, congrArg (· + 1) hlen, ?_⟩
    rw [htrace, advance_trace, effect_trace, eventOf, List.zipWith_cons_cons, List.append_assoc, List.singleton_append]

/-- READB's step list is its preparation, two control lows, eight samples and two control highs, whose events are those of
rule R110. -/
theorem performAll_readbSteps_trace {w : World} {a : HostAddr} {s t : State}
    (h : performAll w (readbSteps w.board a) s = .next t) :
    ∃ levels : List Bool, levels.length = 8 ∧
      t.trace = s.trace ++ (readbPrepare w.board a ++ readbWindowEvents w.board levels) := by
  rw [readbSteps, performAll_append, performAll_append] at h
  obtain ⟨v, h, high⟩ := andThen_eq_next.1 h
  obtain ⟨u, low, reads⟩ := andThen_eq_next.1 h
  obtain ⟨levels, hlen, sampled⟩ := performAll_readPinLevel_trace reads
  have before := performAll_trace_of_fixed (by simp [encAddr]) (by simp [encAddr]) low s
  have after := performAll_trace_of_fixed (by simp) (by simp) high s
  refine ⟨levels, hlen.trans (Vector.length_toList ..), ?_⟩
  rw [after, sampled, before]
  simp [encAddr, eventOf, readbPrepare, readbWindowEvents]

/-- READB appends its 22 events from every state in which it completes. -/
theorem exec_readb_trace {a : HostAddr} {s t : State} (h : exec (.readb a) s = .next t) :
    ∃ levels : List Bool, levels.length = 8 ∧
      t.trace = s.trace ++ (readbPrepare Config.board a ++ readbWindowEvents Config.board levels) := by
  obtain ⟨-, -, ⟨u, hu, rfl⟩ | ⟨hi, -⟩⟩ := exec_eq_next h
  · obtain ⟨levels, eight, trace⟩ := performAll_readbSteps_trace (w := Config.world) hu
    exact ⟨levels, eight, by rw [complete_trace, trace, accept_trace, Config.world_board]⟩
  · cases hi

/-- The events before the window are bulk levels and directions. -/
theorem readbPrepare_no_pin_event (b : Board) (a : HostAddr) (p : Pin) :
    Event.pinLow p ∉ readbPrepare b a ∧ Event.pinHigh p ∉ readbPrepare b a ∧ ∀ x, Event.sample p x ∉ readbPrepare b a := by
  simp [readbPrepare]

/-! ### The read window -/

/-- The points of a run inside a READB have the pins of their position. -/
theorem readPins_of_runPoint {b : Board} {a : HostAddr} {k : Nat} {s : State} (h : RunPoint b s)
    (ha : s.acq = .acquired) (hs : s.seq = .busy (.readb a) k) : ReadPins b a k s := by
  obtain ⟨-, -, pins⟩ := (runPoint_acquired_busy ha hs).1 h
  exact pins

/-- Settles O29: the window is the end of READB's event list, and the control lines are the latches of its position. -/
theorem readWindowNested : Obligations.ReadWindowNested := by
  unfold Obligations.ReadWindowNested
  refine ⟨fun a s t h => ?_, fun a k s h ha hs => ?_⟩
  · obtain ⟨levels, eight, trace⟩ := exec_readb_trace h
    exact ⟨readbPrepare Config.board a, levels, eight, trace, readbPrepare_no_pin_event _ a⟩
  · obtain ⟨⟨⟨dce, doe, dwe⟩, -⟩, ⟨lce, loe, lwe⟩, -⟩ := readPins_of_runPoint h ha hs
    refine ⟨?_, ?_, drive_eq_level.2 ⟨dwe, lwe⟩⟩
    · rw [drive_eq_level, doe, loe]
      simp
    · rw [drive_eq_level, dce, lce]
      simp

end Sys2Proof.Machine
end

section
/-! PROOFS. Admission, the two changes of ownership, and what a machine step runs (60_exceptions.md). -/

namespace Sys2Proof.Machine

/-! ### A failed INIT -/

/-- Settles O16: the equation of an INIT whose `open()` fails names every field it changes. -/
theorem initErrorChangesNothing : Obligations.InitErrorChangesNothing := by
  unfold Obligations.InitErrorChangesNothing
  exact ⟨exec_init, fun w s hs ha hp ho =>
    ⟨_, initIn_failed hs ha hp ho, rfl, rfl, hs, ha, rfl, rfl, rfl, rfl⟩⟩

/-! ### The step and the command word -/

/-- A number that decodes is a command word, and `withFetchWord` makes that word the host's next command. -/
theorem withFetchWord_of_decodes {n w : Nat} {i : Instr} (h : decodeTableWord n w = some i) (s : State) :
    ∃ v, decode v = i ∧ s.withFetchWord n w = { s with seq := .idle, pending := v :: s.pending.drop 1 } := by
  unfold decodeTableWord at h
  unfold State.withFetchWord
  cases e : tableWord n w with
  | error r => simp [e] at h
  | ok v => exact ⟨v, by simpa [e] using h, rfl⟩

/-- Settles O36: the three cases of the step, the first of them also on a word placed by `withFetchWord`. -/
theorem stepRunsTheDecodedCommand : Obligations.StepRunsTheDecodedCommand := by
  unfold Obligations.StepRunsTheDecodedCommand
  refine ⟨fun s w rest => step_command, fun s => step_waiting, fun s c k => step_busy, fun s n w i hs h => ?_⟩
  obtain ⟨v, rfl, e⟩ := withFetchWord_of_decodes h s
  rw [e, step_command rfl rfl, ← hs]

/-! ### The admission table -/

/-- The refusal of a command in the ownership state it does not need (60_exceptions.md rule R126). -/
def sessionRefusal : Instr → Refusal
  | .init => .sessionAlreadyOpen
  | _     => .sessionNotOpen

/-- Every command begins with its row of the admission table. -/
theorem exec_begins_with_admission (i : Instr) (s : State) :
    ∃ f, exec i s = andThen (admission (needs i) (sessionRefusal i) i s) f := by
  cases i with
  | init => exact ⟨_, rfl⟩
  | shutdown => exact ⟨_, rfl⟩
  | readb a => exact ⟨_, rfl⟩
  | writeb a v => exact ⟨_, rfl⟩

/-- A command that admission refuses is refused by the same name. -/
theorem exec_of_admission_refused {i : Instr} {s : State} {r : Refusal}
    (h : admission (needs i) (sessionRefusal i) i s = .refused r) : exec i s = .refused r := by
  obtain ⟨f, hf⟩ := exec_begins_with_admission i s
  rw [hf, h, andThen_refused]

theorem exec_of_busy {i : Instr} {s : State} (h : s.seq ≠ .idle) : exec i s = .refused .commandInProgress := by
  refine exec_of_admission_refused ?_
  unfold admission
  cases e : s.seq with
  | idle => exact absurd e h
  | busy c k => rfl

theorem exec_of_wrong_owner {i : Instr} {s : State} (hs : s.seq = .idle) (ha : s.acq ≠ needs i) :
    exec i s = .refused (sessionRefusal i) := by
  refine exec_of_admission_refused ?_
  unfold admission
  rw [hs]
  exact if_neg ha

/-- At an Idle point of a run every admitted command completes. -/
theorem exec_completes_at_runPoint {i : Instr} {s : State} (h : RunPoint Config.board s) (hs : s.seq = .idle)
    (ha : s.acq = needs i) : ∃ t, exec i s = .next t := by
  have hb : Config.world.board.Wf := Config.board_wf
  cases i with
  | init =>
    have unset := (runPoint_released_idle ha hs).1 h
    cases ho : Config.world.openOk s.trace.length with
    | true => exact ⟨_, initIn_ok hb hs ha unset ho⟩
    | false => exact ⟨_, initIn_failed hs ha unset ho⟩
  | shutdown => exact ⟨_, shutdownIn_eq hs ha⟩
  | readb a => exact ⟨_, readbIn_eq hb (sessionReady_of_runPoint h hs ha)⟩
  | writeb a v => exact ⟨_, writebIn_eq hb (sessionReady_of_runPoint h hs ha)⟩

/-! ### The two changes of ownership -/

/-- The event with which the peripheral comes into an ownership state (rule R126). -/
def ownershipEvent : Ownership → Event
  | .acquired => .opened true
  | .released => .closed

/-- A primitive that changes the ownership appends the event of the new one: it is a successful `open()`, or `close()`. -/
theorem eventOf_of_acq_changed {w : World} {m : Prim} {s : State} (h : (effect w m s).acq ≠ s.acq) :
    eventOf w s m = ownershipEvent (effect w m s).acq := by
  rw [effect_acq] at h ⊢
  cases m with
  | acquire =>
    cases ho : w.openOk s.trace.length with
    | true => simp [eventOf, writeOf, ownershipEvent, ho]
    | false => exact absurd (by simp [writeOf, ho]) h
  | close => rfl
  | _ => exact absurd rfl h

/-- Between `s₀` and `s` the trace has only grown, and by the event of the ownership in `s` if that is a new one. -/
def OwnershipAnnounced (s₀ s : State) : Prop :=
  ∃ ev, s.trace = s₀.trace ++ ev ∧ (s.acq ≠ s₀.acq → ownershipEvent s.acq ∈ ev)

theorem OwnershipAnnounced.refl (s : State) : OwnershipAnnounced s s :=
  ⟨[], (List.append_nil _).symm, fun h => absurd rfl h⟩

theorem OwnershipAnnounced.effect {w : World} {m : Prim} {s₀ s : State} (h : OwnershipAnnounced s₀ s) :
    OwnershipAnnounced s₀ (effect w m s) := by
  obtain ⟨ev, grown, announced⟩ := h
  refine ⟨ev ++ [eventOf w s m], by rw [effect_trace, grown, List.append_assoc], fun hnew => List.mem_append.2 ?_⟩
  by_cases hm : (Machine.effect w m s).acq = s.acq
  · rw [hm] at hnew ⊢
    exact .inl (announced hnew)
  · exact .inr (List.mem_singleton.2 (eventOf_of_acq_changed hm).symm)

/-- Every step changes the ownership only with the event of the new one among those it appends. -/
theorem step_ownershipAnnounced {s₀ t : State} (h : step s₀ = .next t) : OwnershipAnnounced s₀ t := by
  refine KeptBySequencer.step (P := OwnershipAnnounced s₀) (fun c k s t hs hP ht => ?_) (fun i s rest _ _ hP => hP)
    (.refl s₀) h
  obtain ⟨m, -, -, rfl⟩ := step_busy_eq_next hs ht
  have hu := hP.effect (w := Config.world) (m := m)
  rcases afterStep_cases (commandSteps Config.board c).length c k (effect Config.world m s) with e | ⟨a, e⟩ <;>
    simpa [OwnershipAnnounced, e] using hu

theorem ownershipEvent_mem_of_step {s t : State} (h : step s = .next t) (hne : t.acq ≠ s.acq) :
    ownershipEvent t.acq ∈ t.trace.drop s.trace.length := by
  obtain ⟨ev, grown, announced⟩ := step_ownershipAnnounced h
  rw [grown, List.drop_left]
  exact announced hne

/-- No pin has a value at a Released point of a run (10_state.md rule R27). -/
theorem RunPoint.releasedPinsUnset {b : Board} {s : State} (h : RunPoint b s) : ReleasedPinsUnset s := by
  intro ha
  cases hs : s.seq with
  | idle => exact (runPoint_released_idle ha hs).1 h
  | busy c k =>
    obtain ⟨-, -, unset⟩ := (runPoint_released_busy ha hs).1 h
    exact unset

/-- Settles O31: the refusals are admission's, completion is the equation of each command, and a step's events tell of
every change of ownership. -/
theorem admissionTable : Obligations.AdmissionTable := by
  unfold Obligations.AdmissionTable
  refine ⟨fun i s => exec_of_busy, fun i s hs ha hi => ?_, fun s hs ha => exec_of_wrong_owner hs (by simp [ha, needs]),
    fun i s => exec_completes_at_runPoint, fun s t h => ⟨fun hs ht => ?_, fun hs ht => ?_, fun hr => ?_⟩⟩
  · cases i with
    | init => exact absurd rfl hi
    | _ => exact exec_of_wrong_owner hs (by simp [ha, needs])
  · simpa [ht, ownershipEvent] using ownershipEvent_mem_of_step h (by simp [hs, ht])
  · simpa [ht, ownershipEvent] using ownershipEvent_mem_of_step h (by simp [hs, ht])
  · exact stepKeepsReleasedPinsUnset s t hr.releasedPinsUnset h

end Sys2Proof.Machine
end

section
/-! PROOFS. The check of a written PinAssignment (70_reset_and_hazards.md rule R153). -/

namespace Sys2Proof

/-- A list of ids below MASK_W is the written form of a pin sequence. -/
theorem exists_pins_of_ids {n : Nat} {l : List Nat} (hn : l.length = n) (hl : ∀ x ∈ l, x < 32) :
    ∃ v : Vector Pin n, v.toList.map Fin.val = l :=
  ⟨⟨(l.pmap Fin.mk hl).toArray, by simpa using hn⟩, by simp [List.map_pmap]⟩

/-- The ids of a board's written form are the ids of its pins. -/
theorem Board.ids_written (b : Board) : b.written.ids = b.pins.map Fin.val := by
  simp [PinAssignment.ids, Board.written, Board.pins]

theorem PinAssignment.wellFormed_iff {p : PinAssignment} :
    p.WellFormed = true ↔ (p.data.length = 8 ∧ p.addr.length = 17) ∧ (∀ x ∈ p.ids, x < 32) ∧ p.ids.Nodup := by
  simp [PinAssignment.WellFormed, PinAssignment.lengthsOk, PinAssignment.belowMaskW, PinAssignment.distinct, and_assoc]

/-- The written form of a well-formed board has its lengths and bound by type, and its distinct ids by proof. -/
theorem Board.Wf.written_wellFormed {b : Board} (hb : b.Wf) : b.written.WellFormed = true := by
  refine PinAssignment.wellFormed_iff.2 ⟨by simp [Board.written], fun x hx => ?_, ?_⟩
  · rw [Board.ids_written] at hx
    obtain ⟨p, -, rfl⟩ := List.mem_map.1 hx
    exact p.isLt
  · rw [Board.ids_written]
    exact hb.map Fin.val_injective

/-- A written PinAssignment of the right lengths whose ids are all below MASK_W is the written form of some board. -/
theorem exists_board_written {p : PinAssignment} (hd : p.data.length = 8) (ha : p.addr.length = 17)
    (h : ∀ x ∈ p.ids, x < 32) : ∃ b : Board, b.written = p := by
  obtain ⟨data, hdata⟩ := exists_pins_of_ids hd fun x hx => h x (by simp [PinAssignment.ids, hx])
  obtain ⟨addr, haddr⟩ := exists_pins_of_ids ha fun x hx => h x (by simp [PinAssignment.ids, hx])
  refine ⟨⟨⟨p.ce, h _ ?_⟩, ⟨p.oe, h _ ?_⟩, ⟨p.we, h _ ?_⟩, data, addr⟩, ?_⟩
  · simp [PinAssignment.ids]
  · simp [PinAssignment.ids]
  · simp [PinAssignment.ids]
  · simp [Board.written, hdata, haddr]

/-- Settles O7: the lengths and the bound make the written form of a board, and its pins are as distinct as their ids. -/
theorem pinAssignmentCheck : Obligations.PinAssignmentCheck := by
  unfold Obligations.PinAssignmentCheck
  intro p
  constructor
  · intro h
    obtain ⟨⟨hd, ha⟩, below, distinct⟩ := PinAssignment.wellFormed_iff.1 h
    obtain ⟨b, rfl⟩ := exists_board_written hd ha below
    exact ⟨b, List.Nodup.of_map _ (b.ids_written ▸ distinct), rfl⟩
  · rintro ⟨b, hb, rfl⟩
    exact hb.written_wellFormed

end Sys2Proof
end

section
/-! PROOFS. Reset, and how many events a completed command has appended (70_reset_and_hazards.md rules R140, R160 and
R161). -/

namespace Sys2Proof.Machine

/-- An INIT that completes ended with its failed `open()`, or ran the rest of its step list. -/
theorem initIn_eq_next {w : World} {s t : State} (h : initIn w s = .next t) :
    s.seq = .idle ∧ s.acq = .released ∧
    ((w.openOk s.trace.length = false ∧ t = raiseInitError (advance (effect w .acquire (accept .init s)))) ∨
      (w.openOk s.trace.length = true ∧ ∃ u,
        performAll w (initConfigure w.board) (advance (effect w .acquire (accept .init s))) = .next u ∧
        t = complete .ok u)) := by
  obtain ⟨s0, hs0, h⟩ := andThen_eq_next.1 h
  obtain ⟨hs, ha, rfl⟩ := admission_eq_next.1 hs0
  obtain ⟨s1, hs1, h⟩ := andThen_eq_next.1 h
  obtain ⟨-, -, -, rfl⟩ := perform_eq_next.1 hs1
  have failed : (effect w .acquire (accept .init s)).acq = .released ↔ w.openOk s.trace.length = false :=
    effect_acquire_released (s := accept .init s) ha
  refine ⟨hs, ha, ?_⟩
  split at h
  · rename_i hr
    cases h
    exact .inl ⟨failed.1 hr, rfl⟩
  · rename_i hr
    obtain ⟨u, hu, h⟩ := andThen_eq_next.1 h
    cases h
    exact .inr ⟨Bool.eq_true_of_not_eq_false (mt failed.2 hr), u, hu, rfl⟩

/-- Settles O37: SHUTDOWN by its equation, a failed INIT by the one step it took, which writes no pin. -/
theorem resetState : Obligations.ResetState := by
  unfold Obligations.ResetState
  refine ⟨⟨rfl, rfl, rfl, fun p => ⟨dirOf_reset p, latOf_reset p⟩⟩, fun s t h => ?_, fun w s t ho h => ?_⟩
  · obtain ⟨hs, ha⟩ := exec_admitted h
    cases (shutdownIn_eq (w := Config.world) hs ha).symm.trans h
    exact ⟨rfl, fun p => ⟨dirOf_clearPins s p, latOf_clearPins s p⟩⟩
  · obtain ⟨-, ha, ⟨-, rfl⟩ | ⟨hok, -⟩⟩ := initIn_eq_next h
    · have released := (effect_acquire_released (w := w) (s := accept .init s) ha).2 ho
      refine ⟨?_, ?_, ?_⟩
      · simp [raiseInitError, released, ha]
      · simp [raiseInitError, effect_dir, writeOf]
      · simp [raiseInitError, effect_lat, writeOf]
    · exact absurd (ho.symm.trans hok) Bool.false_ne_true

/-- Settles O33: each primitive appends one event, and only a failed `open()` leaves a part of a step list undone. -/
theorem fixedStepCounts : Obligations.FixedStepCounts := by
  unfold Obligations.FixedStepCounts
  intro i s t h
  by_cases hi : i = .init
  · subst hi
    obtain ⟨-, -, ⟨ho, rfl⟩ | ⟨ho, u, hu, rfl⟩⟩ := initIn_eq_next h
    · exact ⟨[.opened false], by simp [raiseInitError, effect_trace, eventOf, ho], by simp [stepCount, ho]⟩
    · obtain ⟨-, -, -, ev, hlen, htrace⟩ := performAll_keeps hu
      exact ⟨.opened true :: ev, by simp [htrace, effect_trace, eventOf, ho],
        by simp [stepCount, ho, hlen, length_initConfigure]⟩
  · obtain ⟨hs, ha⟩ := exec_admitted h
    rw [exec_of_admitted hi hs ha] at h
    obtain ⟨u, hu, h⟩ := andThen_eq_next.1 h
    cases h
    obtain ⟨-, -, -, ev, hlen, htrace⟩ := performAll_keeps hu
    exact ⟨ev, htrace, by rw [hlen, stepCount_of_ne_init _ Config.board s hi]⟩

end Sys2Proof.Machine
end

section
/-! PROOFS. Hazards at the points of a run inside a session (70_reset_and_hazards.md rules R147, R148 and R152): how the
control lines stand, that no step is refused, and what moves while CE is low. -/

namespace Sys2Proof.Machine

/-! ### The control lines inside a session -/

/-- The control lines are driven at the levels `ce`, `oe` and `we`: WE and OE are low only inside CE, not both of them,
and OE only over data pins that are Inputs. -/
def ControlsDriven (b : Board) (s : State) (ce oe we : Bool) : Prop :=
  ControlsOutput b s ∧ ControlLatches b s ce oe we ∧ (we = false → ce = false ∧ oe = true) ∧
  (oe = false → ce = false ∧ DataDirection b s (some .input))

/-- Inside INIT no data pin has a direction and no control line is low; at every other point of a session the control
lines are driven, at some levels. -/
def ControlsSafe (b : Board) (s : State) : Prop :=
  (DataDirection b s none ∧ ∀ c ∈ [b.ce, b.oe, b.we], OutputOnlyHigh s c) ∨ ∃ ce oe we, ControlsDriven b s ce oe we

theorem SessionPins.controlsDriven {b : Board} {s : State} (h : SessionPins b s) :
    ControlsDriven b s true true true := by
  obtain ⟨out, high, -⟩ := h
  exact ⟨out, high, by simp, by simp⟩

theorem ReadPins.controlsDriven {b : Board} {a : HostAddr} {k : Nat} {s : State} (h : ReadPins b a k s) :
    ControlsDriven b s (!(decide (11 ≤ k) && decide (k ≤ 21))) (!(decide (12 ≤ k) && decide (k ≤ 20))) true := by
  obtain ⟨⟨out, -, turned⟩, levels, -⟩ := h
  refine ⟨out, levels, by simp, fun hoe => ?_⟩
  have hk : 12 ≤ k ∧ k ≤ 20 := by simpa using hoe
  exact ⟨by simp; omega, turned.all (by omega)⟩

theorem WritePins.controlsDriven {b : Board} {a : HostAddr} {v : Byte} {k : Nat} {s : State} (h : WritePins b a v k s) :
    ControlsDriven b s (!(decide (13 ≤ k) && decide (k ≤ 15))) true (!decide (k = 14)) := by
  obtain ⟨⟨out, -, -⟩, levels, -⟩ := h
  refine ⟨out, levels, fun hwe => ?_, by simp⟩
  obtain rfl : k = 14 := by simpa using hwe
  exact ⟨rfl, rfl⟩

theorem CommandPins.controlsSafe {b : Board} {c : Instr} {k : Nat} {s : State} (h : CommandPins b c k s) :
    ControlsSafe b s := by
  cases c with
  | init =>
    obtain ⟨-, -, data⟩ := id h
    exact .inl ⟨data, fun c hc => InitPins.outputOnlyHigh h hc⟩
  | shutdown => exact .inr ⟨_, _, _, h.1.controlsDriven⟩
  | readb a => exact .inr ⟨_, _, _, ReadPins.controlsDriven h⟩
  | writeb a v => exact .inr ⟨_, _, _, WritePins.controlsDriven h⟩

theorem RunPoint.controlsSafe {b : Board} {s : State} (h : RunPoint b s) (ha : s.acq = .acquired) :
    ControlsSafe b s := by
  cases hs : s.seq with
  | idle =>
    obtain ⟨pins, -⟩ := (runPoint_acquired_idle ha hs).1 h
    exact .inr ⟨_, _, _, pins.controlsDriven⟩
  | busy c k =>
    obtain ⟨-, -, pins⟩ := (runPoint_acquired_busy ha hs).1 h
    exact pins.controlsSafe

section
variable {b : Board} {s : State}

/-- A driven control line has its level and no other. -/
theorem ControlsDriven.drive_iff {ce oe we : Bool} (h : ControlsDriven b s ce oe we) (x : Bool) :
    (drive s b.ce = .level x ↔ ce = x) ∧ (drive s b.oe = .level x ↔ oe = x) ∧ (drive s b.we = .level x ↔ we = x) := by
  obtain ⟨⟨dce, doe, dwe⟩, ⟨lce, loe, lwe⟩, -⟩ := h
  simp [drive_eq_level, dce, doe, dwe, lce, loe, lwe]

theorem ControlsSafe.strobesNested (h : ControlsSafe b s) : StrobesNested b s := by
  rcases h with ⟨-, high⟩ | ⟨ce, oe, we, driven⟩
  · have hoe := (high b.oe (by simp)).not_low
    have hwe := (high b.we (by simp)).not_low
    exact ⟨fun e => absurd e hwe, fun e => absurd e hoe, fun e => hwe e.1⟩
  · obtain ⟨lce, loe, lwe⟩ := driven.drive_iff false
    obtain ⟨-, -, inWe, inOe⟩ := driven
    rw [StrobesNested, lce, loe, lwe]
    refine ⟨fun e => (inWe e).1, fun e => (inOe e).1, fun ⟨hwe, hoe⟩ => ?_⟩
    exact absurd (hoe.symm.trans (inWe hwe).2) Bool.false_ne_true

theorem ControlsSafe.noContention (h : ControlsSafe b s) : NoContention b s := by
  intro low
  rcases h with ⟨-, high⟩ | ⟨ce, oe, we, driven⟩
  · exact absurd low (high b.oe (by simp)).not_low
  · obtain ⟨-, loe, -⟩ := driven.drive_iff false
    obtain ⟨-, -, -, inOe⟩ := driven
    exact (inOe (loe.1 low)).2

/-- A data pin is an Output only while OE is driven high. -/
theorem ControlsSafe.oe_high_of_output (h : ControlsSafe b s) {i : Fin 8} (hi : s.dirOf (b.data.get i) = some .output) :
    drive s b.oe = .level true := by
  rcases h with ⟨data, -⟩ | ⟨ce, oe, we, driven⟩
  · exact absurd ((data i).symm.trans hi) (by simp)
  · refine (driven.drive_iff true).2.1.2 (Bool.eq_true_of_not_eq_false fun hoe => ?_)
    obtain ⟨-, -, -, inOe⟩ := driven
    exact absurd (((inOe hoe).2 i).symm.trans hi) (by simp)

theorem ControlsSafe.not_contended (h : ControlsSafe b s) : contended b s = false := by
  by_cases hi : ∃ i : Fin 8, s.dirOf (b.data.get i) = some .output
  · obtain ⟨i, hi⟩ := hi
    exact contended_of_chipOff (.inr (h.oe_high_of_output hi))
  · rw [contended, Bool.and_eq_false_iff]
    refine .inl (List.any_eq_false.2 fun p hp e => hi ?_)
    obtain ⟨i, rfl⟩ := Vector.exists_get_of_mem hp
    exact ⟨i, by simpa using e⟩

end

/-! ### No step of a run is refused -/

/-- READB samples a data pin only after all of them have turned to Input (44_byte_reader.md rule R110). -/
theorem CommandPins.reads_inputs {b : Board} {c : Instr} {k : Nat} {m : Prim} {s : State}
    (hm : (commandSteps b c)[k]? = some m) (h : CommandPins b c k s) : m.readsNonInput s = false := by
  cases m with
  | readPinLevel p =>
    cases c with
    | init => simpa [commandSteps, initSteps, initConfigure] using List.mem_of_getElem? hm
    | shutdown => simpa [commandSteps, shutdownSteps] using List.mem_of_getElem? hm
    | writeb a v => simpa [commandSteps, writebSteps, encAddr] using List.mem_of_getElem? hm
    | readb a =>
      obtain ⟨⟨-, -, turned⟩, -⟩ := h
      obtain ⟨i, hk, rfl⟩ : ∃ i : Fin 8, k = 12 + i.val ∧ p = b.data.get i := by
        simpa using readbSteps_at hm
      simp [Prim.readsNonInput, turned.all (by omega) i]
  | _ => rfl

/-- At every point of a run inside a command the primitive at its position is performed. -/
theorem perform_at_runPoint {w : World} (hb : w.board.Wf) {c : Instr} {k : Nat} {m : Prim} {s : State}
    (h : RunPoint w.board s) (hs : s.seq = .busy c k) (hm : (commandSteps w.board c)[k]? = some m) :
    perform w m s = .next (effect w m s) := by
  cases ha : s.acq with
  | released =>
    obtain ⟨rfl, rfl, unset⟩ := (runPoint_released_busy ha hs).1 h
    obtain rfl : m = .acquire := (Option.some.inj hm).symm
    exact perform_eq_next.2 ⟨nofun, rfl, contended_of_pinsUnset unset (effect_dir w .acquire s), rfl⟩
  | acquired =>
    obtain ⟨h1, -, pins⟩ := (runPoint_acquired_busy ha hs).1 h
    refine perform_eq_next.2 ⟨fun _ => ha, pins.reads_inputs hm, ?_, rfl⟩
    by_cases hc : c = .shutdown
    · subst hc
      obtain rfl : m = .close := List.mem_singleton.1 (List.mem_of_getElem? hm)
      exact contended_of_pinsUnset (effect_close_pinsUnset w s) rfl
    · exact (pins.step hb w hc h1 hm).controlsSafe.not_contended

/-- The position of a point of a run is one of its command's. -/
theorem runPoint_position {b : Board} {c : Instr} {k : Nat} {s : State} (h : RunPoint b s) (hs : s.seq = .busy c k) :
    ∃ m, (commandSteps b c)[k]? = some m := by
  suffices hk : k < (commandSteps b c).length from ⟨_, List.getElem?_eq_getElem hk⟩
  cases ha : s.acq with
  | released =>
    obtain ⟨rfl, rfl, -⟩ := (runPoint_released_busy ha hs).1 h
    simp [commandSteps, length_initSteps]
  | acquired => exact ((runPoint_acquired_busy ha hs).1 h).2.1

/-- At every point of a run inside a command the next step is the effect of its primitive and what follows that. -/
theorem step_at_runPoint {c : Instr} {k : Nat} {s : State} (h : RunPoint Config.board s) (hs : s.seq = .busy c k) :
    ∃ m, (commandSteps Config.board c)[k]? = some m ∧
      step s = .next (afterStep (commandSteps Config.board c).length c k (effect Config.world m s)) := by
  obtain ⟨m, hm⟩ := runPoint_position h hs
  refine ⟨m, hm, (step_busy hs).trans (sequencerStep_eq_next.2 ⟨m, _, hm, ?_, rfl⟩)⟩
  exact perform_at_runPoint (w := Config.world) Config.board_wf h hs hm

@[simp] theorem afterStep_trace (n : Nat) (c : Instr) (k : Nat) (s : State) : (afterStep n c k s).trace = s.trace := by
  rcases afterStep_cases n c k s with e | ⟨a, e⟩ <;> simp [e]

theorem afterStep_seq (n : Nat) (c : Instr) (k : Nat) (s : State) :
    (afterStep n c k s).seq =
      if k + 1 = n ∨ (c = .init ∧ k = 0 ∧ s.acq = .released) then .idle else s.seq.plus 1 := by
  unfold afterStep
  split
  · rename_i failed
    rw [if_pos (.inr failed)]
    rfl
  · rename_i failed
    split
    · rename_i last
      rw [if_pos (.inl last)]
      rfl
    · rename_i last
      rw [if_neg (not_or.2 ⟨last, failed⟩), advance_seq]

/-- INIT's first step leaves the peripheral Released exactly when `open()` fails. -/
theorem runPoint_staysfailed {b : Board} {w : World} {c : Instr} {k : Nat} {m : Prim} {s : State} (h : RunPoint b s)
    (hs : s.seq = .busy c k) (hm : (commandSteps b c)[k]? = some m) :
    (c = .init ∧ k = 0 ∧ (effect w m s).acq = .released) ↔ (c = .init ∧ k = 0 ∧ w.openOk s.trace.length = false) := by
  refine and_congr_right fun hc => and_congr_right fun hk => ?_
  subst hc hk
  obtain rfl : m = .acquire := (Option.some.inj hm).symm
  refine effect_acquire_released ?_
  cases ha : s.acq with
  | released => rfl
  | acquired =>
    obtain ⟨h1, -⟩ := (runPoint_acquired_busy ha hs).1 h
    exact absurd (h1 rfl) (by omega)

/-- Settles O35: every primitive at its position is performed, what follows it decides whether the command ends, and a
whole command is its steps. -/
theorem noCommandAbandoned : Obligations.NoCommandAbandoned := by
  unfold Obligations.NoCommandAbandoned
  refine ⟨fun s c k h hs => ?_, fun i s h hs ha => ?_, fun s h hs ha => ?_⟩
  · obtain ⟨m, hm, ht⟩ := step_at_runPoint h hs
    refine ⟨_, m, ht, hm, by rw [afterStep_trace, effect_trace], ?_⟩
    rw [afterStep_seq, effect_seq, hs]
    simp only [runPoint_staysfailed (w := Config.world) h hs hm]
    rfl
  · obtain ⟨t, ht⟩ := exec_completes_at_runPoint h hs ha
    obtain ⟨ev, trace, count⟩ := fixedStepCounts i s t ht
    exact ⟨t, ev, (bigStepEqualsSmallSteps i s hs ha).trans ht, exec_seq ht, trace, count⟩
  · obtain ⟨-, -, pins⟩ := sessionReady_of_runPoint h hs ha
    exact ⟨pins.ce_high, pins.oe_high, pins.we_high⟩

/-- A command at an Idle point of a run completes, or is refused by the admission table. -/
theorem exec_ne_busContention {i : Instr} {s : State} (h : RunPoint Config.board s) (hs : s.seq = .idle) :
    exec i s ≠ .refused .busContention := by
  by_cases ha : s.acq = needs i
  · obtain ⟨t, ht⟩ := exec_completes_at_runPoint h hs ha
    simp [ht]
  · rw [exec_of_wrong_owner hs ha]
    cases i <;> simp [sessionRefusal]

theorem step_ne_busContention {s : State} (h : RunPoint Config.board s) : step s ≠ .refused .busContention := by
  cases hs : s.seq with
  | busy c k =>
    obtain ⟨m, -, ht⟩ := step_at_runPoint h hs
    simp [ht]
  | idle =>
    cases hp : s.pending with
    | nil => simp [step_waiting hs hp]
    | cons w rest =>
      rw [step_command hs hp]
      exact exec_ne_busContention (s := { s with pending := rest }) h hs

/-- Settles O44: the control lines are safe at every point of a session, and no step of a run meets contention. -/
theorem noContentionInARun : Obligations.NoContentionInARun := by
  unfold Obligations.NoContentionInARun
  intro s h ha
  have safe := h.controlsSafe ha
  exact ⟨safe.noContention, fun ⟨i, hi⟩ => safe.oe_high_of_output hi, step_ne_busContention h⟩

/-! ### What moves while CE is low -/

/-- A primitive that turns no pin and writes no latch but those of the control pins. -/
def Prim.MovesControlsOnly (b : Board) (m : Prim) : Prop :=
  m ≠ .close ∧ (∀ p, m.setsDir p = none) ∧ ∀ p ∉ [b.ce, b.oe, b.we], m.setsLevel p = none

theorem movesControlsOnly_setPin {b : Board} {c : Pin} (hc : c ∈ [b.ce, b.oe, b.we]) :
    (Prim.setPinHigh c).MovesControlsOnly b ∧ (Prim.setPinLow c).MovesControlsOnly b := by
  have other : ∀ p ∉ [b.ce, b.oe, b.we], p ≠ c := fun p hp e => hp (e ▸ hc)
  exact ⟨⟨by simp, fun _ => rfl, fun p hp => (Prim.setsLevel_of_other_pin (other p hp)).1⟩,
    ⟨by simp, fun _ => rfl, fun p hp => (Prim.setsLevel_of_other_pin (other p hp)).2⟩⟩

/-- From READB's step k = 11 on. -/
theorem readbSteps_movesControlsOnly {b : Board} {a : HostAddr} {k : Nat} {m : Prim} (hk : 11 ≤ k)
    (hm : (readbSteps b a)[k]? = some m) : m.MovesControlsOnly b := by
  rcases readbSteps_at hm with ⟨rfl, -⟩ | ⟨rfl, -⟩ | ⟨i, rfl, -⟩ | ⟨rfl, -⟩ | ⟨-, rfl⟩ | ⟨i, -, rfl⟩ | ⟨-, rfl⟩ | ⟨-, rfl⟩
  · omega
  · omega
  · omega
  · omega
  · exact (movesControlsOnly_setPin (by simp)).2
  · exact ⟨by simp, fun _ => rfl, fun _ _ => rfl⟩
  · exact (movesControlsOnly_setPin (by simp)).1
  · exact (movesControlsOnly_setPin (by simp)).1

/-- From WRITEB's step k = 13 on. -/
theorem writebSteps_movesControlsOnly {b : Board} {a : HostAddr} {v : Byte} {k : Nat} {m : Prim} (hk : 13 ≤ k)
    (hm : (writebSteps b a v)[k]? = some m) : m.MovesControlsOnly b := by
  rcases writebSteps_at hm with
    ⟨rfl, -⟩ | ⟨rfl, -⟩ | ⟨i, rfl, -⟩ | ⟨rfl, -⟩ | ⟨rfl, -⟩ | ⟨rfl, -⟩ | ⟨-, rfl⟩ | ⟨-, rfl⟩ | ⟨-, rfl⟩
  · omega
  · omega
  · omega
  · omega
  · omega
  · omega
  · exact (movesControlsOnly_setPin (by simp)).2
  · exact (movesControlsOnly_setPin (by simp)).1
  · exact (movesControlsOnly_setPin (by simp)).1

/-- CE is low only inside the windows of READB and WRITEB, whose steps move control pins alone. -/
theorem CommandPins.movesControlsOnly {b : Board} {c : Instr} {k : Nat} {m : Prim} {s : State}
    (hm : (commandSteps b c)[k]? = some m) (h : CommandPins b c k s) (low : drive s b.ce = .level false) :
    m.MovesControlsOnly b := by
  cases c with
  | init => exact absurd low (InitPins.outputOnlyHigh h (by simp)).not_low
  | shutdown => simp [h.1.ce_high] at low
  | readb a =>
    have hce := ((ReadPins.controlsDriven h).drive_iff false).1.1 low
    have hk : 11 ≤ k ∧ k ≤ 21 := by simpa using hce
    exact readbSteps_movesControlsOnly hk.1 hm
  | writeb a v =>
    have hce := ((WritePins.controlsDriven h).drive_iff false).1.1 low
    have hk : 13 ≤ k ∧ k ≤ 15 := by simpa using hce
    exact writebSteps_movesControlsOnly hk.1 hm

/-- While CE is low a step of a run keeps every direction and the latch of every pin but the control pins. -/
theorem step_keeps_pins_while_ce_low {s t : State} (h : RunPoint Config.board s) (ha : s.acq = .acquired)
    (low : drive s Config.board.ce = .level false) (ht : step s = .next t) :
    (∀ p, t.dirOf p = s.dirOf p) ∧
    ∀ p ∉ [Config.board.ce, Config.board.oe, Config.board.we], t.latOf p = s.latOf p := by
  cases hs : s.seq with
  | idle =>
    obtain ⟨-, -, pins⟩ := sessionReady_of_runPoint h hs ha
    simp [pins.ce_high] at low
  | busy c k =>
    obtain ⟨m, hm, -, rfl⟩ := step_busy_eq_next hs ht
    obtain ⟨-, -, pins⟩ := (runPoint_acquired_busy ha hs).1 h
    obtain ⟨stays, dirs, levels⟩ := pins.movesControlsOnly hm low
    exact ⟨fun p => (dirOf_afterStep ..).trans (dirOf_effect_same _ stays (dirs p)),
      fun p hp => (latOf_afterStep ..).trans (latOf_effect_same _ stays (levels p hp))⟩

/-- A session command starts on the pins of a session. -/
theorem CommandPins.sessionPins_at_start {b : Board} {c : Instr} {s : State} (hc : c ≠ .init)
    (h : CommandPins b c 0 s) : SessionPins b s := by
  cases c with
  | init => exact absurd rfl hc
  | shutdown => exact h.1
  | readb a =>
    obtain ⟨⟨out, addr, -⟩, high, -⟩ := h
    exact ⟨out, high, addr⟩
  | writeb a v =>
    obtain ⟨⟨out, addr, -⟩, high, -⟩ := h
    exact ⟨out, high, addr⟩

/-- Where a session command starts and where it has ended, the pins are those of a session. -/
theorem RunPoint.sessionPins {b : Board} {s : State} (h : RunPoint b s) (ha : s.acq = .acquired)
    (hs : s.seq = .idle ∨ ∃ c, s.seq = .busy c 0) : SessionPins b s := by
  rcases hs with hs | ⟨c, hs⟩
  · exact ((runPoint_acquired_idle ha hs).1 h).1
  · obtain ⟨h1, -, pins⟩ := (runPoint_acquired_busy ha hs).1 h
    exact pins.sessionPins_at_start fun hc => absurd (h1 hc) (by omega)

/-- Settles O45: the control lines are safe at every point of a session, the steps in the CE window move control pins
alone, and a command starts and ends on the pins of a session. -/
theorem strobesExclusive : Obligations.StrobesExclusive := by
  unfold Obligations.StrobesExclusive
  intro s h ha
  have hb := Config.board_wf
  obtain ⟨inWe, inOe, apart⟩ := (h.controlsSafe ha).strobesNested
  refine ⟨inWe, inOe, apart, fun low t ht => ?_, fun hs => ?_⟩
  · obtain ⟨dirs, levels⟩ := step_keeps_pins_while_ce_low h ha low ht
    obtain ⟨-, -, -, data, addr, -⟩ := hb.parts
    exact ⟨fun i => levels _ fun hm => addr _ hm i rfl, fun i => ⟨levels _ fun hm => data _ hm i rfl, dirs _⟩⟩
  · have pins := h.sessionPins ha hs
    exact ⟨pins.ce_high, pins.oe_high, pins.we_high⟩

end Sys2Proof.Machine
end
